-- ==== Sys2Proof/Word.lean ====
section
/-! DEFINITION. The word types of the block and the four-element channel arrays. -/

namespace Sys2Proof

/-- A byte: a cell of pixel memory, a command word, a held data byte (R28, R60, R17). -/
abbrev Byte := BitVec 8

/-- A channel number. No command has more than four channels (R5). -/
abbrev Chan := Fin 4

/-- One element per channel: the arrays PTR, CUR, SH and B (R12, R16, R17, R18). "There are at most four of
each, one per channel". -/
structure Chans (α : Type) where
  c0 : α
  c1 : α
  c2 : α
  c3 : α
  deriving DecidableEq, Repr

end Sys2Proof
end

