-- ==== Sys2Proof/Config.lean ====
section
/-! DEFINITION. The parameters of an instance: R5's list, the descriptor constants (R15) and the platform's
memory map (R55). They are constants of the step, never written (R10, R15). -/

namespace Sys2Proof

/-- What stands at an address of pixel memory. The block fixes nothing of the map (R55): the platform does. -/
inductive MemKind where
  /-- Ordinary memory: readable, and a read changes nothing (R51). -/
  | plain
  /-- A device whose read has a side effect (R51, S16). -/
  | device
  /-- Not readable (R48, U3). -/
  | absent
  deriving DecidableEq, Repr

/-- One region of the platform's map: the addresses `base ≤ a < base + size`. -/
structure Region where
  base : Nat
  size : Nat
  kind : MemKind
  deriving DecidableEq, Repr

/-- An Output Channel Descriptor (R15, R62): the pair (PORT_ID, BIT), written `P<port>.<bit>`. -/
structure Desc where
  port : Nat
  bit : Nat
  deriving DecidableEq, Repr

/-- The configuration record of an instance (R5; 92_eei_decisions.md, "Open parameters, collected"). -/
structure Config where
  /-- COUNT_W, the width of the pixel count. -/
  countW : Nat
  /-- ADDR_W, the width of a byte address. -/
  addrW : Nat
  /-- PORT_W, the width of one output-port register. -/
  portW : Nat
  /-- NPORTS, the number of output-port registers. -/
  nports : Nat
  /-- T_SHORT, clock cycles of the short pulse phase. -/
  tShort : Nat
  /-- T_LONG, clock cycles of the long pulse phase. -/
  tLong : Nat
  /-- SKEW2, cycles between EMIT2's two writes of one transition. -/
  skew2 : Nat
  /-- CLK_HZ, the one fixed clock frequency; no step depends on it (R172, R179). -/
  clkHz : Nat
  /-- T_LATCH in cycles: owed by the caller, not timed by the block (R67). -/
  tLatch : Nat
  /-- DESC_1[0]. -/
  desc1 : Desc
  /-- DESC_2[0..1]. -/
  desc2 : Desc × Desc
  /-- DESC_3[0..2]. -/
  desc3 : Desc × Desc × Desc
  /-- DESC_4[0..3]. -/
  desc4 : Desc × Desc × Desc × Desc
  /-- The platform's memory map; an address in no region is absent. -/
  regions : List Region
  /-- What a byte of memory that nothing has written reads as: any value (U1, U3), one per instance (DESIGN CHOICE,
  log entry 5). -/
  fillByte : Byte
  deriving DecidableEq, Repr

/-- T_BIT = T_SHORT + T_LONG (R5, R6, R80). -/
def Config.tBit (cfg : Config) : Nat := cfg.tShort + cfg.tLong

/-- The example instantiation P16 (R7), with the descriptors of the programs P1 to P4 of 95_test_vectors.md and
all of memory plain. What P16 leaves open (NPORTS, T_LATCH, the map, the unwritten byte) is the model's choice:
DESIGN CHOICE, log entry 2. -/
def Config.p16 : Config where
  countW := 16
  addrW := 16
  portW := 8
  nports := 2
  tShort := 4
  tLong := 16
  skew2 := 1
  clkHz := 16000000
  tLatch := 800
  desc1 := ⟨0, 3⟩
  desc2 := (⟨0, 1⟩, ⟨1, 5⟩)
  desc3 := (⟨0, 0⟩, ⟨0, 1⟩, ⟨0, 2⟩)
  desc4 := (⟨1, 4⟩, ⟨1, 5⟩, ⟨1, 6⟩, ⟨1, 7⟩)
  regions := [⟨0, 65536, .plain⟩]
  fillByte := 0

end Sys2Proof
end

