-- ==== Sys2Proof/Syntax.lean ====
section
/-! DEFINITION. The four commands, what a host can do to the block, and a line of the assembler text. -/

namespace Sys2Proof

/-- The four frame commands (R1, R2, R60), one constructor per row of the opcode table. They carry no operands:
the pointers and the count stand in PTR and COUNT, the descriptors are constants of the instance (R61). -/
inductive Instr where
  /-- EMIT1, the single-channel emitter (R100). -/
  | emit1
  /-- EMIT2, the dual-channel emitter (R110). -/
  | emit2
  /-- EMIT3, the triple-channel emitter on one shared port (R120). -/
  | emit3
  /-- EMIT4, the quad-channel emitter on one shared port (R130). -/
  | emit4
  deriving DecidableEq, Repr

/-- NCH, the number of channels of a command (R5). -/
def Instr.nch : Instr → Nat
  | .emit1 => 1
  | .emit2 => 2
  | .emit3 => 3
  | .emit4 => 4

/-- The channels of a command, in increasing number: c = 0 .. NCH-1 (R8). -/
def Instr.chans : Instr → List Chan
  | .emit1 => [0]
  | .emit2 => [0, 1]
  | .emit3 => [0, 1, 2]
  | .emit4 => [0, 1, 2, 3]

/-- Whether a command writes one shared port whole, by PortWrite (R53), rather than its pins one by one (R52). -/
def Instr.sharedPort : Instr → Bool
  | .emit1 => false
  | .emit2 => false
  | .emit3 => true
  | .emit4 => true

/-- DESC_v[c] for c = 0 .. v-1, in channel order (R15). -/
def Config.descs (cfg : Config) : Instr → List Desc
  | .emit1 => [cfg.desc1]
  | .emit2 => [cfg.desc2.1, cfg.desc2.2]
  | .emit3 => [cfg.desc3.1, cfg.desc3.2.1, cfg.desc3.2.2]
  | .emit4 => [cfg.desc4.1, cfg.desc4.2.1, cfg.desc4.2.2.1, cfg.desc4.2.2.2]

/-- What the host does in one cycle in which it is not held. Register numbers are those of 10_state.md section 2:
0 CMD, 1 STATUS, 2 COUNT, 4+c PTR[c]. -/
inductive HostOp where
  /-- A cycle without an access: the directive IDLE lets such cycles pass (R74). -/
  | idle
  /-- Write `value` to the register with this number; a write to CMD is a command launch (R11). -/
  | writeReg (number value : Nat)
  /-- Read the register with this number. -/
  | readReg (number : Nat)
  /-- Store a byte into pixel memory, which the caller owns (R28). -/
  | store (address : Nat) (value : Byte)
  /-- Set the host's global interrupt enable (R27). -/
  | setIE (value : Bool)
  /-- Write an output latch from outside the block (R26). -/
  | setPort (port value : Nat)
  deriving DecidableEq, Repr

/-- One line of the assembler text (R74, R75). -/
inductive AsmLine where
  /-- `EMIT<n> <descriptors> <- <pointers> , <count>`; with no command written it is the pseudo-instruction
  `EMIT` (R75). -/
  | emit (command : Option Instr) (descs : List Desc) (ptrs : List Nat) (count : Nat)
  /-- `IDLE <cycles>`. -/
  | idle (cycles : Nat)
  deriving DecidableEq, Repr

end Sys2Proof
end

