-- ==== Sys2Proof/WellFormed.lean ====
section
/-! DEFINITION. When an instance may be built (R6, R72) and when one of its commands fits the reference schedule. -/

namespace Sys2Proof

/-- R72 (c): BIT < PORT_W and PORT_ID < NPORTS. -/
def Desc.inRange (cfg : Config) (x : Desc) : Bool := x.bit < cfg.portW && x.port < cfg.nports

/-- R72 (d): the pins of one command are pairwise distinct. -/
def pinsDistinct : List Desc → Bool
  | [] => true
  | x :: xs => !xs.contains x && pinsDistinct xs

/-- R72 (a): all descriptors name one port. -/
def onePort : List Desc → Bool
  | [] => true
  | x :: xs => xs.all (fun y => y.port == x.port)

/-- R72 for one command's descriptor set. -/
def Config.descsLegal (cfg : Config) (i : Instr) : Bool :=
  (cfg.descs i).all (Desc.inRange cfg) && pinsDistinct (cfg.descs i) && (!i.sharedPort || onePort (cfg.descs i))

/-- The instance can be built: the constraints of R6 that name no command, NPORTS at least 1 (R5), and R72 for each
of the four descriptor sets. -/
def Config.wellBuilt (cfg : Config) : Bool :=
  1 ≤ cfg.tShort && cfg.tShort < cfg.tLong && 1 ≤ cfg.nports &&
  [Instr.emit1, .emit2, .emit3, .emit4].all cfg.descsLegal

/-- The constraints of R6 that name a command: T_BIT ≥ NCH + 2, and for EMIT2 SKEW2 < T_SHORT (DEDUCED,
log entry 12). -/
def Config.fits (cfg : Config) (i : Instr) : Bool :=
  i.nch + 2 ≤ cfg.tBit && (i != .emit2 || cfg.skew2 < cfg.tShort)

/-- A command of an instance is well-formed: the instance can be built and the command fits its schedule (R174). -/
def Instr.wellFormed (cfg : Config) (i : Instr) : Bool := cfg.wellBuilt && cfg.fits i

end Sys2Proof
end

