-- ==== Sys2Proof/Decode.lean ====
section
/-! DEFINITION. The command word's decoder (R60, R70, R77), the encoder, and the assembler of R74 and R75. -/

namespace Sys2Proof

/-- What a decoder answers. -/
inductive Decoded where
  /-- A command and the bytes after it. -/
  | command (i : Instr) (rest : List Byte)
  /-- A reserved command word (R70). -/
  | reserved (w : Byte)
  /-- No byte to decode. -/
  | noWord
  deriving DecidableEq, Repr

/-- RSV, the field [7:2] of a command word (R60). -/
def rsvField (w : Byte) : BitVec 6 := w.extractLsb' 2 6

/-- VARIANT, the field [1:0] of a command word: NCH - 1 (R60). -/
def variantField (w : Byte) : BitVec 2 := w.extractLsb' 0 2

/-- The command whose VARIANT field is v: EMIT<v+1> (R60). All four values are used (R70). -/
def Instr.ofVariant (v : BitVec 2) : Instr :=
  if v = 0#2 then .emit1 else if v = 1#2 then .emit2 else if v = 2#2 then .emit3 else .emit4

/-- R60's decoder of one command word: reserved if [7:2] is not 0, else by VARIANT. -/
def decodeWord (w : Byte) : Option Instr :=
  if rsvField w ≠ 0#6 then none else some (Instr.ofVariant (variantField w))

/-- The decoder over bytes: a command is one byte and there is no other length (R60, R73). -/
def decode : List Byte → Decoded
  | [] => .noWord
  | w :: rest =>
    match decodeWord w with
    | some i => .command i rest
    | none => .reserved w

/-- VARIANT of a command (R60). -/
def Instr.variant : Instr → BitVec 2
  | .emit1 => 0b00#2
  | .emit2 => 0b01#2
  | .emit3 => 0b10#2
  | .emit4 => 0b11#2

/-- The command word: RSV = 000000 in bits 7:2, VARIANT in bits 1:0 (R60). -/
def encodeWord (i : Instr) : Byte := 0b000000#6 ++ i.variant

/-- A command as bytes. -/
def encode (i : Instr) : List Byte := [encodeWord i]

/-- The first `n` bytes of `w`, least significant first. -/
def bytesOf : Nat → Nat → List Byte
  | 0, _ => []
  | n + 1, w => BitVec.ofNat 8 w :: bytesOf n (w / 256)

/-- The command the decoder reads from the bits of an opcode-table row. -/
def decodeTableWord (nbits w : Nat) : Option Instr :=
  match decode (bytesOf (nbits / 8) w) with
  | .command i [] => some i
  | .command _ (_ :: _) => none
  | .reserved _ => none
  | .noWord => none

/-! ## Register numbers (10_state.md section 2) -/

/-- CMD is register 0. -/
def regCmd : Nat := 0
/-- STATUS is register 1. -/
def regStatus : Nat := 1
/-- COUNT is register 2. -/
def regCount : Nat := 2
/-- PTR[c] is register 4 + c. -/
def regPtr (c : Nat) : Nat := 4 + c

/-! ## The assembler (R74, R75) -/

/-- Why a line does not assemble. -/
inductive AsmError where
  /-- `EMIT` with no channel or more than four (R75). -/
  | badChannelCount
  /-- The descriptors in the text are not the instance's constants DESC_n (R74). -/
  | descriptorsDiffer
  /-- Not one pointer per channel (R74). -/
  | pointersMissing
  deriving DecidableEq, Repr

/-- A line assembled, or why not. -/
inductive Assembled where
  | ops (l : List HostOp)
  | error (e : AsmError)
  deriving DecidableEq, Repr

/-- R75: `EMIT` with n channels is EMIT<n>. -/
def Instr.ofChannelCount : Nat → Option Instr
  | 1 => some .emit1
  | 2 => some .emit2
  | 3 => some .emit3
  | 4 => some .emit4
  | _ => none

/-- The writes of p_c to PTR[c], in channel order from channel c on. -/
def ptrWrites : Nat → List Nat → List HostOp
  | _, [] => []
  | c, p :: ps => .writeReg (regPtr c) p :: ptrWrites (c + 1) ps

/-- R74: "write count to COUNT; write p_c to PTR[c] for each c; write the command word of rule R60 to CMD". -/
def launchOps (i : Instr) (ptrs : List Nat) (count : Nat) : List HostOp :=
  .writeReg regCount count :: (ptrWrites 0 ptrs ++ [.writeReg regCmd (encodeWord i).toNat])

/-- The command a line means: the one written, or for the pseudo-instruction the one with as many channels as
descriptors are written. -/
def AsmLine.commandOf (command : Option Instr) (descs : List Desc) : Option Instr :=
  match command with
  | some i => some i
  | none => Instr.ofChannelCount descs.length

/-- The host operations a line assembles to (R74, R75). -/
def assemble (cfg : Config) : AsmLine → Assembled
  | .idle n => .ops (List.replicate n .idle)
  | .emit command descs ptrs count =>
    match AsmLine.commandOf command descs with
    | none => .error .badChannelCount
    | some i =>
      if descs ≠ cfg.descs i then .error .descriptorsDiffer
      else if ptrs.length ≠ i.nch then .error .pointersMissing
      else .ops (launchOps i ptrs count)

end Sys2Proof
end

