-- ==== Sys2Proof/Machine/State.lean ====
section
/-! DEFINITION. The state: every element R10 lists, the reasons a step can stop, and the state after reset. -/

namespace Sys2Proof.Machine

open Sys2Proof

/-- FSM (R20). -/
inductive Fsm where
  /-- No frame in progress; a command can be accepted. -/
  | idle
  /-- Interrupts are masked and the first byte of each channel is being fetched. -/
  | entry
  /-- Bit windows are being emitted. -/
  | run
  /-- The interrupt state is being restored. -/
  | exit
  deriving DecidableEq, Repr

/-- A write of the block to the output ports (R9). -/
inductive PortAct (cfg : Config) where
  /-- PinWrite(p, b, level): EMIT1 and EMIT2 (R52). -/
  | pinWrite (port bit : Nat) (level : Bool)
  /-- PortWrite(p, v): EMIT3 and EMIT4 (R53). -/
  | portWrite (port : Nat) (value : BitVec cfg.portW)
  deriving DecidableEq, Repr

/-- What an observer outside the block sees in one cycle (R86), and what the host does to registers and latches. -/
inductive Event (cfg : Config) where
  /-- R86 (a): a port write of the block. -/
  | out (a : PortAct cfg)
  /-- R86 (b): a memory read of the block, for channel c. -/
  | memRead (c : Chan) (address : BitVec cfg.addrW) (value : Byte)
  /-- R86 (c): an IE write of the block. -/
  | ieWrite (value : Bool)
  /-- The host read a register and got this value. -/
  | regRead (number value : Nat)
  /-- The host wrote an output latch itself. -/
  | hostPort (port : Nat) (value : BitVec cfg.portW)
  deriving DecidableEq, Repr

/-- An event and the cycle it was issued in (R8: "at cycle t"). -/
structure Timed (cfg : Config) where
  time : Nat
  event : Event cfg
  deriving DecidableEq, Repr

/-- Pixel memory as (address, byte) pairs: addresses strictly rising, no entry equal to the unwritten byte
`Config.fillByte`, which an unlisted address reads as. `Memory.wf` (Machine/Ops.lean) says the form holds. -/
abbrev Memory := List Host.Cell

/-- Every element of the state, over the instance's parameters. -/
structure Data (cfg : Config) where
  /-- COUNT (R13). -/
  count : BitVec cfg.countW
  /-- PTR[0..3] (R12). -/
  ptr : Chans (BitVec cfg.addrW)
  /-- FSM (R20). -/
  fsm : Fsm
  /-- The command whose hardwired sequencer is running, or ran last (R2: "the four are selected by the command").
  The model's own field (DEDUCED, log entry 1). -/
  active : Instr
  /-- ECNT (R21). -/
  ecnt : BitVec 3
  /-- BYTES_LEFT (R22). -/
  bytesLeft : BitVec (cfg.countW + 2)
  /-- BITIX (R23). -/
  bitix : BitVec 3
  /-- TCNT (R24), "wide enough for 0 to T_BIT - 1". -/
  tcnt : Nat
  /-- CUR[0..3] (R16). -/
  cur : Chans (BitVec cfg.addrW)
  /-- SH[0..3] (R17). -/
  sh : Chans Byte
  /-- B[0..3] (R18). -/
  b : Chans Bool
  /-- IE_SAVED (R19). -/
  ieSaved : Bool
  /-- OTHER (R25). -/
  other : BitVec cfg.portW
  /-- PORT[0..NPORTS-1] (R26). -/
  ports : List (BitVec cfg.portW)
  /-- IE (R27). -/
  ie : Bool
  /-- M (R28). -/
  mem : Memory
  /-- What the host will do in the cycles in which it is not held, next first. The model's own field
  (DESIGN CHOICE, log entry 7). -/
  host : List HostOp
  /-- The level of the reset input in the coming cycles, next first; when it is used up reset is not applied.
  The model's own field (DESIGN CHOICE, log entry 8). -/
  resetIn : List Bool
  /-- The number of the current clock cycle. The model's own field (DESIGN CHOICE, log entry 15). -/
  now : Nat
  /-- What has been observed so far (R86), oldest first. The model's own field (DESIGN CHOICE, log entry 15). -/
  trace : List (Timed cfg)
  deriving DecidableEq, Repr

/-- The state: the instance's parameters, which no step changes (R10, R15), and its elements. -/
structure State where
  cfg : Config
  data : Data cfg
  deriving DecidableEq, Repr

/-- The machine stops. The block itself raises no exception (R140). -/
inductive Fault where
  /-- The position tuple has a value that no frame gives it: ECNT at or above NCH in ENTRY, TCNT at or above T_BIT
  in RUN, or BYTES_LEFT = 0 in RUN (U2: the schedule "must not be run with BYTES_LEFT = 0"). Raised by
  `sequencer`. Safe: no run reaches such a state. -/
  | badPosition
  deriving DecidableEq, Repr

/-- The situations to which the spec gives no meaning (R9 `refuse`). All are safe: nothing is claimed. -/
inductive Refusal where
  /-- The instruction has no meaning in this model yet. Raised by `exec` only. Safe. -/
  | notModelled (mnemonic : String)
  /-- A reserved command word, [7:2] not 0 (R70, S7). Raised by a host write to CMD. Safe. -/
  | reservedCommand (word : Byte)
  /-- A launch with COUNT = 0 (R71, U2). Raised by `launch`. Safe. -/
  | zeroCount
  /-- The instance breaks R6 or R72 (S8). Raised by `clockCycle` if it cannot be built, and by `sequencer` if it cannot
  be built or does not fit the command. Safe. -/
  | illFormedInstance
  /-- An address of the read set is not readable (U1, U3). Raised by `launch` and by a fetch. Safe. -/
  | unreadableBuffer (address : Nat)
  /-- An address of the read set is a device's (R51, S16). Raised by `launch` and by a fetch. Safe. -/
  | sideEffectBuffer (address : Nat)
  /-- A command while a frame of another command is in progress (R70, S10). Raised by `sequencer`. Safe. -/
  | commandWhileBusy
  /-- A host read of CMD (R11, S14). Raised by `readReg`. Safe. -/
  | readOfCmd
  /-- A host write to STATUS (S14). Raised by `writeReg`. Safe. -/
  | writeOfStatus
  /-- A host access to a register number the map does not list. Raised by `readReg` and `writeReg`. Safe. -/
  | noSuchRegister (number : Nat)
  /-- A host write of a value that does not fit the register or latch. Raised by `writeReg` and `setPort`. Safe. -/
  | valueTooWide (value : Nat)
  /-- A host write to a port at or above NPORTS. Raised by `setPort`. Safe. -/
  | noSuchPort (port : Nat)
  /-- A host store to an address at or above 2^ADDR_W. Raised by `store`. Safe. -/
  | noSuchAddress (address : Nat)
  /-- A host store to an address that is not plain memory. Raised by `store`. Safe. -/
  | notPlainMemory (address : Nat)
  deriving DecidableEq, Repr

/-- The elements right after reset. R31 gives only FSM = IDLE; every other value is the model's (DESIGN CHOICE, log
entries 3, 4 and 5). -/
def Data.reset (cfg : Config) : Data cfg where
  count := 0
  ptr := ⟨0, 0, 0, 0⟩
  fsm := .idle
  active := .emit1
  ecnt := 0
  bytesLeft := 0
  bitix := 0
  tcnt := 0
  cur := ⟨0, 0, 0, 0⟩
  sh := ⟨0, 0, 0, 0⟩
  b := ⟨false, false, false, false⟩
  ieSaved := false
  other := 0
  ports := List.replicate cfg.nports 0
  ie := false
  mem := []
  host := []
  resetIn := []
  now := 0
  trace := []

/-- The machine right after reset, as the instance of `Config.p16`. -/
def State.reset : State := ⟨Config.p16, Data.reset Config.p16⟩

end Sys2Proof.Machine
end

