-- ==== Sys2Proof/Machine/Ops.lean ====
section
/-! DEFINITION. The named operations on the state: channel arrays, pixel memory, output ports, the interrupt
enable, the clock, the trace and reset. -/

namespace Sys2Proof.Machine

open Sys2Proof

/-! ## Channel arrays -/

/-- Element c. -/
def chanGet {α : Type} (q : Chans α) (c : Chan) : α :=
  match c with
  | 0 => q.c0
  | 1 => q.c1
  | 2 => q.c2
  | 3 => q.c3

/-- `q` with element c replaced. -/
def chanSet {α : Type} (q : Chans α) (c : Chan) (v : α) : Chans α :=
  match c with
  | 0 => { q with c0 := v }
  | 1 => { q with c1 := v }
  | 2 => { q with c2 := v }
  | 3 => { q with c3 := v }

/-- Elements 0 to n-1 of `new` and the others of `old`: "an EMIT<n> command touches elements 0 to n-1 and leaves the
rest as they were" (R34). -/
def chanBelow {α : Type} (n : Nat) (new old : Chans α) : Chans α where
  c0 := if 0 < n then new.c0 else old.c0
  c1 := if 1 < n then new.c1 else old.c1
  c2 := if 2 < n then new.c2 else old.c2
  c3 := if 3 < n then new.c3 else old.c3

/-- A function applied to every element. -/
def chanMap {α β : Type} (f : α → β) (q : Chans α) : Chans β := ⟨f q.c0, f q.c1, f q.c2, f q.c3⟩

/-- The channel of this number, if there is one. -/
def chanOf (n : Nat) : Option Chan := if h : n < 4 then some ⟨n, h⟩ else none

/-! ## Pixel memory (R28, R40, R41) -/

/-- The byte at an address; an unlisted address reads as the unwritten byte. -/
def memByte (fill : Byte) : Memory → Nat → Byte
  | [], _ => fill
  | (k, v) :: m, a => if k = a then v else memByte fill m a

/-- Store a byte, keeping the canonical form. Only the host stores: the block never writes M (R42). -/
def memPut (fill : Byte) : Memory → Nat → Byte → Memory
  | [], a, v => if v = fill then [] else [(a, v)]
  | (k, w) :: m, a, v =>
    if a < k then (if v = fill then (k, w) :: m else (a, v) :: (k, w) :: m)
    else if a = k then (if v = fill then m else (a, v) :: m)
    else (k, w) :: memPut fill m a v

/-- Every listed address lies at or above `low` and below `bound`, addresses rise strictly, and no listed byte is the
unwritten one. -/
def memRising (fill : Byte) (bound : Nat) : Nat → Memory → Bool
  | _, [] => true
  | low, (k, v) :: m => low ≤ k && k < bound && v != fill && memRising fill bound (k + 1) m

/-- The canonical form of an instance's memory. -/
def Memory.wf (cfg : Config) (m : Memory) : Bool := memRising cfg.fillByte (2 ^ cfg.addrW) 0 m

/-- MemRead(addr, 1) (R9, R41): M[addr], and nothing changes. -/
def memRead {cfg : Config} (d : Data cfg) (a : BitVec cfg.addrW) : Byte := memByte cfg.fillByte d.mem a.toNat

/-- Which region kind the platform's map gives an address: the first region that holds it, else absent. -/
def regionKind (a : Nat) : List Region → MemKind
  | [] => .absent
  | r :: rs => if r.base ≤ a ∧ a < r.base + r.size then r.kind else regionKind a rs

/-- Why the block may not read an address, if it may not: its behaviour is then undefined (U3) or refused (S16).
DEDUCED, log entry 10. -/
def readRefusal (cfg : Config) (a : Nat) : Option Refusal :=
  match regionKind a cfg.regions with
  | .plain => none
  | .device => some (.sideEffectBuffer a)
  | .absent => some (.unreadableBuffer a)

/-! ## Output ports (R26, R52, R53) -/

/-- The value of PORT[p] (R26); a port the platform does not have reads 0 (DEDUCED, log entry 17). -/
def portGet {w : Nat} (ports : List (BitVec w)) (p : Nat) : BitVec w := ports.getD p 0

/-- A register with bit b at a level and every other bit as it was. -/
def withBit {w : Nat} (v : BitVec w) (b : Nat) (level : Bool) : BitVec w :=
  if level then v ||| BitVec.twoPow w b else v &&& ~~~(BitVec.twoPow w b)

/-- PinWrite(p, b, level) (R52). -/
def pinWrite {w : Nat} (ports : List (BitVec w)) (p b : Nat) (level : Bool) : List (BitVec w) :=
  ports.set p (withBit (portGet ports p) b level)

/-- PortWrite(p, v) (R53). -/
def portWrite {w : Nat} (ports : List (BitVec w)) (p : Nat) (v : BitVec w) : List (BitVec w) := ports.set p v

/-- One port write of the block. -/
def applyAct {cfg : Config} (ports : List (BitVec cfg.portW)) (a : PortAct cfg) : List (BitVec cfg.portW) :=
  match a with
  | .pinWrite p b level => pinWrite ports p b level
  | .portWrite p v => portWrite ports p v

/-- The port writes of one cycle: "Two PinWrites issued in the same cycle to different pins both take effect" (R52). -/
def applyActs {cfg : Config} (ports : List (BitVec cfg.portW)) (acts : List (PortAct cfg)) :
    List (BitVec cfg.portW) :=
  acts.foldl applyAct ports

/-- The drive level of pin (p, b) (R26). -/
def pinLevel {w : Nat} (ports : List (BitVec w)) (p b : Nat) : Bool := (portGet ports p).getLsbD b

/-! ## The clock and the trace -/

/-- The events of the current cycle, at the current time, in the order given. -/
def stamp {cfg : Config} (t : Nat) (es : List (Event cfg)) : List (Timed cfg) := es.map (fun e => ⟨t, e⟩)

/-- A cycle in which nothing but the clock moves (R156: in IDLE the block "does nothing and keeps PTR, COUNT and the
pin latches as they are"). -/
def tick {cfg : Config} (d : Data cfg) : Data cfg := { d with now := d.now + 1 }

/-- A cycle with these events. -/
def tickWith {cfg : Config} (es : List (Event cfg)) (d : Data cfg) : Data cfg :=
  { d with now := d.now + 1, trace := d.trace ++ stamp d.now es }

/-! ## Building an instance (R72, R174) -/

/-- The machine of an instance right after reset. An instance that breaks R72, or a constraint of R6 that binds it whole,
"cannot be built, and a model refuses to construct it" (R72). -/
def State.build (cfg : Config) : Option State := if cfg.wellBuilt then some ⟨cfg, Data.reset cfg⟩ else none

/-! ## Reset (R160 to R163) -/

/-- Whether the reset input is high in this cycle (DESIGN CHOICE, log entry 8). -/
def resetApplied {cfg : Config} (d : Data cfg) : Bool := d.resetIn.head? == some true

/-- The elements with this cycle's sample of the reset input taken off. -/
def sampleReset {cfg : Config} (d : Data cfg) : Data cfg := { d with resetIn := d.resetIn.tail }

/-- A cycle in which reset is applied. FSM becomes IDLE, also from a frame in progress (R163); PORT, IE and M keep
their values (R162); the block's other elements, which the spec leaves without a value, take the ones the model
names for reset (DESIGN CHOICE, log entry 3). A reset in a frame is taken (DESIGN CHOICE, log entry 8). -/
def resetCycle {cfg : Config} (d : Data cfg) : Data cfg :=
  { Data.reset cfg with
    ports := d.ports
    ie := d.ie
    mem := d.mem
    host := d.host
    resetIn := d.resetIn
    now := d.now + 1
    trace := d.trace }

end Sys2Proof.Machine
end

