-- ==== Sys2Proof/Machine/Flags.lean ====
section
/-! DEFINITION. The flags of R33: BUSY and STATUS, the bit latch B, IE_SAVED with the mask and its restoration, and
the shift that exposes the next bit. -/

namespace Sys2Proof.Machine

open Sys2Proof

/-- BUSY = (FSM ≠ IDLE) (R14). -/
def busy {cfg : Config} (d : Data cfg) : Bool := d.fsm != .idle

/-- STATUS: bit 0 is BUSY, bits 7:1 read as 0 (10_state.md section 2). -/
def status {cfg : Config} (d : Data cfg) : Byte := if busy d then 1 else 0

/-- SH[7], the next bit to send (R17). -/
def topBit (v : Byte) : Bool := v.getLsbD 7

/-- B[c] <- SH[c][7] for every channel of the command (R89). -/
def latchBits (nch : Nat) {cfg : Config} (d : Data cfg) : Chans Bool := chanBelow nch (chanMap topBit d.sh) d.b

/-- (SH << 1)[7:0]: the bit shifted out is dropped, a 0 comes in (R17, R33). -/
def shiftByte (v : Byte) : Byte := v <<< 1

/-- SH[c] <- (SH[c] << 1)[7:0] for every channel of the command (R84). -/
def shiftBytes (nch : Nat) {cfg : Config} (d : Data cfg) : Chans Byte := chanBelow nch (chanMap shiftByte d.sh) d.sh

/-- IE_SAVED <- IERead(); IEWrite(0) (R87, R142): "disable interrupt delivery for the full duration". -/
def maskInterrupts {cfg : Config} (d : Data cfg) : Data cfg := { d with ieSaved := d.ie, ie := false }

/-- IEWrite(IE_SAVED) (R95, R144): "restoring prior state, not unconditionally". -/
def restoreInterrupts {cfg : Config} (d : Data cfg) : Data cfg := { d with ie := d.ieSaved }

end Sys2Proof.Machine
end

