-- ==== Sys2Proof/Machine/Operands.lean ====
section
/-! DEFINITION. The operands of a command: whether the instance fits it, its byte count, its read set, the mask and
the snapshots of a shared port. -/

namespace Sys2Proof.Machine

open Sys2Proof

/-- Whether the instance gives the command a meaning (R6, R72, R174). -/
def instanceOk (cfg : Config) (i : Instr) : Bool := i.wellFormed cfg

/-- BYTES_LEFT at accept (R22, R69): 3 × zext(COUNT). -/
def byteCount {cfg : Config} (count : BitVec cfg.countW) : BitVec (cfg.countW + 2) :=
  3 * count.setWidth (cfg.countW + 2)

/-! ## The read set (R46) -/

/-- The address of byte k of a buffer that starts at p, modulo 2^ADDR_W (R46, R49; DEDUCED, log entry
11). -/
def byteAddr {w : Nat} (p : BitVec w) (k : Nat) : BitVec w := p + BitVec.ofNat w k

/-- The read set of a command on these elements: p_c + k for every channel c and k = 0 .. 3×COUNT (R46). -/
def readSet (i : Instr) {cfg : Config} (d : Data cfg) : List (BitVec cfg.addrW) :=
  i.chans.flatMap (fun c => (List.range (3 * d.count.toNat + 1)).map (byteAddr (chanGet d.ptr c)))

/-- The first reason why the read set may not be read, if there is one (U1, U3, S16). -/
def readSetRefusal (i : Instr) {cfg : Config} (d : Data cfg) : Option Refusal :=
  (readSet i d).findSome? (fun a => readRefusal cfg a.toNat)

/-! ## The shared port (R15, R25, R68) -/

/-- P, the port of the first descriptor; for EMIT3 and EMIT4 the port all of them name (R72). -/
def sharedPortId (descs : List Desc) : Nat :=
  match descs with
  | [] => 0
  | x :: _ => x.port

/-- MASK: bit DESC[c].BIT set for every c (R15). -/
def mask (w : Nat) (descs : List Desc) : BitVec w := descs.foldl (fun m x => m ||| BitVec.twoPow w x.bit) 0

/-- OTHER as sampled from a port: PORT[P] & ~MASK (R25). -/
def sampleOther {w : Nat} (port : BitVec w) (descs : List Desc) : BitVec w := port &&& ~~~(mask w descs)

/-- LO = OTHER: "all target pins low" (R25, R68). -/
def snapLo {w : Nat} (other : BitVec w) : BitVec w := other

/-- HI = OTHER | MASK: "all target pins high" (R25, R68). -/
def snapHi {w : Nat} (other : BitVec w) (descs : List Desc) : BitVec w := other ||| mask w descs

/-- PAT = OTHER | OR over c of (B[c] << DESC[c].BIT) (R25, R68): each descriptor beside its channel's bit. -/
def snapPat {w : Nat} (other : BitVec w) : List (Desc × Bool) → BitVec w
  | [] => other
  | (x, bit) :: rest => snapPat (if bit then other ||| BitVec.twoPow w x.bit else other) rest

end Sys2Proof.Machine
end

