-- ==== Sys2Proof/Machine/Sequencer.lean ====
section
/-! DEFINITION. The frame sequence shared by the four commands, one clock cycle at a time (R87, R88, R91, R95). Every
new value is a function of the elements at the start of the cycle (R8). -/

namespace Sys2Proof.Machine

open Sys2Proof

/-! ## Accept (R87) -/

/-- OTHER after accept: sampled from the shared port by EMIT3 and EMIT4, untouched by EMIT1 and EMIT2 (R25). -/
def acceptOther (i : Instr) {cfg : Config} (d : Data cfg) : BitVec cfg.portW :=
  if i.sharedPort then sampleOther (portGet d.ports (sharedPortId (cfg.descs i))) (cfg.descs i) else d.other

/-- The accept cycle (R87). -/
def acceptCycle (i : Instr) {cfg : Config} (d : Data cfg) : Data cfg :=
  tickWith [.ieWrite false]
    { maskInterrupts d with
      active := i
      cur := chanBelow i.nch d.ptr d.cur
      bytesLeft := byteCount d.count
      bitix := 0
      ecnt := 0
      fsm := .entry
      other := acceptOther i d }

/-- A launch: the command is refused where the spec gives it no meaning (COUNT = 0: R71, U2; a read set that is not
plain readable memory: U1, U3, S16), and otherwise accepted. DEDUCED, log entries 9 and 10. -/
def launch (i : Instr) (s : State) : Host.Outcome State Fault Refusal :=
  if s.data.count = 0 then .refused .zeroCount
  else
    match readSetRefusal i s.data with
    | some r => .refused r
    | none => .next ⟨s.cfg, acceptCycle i s.data⟩

/-! ## Fetches (R88, R92) -/

/-- SH with channel c's next byte in it: SH[c] <- MemRead(CUR[c], 1). -/
def fetchSh {cfg : Config} (d : Data cfg) (c : Chan) : Chans Byte := chanSet d.sh c (memRead d (chanGet d.cur c))

/-- CUR with channel c's cursor moved on: CUR[c] <- CUR[c] + 1, modulo 2^ADDR_W (R16, R49). -/
def fetchCur {cfg : Config} (d : Data cfg) (c : Chan) : Chans (BitVec cfg.addrW) :=
  chanSet d.cur c (chanGet d.cur c + 1)

/-- What an observer sees of the fetch. -/
def fetchEvent {cfg : Config} (d : Data cfg) (c : Chan) : Event cfg :=
  .memRead c (chanGet d.cur c) (memRead d (chanGet d.cur c))

/-! ## ENTRY (R88) -/

/-- The ENTRY cycle that fetches channel c. -/
def entryNext (nch : Nat) {cfg : Config} (d : Data cfg) (c : Chan) : Data cfg :=
  tickWith [fetchEvent d c]
    { d with
      sh := fetchSh d c
      cur := fetchCur d c
      ecnt := d.ecnt + 1
      fsm := if d.ecnt.toNat + 1 = nch then .run else .entry
      tcnt := if d.ecnt.toNat + 1 = nch then 0 else d.tcnt }

/-- The channel that an ENTRY cycle fetches: ECNT, the number of channels already fetched (R21, R88). -/
def entryChan (nch : Nat) {cfg : Config} (d : Data cfg) : Option Chan :=
  if d.ecnt.toNat < nch then chanOf d.ecnt.toNat else none

/-- One cycle of ENTRY (R88). -/
def entryCycle (nch : Nat) (s : State) : Host.Outcome State Fault Refusal :=
  match entryChan nch s.data with
  | none => .fault .badPosition
  | some c =>
    match readRefusal s.cfg (chanGet s.data.cur c).toNat with
    | some r => .refused r
    | none => .next ⟨s.cfg, entryNext nch s.data c⟩

/-! ## RUN (R91) -/

/-- The channel fetched in this cycle of RUN: c at window cycle 1 + c of an eighth window (R91, R92). -/
def runChan (nch : Nat) {cfg : Config} (d : Data cfg) : Option Chan :=
  if d.bitix = 7 ∧ 1 ≤ d.tcnt ∧ d.tcnt ≤ nch then chanOf (d.tcnt - 1) else none

/-- Whether this is window cycle T_BIT - 1. -/
def lastCycle {cfg : Config} (d : Data cfg) : Bool := d.tcnt + 1 == cfg.tBit

/-- Whether this cycle ends an eighth window. -/
def byteEnds {cfg : Config} (d : Data cfg) : Bool := lastCycle d && d.bitix == 7

/-- SH after a cycle of RUN: shifted at the end of each of the first seven windows, reloaded by a fetch (R84, R91). -/
def runSh (nch : Nat) {cfg : Config} (d : Data cfg) : Chans Byte :=
  match runChan nch d with
  | some c => fetchSh d c
  | none => if lastCycle d && d.bitix != 7 then shiftBytes nch d else d.sh

/-- CUR after a cycle of RUN. -/
def runCur (nch : Nat) {cfg : Config} (d : Data cfg) : Chans (BitVec cfg.addrW) :=
  match runChan nch d with
  | some c => fetchCur d c
  | none => d.cur

/-- BITIX after a cycle of RUN: it moves on at the end of a window and wraps from 7 to 0 (R23). -/
def runBitix {cfg : Config} (d : Data cfg) : BitVec 3 := if lastCycle d then d.bitix + 1 else d.bitix

/-- BYTES_LEFT after a cycle of RUN (R22, R93). -/
def runBytesLeft {cfg : Config} (d : Data cfg) : BitVec (cfg.countW + 2) :=
  if byteEnds d then d.bytesLeft - 1 else d.bytesLeft

/-- FSM after a cycle of RUN: EXIT when the decremented BYTES_LEFT is 0 at the end of an eighth window (R93). -/
def runFsm {cfg : Config} (d : Data cfg) : Fsm := if byteEnds d && d.bytesLeft - 1 == 0 then .exit else .run

/-- What an observer sees of a cycle of RUN: its port writes, then its memory read. -/
def runEvents (nch : Nat) {cfg : Config} (acts : List (PortAct cfg)) (d : Data cfg) : List (Event cfg) :=
  acts.map .out ++ (match runChan nch d with
    | some c => [fetchEvent d c]
    | none => [])

/-- The elements after a cycle of RUN with these port writes (R91). -/
def runNext (nch : Nat) {cfg : Config} (acts : List (PortAct cfg)) (d : Data cfg) : Data cfg :=
  tickWith (runEvents nch acts d)
    { d with
      b := if d.tcnt = 0 then latchBits nch d else d.b
      sh := runSh nch d
      cur := runCur nch d
      ports := applyActs d.ports acts
      bitix := runBitix d
      bytesLeft := runBytesLeft d
      fsm := runFsm d
      tcnt := (d.tcnt + 1) % cfg.tBit }

/-- Whether a fetch of this cycle may not be made, and why. -/
def runRefusal (nch : Nat) {cfg : Config} (d : Data cfg) : Option Refusal :=
  match runChan nch d with
  | some c => readRefusal cfg (chanGet d.cur c).toNat
  | none => none

/-- One cycle of RUN (R91). -/
def runCycle (nch : Nat) (acts : {cfg : Config} → Data cfg → List (PortAct cfg)) (s : State) :
    Host.Outcome State Fault Refusal :=
  if s.cfg.tBit ≤ s.data.tcnt ∨ s.data.bytesLeft = 0 then .fault .badPosition
  else
    match runRefusal nch s.data with
    | some r => .refused r
    | none => .next ⟨s.cfg, runNext nch (acts s.data) s.data⟩

/-! ## EXIT (R95) -/

/-- The EXIT cycle (R95). -/
def exitCycle {cfg : Config} (d : Data cfg) : Data cfg :=
  tickWith [.ieWrite d.ieSaved] { restoreInterrupts d with fsm := .idle }

/-! ## The sequencer of a command -/

/-- One clock cycle of a command's hardwired sequencer, with the port writes that are its own: in IDLE it is
launched, and while its frame is in progress it moves on by one cycle (DEDUCED, log entries 1, 12 and 13). -/
def sequencer (i : Instr) (acts : {cfg : Config} → Data cfg → List (PortAct cfg)) (s : State) :
    Host.Outcome State Fault Refusal :=
  if instanceOk s.cfg i = false then .refused .illFormedInstance
  else
    match s.data.fsm with
    | .idle => launch i s
    | .entry => if s.data.active = i then entryCycle i.nch s else .refused .commandWhileBusy
    | .run => if s.data.active = i then runCycle i.nch acts s else .refused .commandWhileBusy
    | .exit => if s.data.active = i then .next ⟨s.cfg, exitCycle s.data⟩ else .refused .commandWhileBusy

end Sys2Proof.Machine
end

