-- ==== Sys2Proof/Machine/Emit.lean ====
section
/-! DEFINITION. The four commands: the port writes each of them makes in a cycle of RUN (R90), and its meaning. -/

namespace Sys2Proof.Machine

open Sys2Proof

/-! ## The three writes of a window (R90) -/

/-- The PinWrites of one channel in window cycle w, with write offset s: high at s, the data bit at T_SHORT + s, low at
T_LONG + s. Each is issued whether or not it changes the level (R90). -/
def pinActs (cfg : Config) (x : Desc) (bit : Bool) (s w : Nat) : List (PortAct cfg) :=
  (if w = s then [.pinWrite x.port x.bit true] else []) ++
  (if w = cfg.tShort + s then [.pinWrite x.port x.bit bit] else []) ++
  (if w = cfg.tLong + s then [.pinWrite x.port x.bit false] else [])

/-- The PortWrites of a shared port in window cycle w: HI at 0, PAT at T_SHORT, LO at T_LONG (R90, R121). -/
def portActs {cfg : Config} (descs : List Desc) (bits : List Bool) (d : Data cfg) : List (PortAct cfg) :=
  (if d.tcnt = 0 then [.portWrite (sharedPortId descs) (snapHi d.other descs)] else []) ++
  (if d.tcnt = cfg.tShort then [.portWrite (sharedPortId descs) (snapPat d.other (descs.zip bits))] else []) ++
  (if d.tcnt = cfg.tLong then [.portWrite (sharedPortId descs) (snapLo d.other)] else [])

/-! ## EMIT1 (R100, R101) -/

/-- EMIT1's port writes: s(0) = 0. -/
def emit1Acts {cfg : Config} (d : Data cfg) : List (PortAct cfg) := pinActs cfg cfg.desc1 d.b.c0 0 d.tcnt

/-- EMIT1: one clock cycle of its sequencer (R100). -/
def execEmit1 (s : State) : Host.Outcome State Fault Refusal := sequencer .emit1 emit1Acts s

/-! ## EMIT2 (R110 to R112) -/

/-- EMIT2's port writes: channel 0 first with s(0) = 0, then channel 1 with s(1) = SKEW2. -/
def emit2Acts {cfg : Config} (d : Data cfg) : List (PortAct cfg) :=
  pinActs cfg cfg.desc2.1 d.b.c0 0 d.tcnt ++ pinActs cfg cfg.desc2.2 d.b.c1 cfg.skew2 d.tcnt

/-- EMIT2: one clock cycle of its sequencer (R110). -/
def execEmit2 (s : State) : Host.Outcome State Fault Refusal := sequencer .emit2 emit2Acts s

/-! ## EMIT3 (R120 to R123) -/

/-- EMIT3's port writes: one PortWrite a transition. -/
def emit3Acts {cfg : Config} (d : Data cfg) : List (PortAct cfg) :=
  portActs (cfg.descs .emit3) [d.b.c0, d.b.c1, d.b.c2] d

/-- EMIT3: one clock cycle of its sequencer (R120). -/
def execEmit3 (s : State) : Host.Outcome State Fault Refusal := sequencer .emit3 emit3Acts s

/-! ## EMIT4 (R130, R133) -/

/-- EMIT4's port writes: one PortWrite a transition. -/
def emit4Acts {cfg : Config} (d : Data cfg) : List (PortAct cfg) :=
  portActs (cfg.descs .emit4) [d.b.c0, d.b.c1, d.b.c2, d.b.c3] d

/-- EMIT4: one clock cycle of its sequencer (R130). -/
def execEmit4 (s : State) : Host.Outcome State Fault Refusal := sequencer .emit4 emit4Acts s

end Sys2Proof.Machine
end

