-- ==== Sys2Proof/Machine/Dispatch.lean ====
section
/-! DEFINITION. One arm per command: a clock cycle of that command's sequencer. -/

namespace Sys2Proof.Machine

open Sys2Proof

def exec (i : Instr) (s : State) : Host.Outcome State Fault Refusal :=
  match i with
  | .emit1 => Sys2Proof.Machine.execEmit1 s
  | .emit2 => Sys2Proof.Machine.execEmit2 s
  | .emit3 => Sys2Proof.Machine.execEmit3 s
  | .emit4 => Sys2Proof.Machine.execEmit4 s

end Sys2Proof.Machine
end

