-- ==== Sys2Proof/Machine/HostOps.lean ====
section
/-! DEFINITION. What the host does to the block in the cycles in which it is not held, the clock cycle of the whole
machine, and where a command is placed for the next step. -/

namespace Sys2Proof.Machine

open Sys2Proof

/-- A next state with these elements, on the same instance. -/
def onward (s : State) (d : Data s.cfg) : Host.Outcome State Fault Refusal := .next ⟨s.cfg, d⟩

/-- A write of the command word w to CMD (R11): a launch, or refused if w is reserved (R70). -/
def writeCmd (w : Byte) (s : State) : Host.Outcome State Fault Refusal :=
  match decode [w] with
  | .command i _ => exec i s
  | .reserved r => .refused (.reservedCommand r)
  | .noWord => .refused (.reservedCommand w)

/-- A write of a register (10_state.md section 2). The value must fit the register's width. -/
def writeReg (n v : Nat) (s : State) : Host.Outcome State Fault Refusal :=
  match n with
  | 0 => if v < 2 ^ 8 then writeCmd (BitVec.ofNat 8 v) s else .refused (.valueTooWide v)
  | 1 => .refused .writeOfStatus
  | 2 =>
    if v < 2 ^ s.cfg.countW then onward s (tick { s.data with count := BitVec.ofNat s.cfg.countW v })
    else .refused (.valueTooWide v)
  | 3 => .refused (.noSuchRegister 3)
  | k + 4 =>
    match chanOf k with
    | none => .refused (.noSuchRegister (k + 4))
    | some c =>
      if v < 2 ^ s.cfg.addrW then
        onward s (tick { s.data with ptr := chanSet s.data.ptr c (BitVec.ofNat s.cfg.addrW v) })
      else .refused (.valueTooWide v)

/-- The value the host reads from a register, if it may be read: CMD has none (R11, S14). -/
def regValue {cfg : Config} (d : Data cfg) (n : Nat) : Option Nat :=
  match n with
  | 0 => none
  | 1 => some (status d).toNat
  | 2 => some d.count.toNat
  | 3 => none
  | k + 4 => (chanOf k).map (fun c => (chanGet d.ptr c).toNat)

/-- A read of a register. The block's elements do not change. -/
def readReg (n : Nat) (s : State) : Host.Outcome State Fault Refusal :=
  match regValue s.data n with
  | some v => onward s (tickWith [.regRead n v] s.data)
  | none => if n = 0 then .refused .readOfCmd else .refused (.noSuchRegister n)

/-- A store of the host into pixel memory. -/
def store (a : Nat) (v : Byte) (s : State) : Host.Outcome State Fault Refusal :=
  if 2 ^ s.cfg.addrW ≤ a then .refused (.noSuchAddress a)
  else if regionKind a s.cfg.regions ≠ .plain then .refused (.notPlainMemory a)
  else onward s (tick { s.data with mem := memPut s.cfg.fillByte s.data.mem a v })

/-- A write of the host to an output latch, between frames (R26, R54). -/
def setPort (p v : Nat) (s : State) : Host.Outcome State Fault Refusal :=
  if s.cfg.nports ≤ p then .refused (.noSuchPort p)
  else if 2 ^ s.cfg.portW ≤ v then .refused (.valueTooWide v)
  else
    onward s (tickWith [.hostPort p (BitVec.ofNat s.cfg.portW v)]
      { s.data with ports := portWrite s.data.ports p (BitVec.ofNat s.cfg.portW v) })

/-- One operation of the host, in one cycle of IDLE (DESIGN CHOICE, log entry 7). -/
def hostOp (op : HostOp) (s : State) : Host.Outcome State Fault Refusal :=
  match op with
  | .idle => onward s (tick s.data)
  | .writeReg n v => writeReg n v s
  | .readReg n => readReg n s
  | .store a v => store a v s
  | .setIE v => onward s (tick { s.data with ie := v })
  | .setPort p v => setPort p v s

/-- A cycle of IDLE: the host's next operation; with none left the block waits (R31, R156). -/
def idleCycle (s : State) : Host.Outcome State Fault Refusal :=
  match s.data.host with
  | [] => onward s (tick s.data)
  | op :: rest => hostOp op ⟨s.cfg, { s.data with host := rest }⟩

/-- A cycle in which reset is not applied: in IDLE the host moves; while BUSY = 1 the host is held (R14) and the
sequencer of the command in progress moves. -/
def activeCycle (s : State) : Host.Outcome State Fault Refusal :=
  match s.data.fsm with
  | .idle => idleCycle s
  | .entry => exec s.data.active s
  | .run => exec s.data.active s
  | .exit => exec s.data.active s

/-- One clock cycle of the machine. An instance that cannot be built has none (R6, R72: "the model gives it no meaning");
else the reset input decides first (DESIGN CHOICE, log entry 8). -/
def clockCycle (s : State) : Host.Outcome State Fault Refusal :=
  if s.cfg.wellBuilt = false then .refused .illFormedInstance
  else if resetApplied s.data then onward s (resetCycle (sampleReset s.data))
  else activeCycle ⟨s.cfg, sampleReset s.data⟩

/-- The state with the word w as the host's next write to CMD, and what its launch takes: the block in IDLE, reset not
applied, and a COUNT that is not 0, for the host writes the operands before the command (R60, R161). DESIGN CHOICE,
log entry 6. -/
def placeCommand (nbits w : Nat) (s : State) : State :=
  ⟨s.cfg, { s.data with
    host := .writeReg regCmd (w % 2 ^ nbits) :: s.data.host
    count := if s.data.count = 0 then 1 else s.data.count
    fsm := .idle
    resetIn := [] }⟩

end Sys2Proof.Machine
end

