-- ==== Sys2Proof/Machine/Step.lean ====
section
/-! DEFINITION. One step is one clock cycle of the machine (R8, R97). -/

namespace Sys2Proof.Machine

/-- One step: one clock cycle. -/
def step (s : State) : Host.Outcome State Fault Refusal := clockCycle s

/-- The state whose next step runs the command with these bits. -/
def State.withFetchWord (s : State) (nbits w : Nat) : State := placeCommand nbits w s

end Sys2Proof.Machine
end

