-- ==== Sys2Proof/Machine/Line.lean ====
section
/-! DEFINITION. The line code on a pin (R63 to R66), the level of a pin over time as the trace gives it (R86), and the
receiver's view of it (R76). Nothing of the block's step rests on this file. -/

namespace Sys2Proof.Machine

open Sys2Proof

/-! ## What is to be sent -/

/-- Bit 7 - i of a byte: the bit sent in its window i (R64). -/
def bitOf (v : Byte) (i : Nat) : Bool := v.getLsbD (7 - i)

/-- b[c][j] = M[PTR[c] + (j div 8)][7 - (j mod 8)]: the bit that window j of channel c carries (R64). -/
def windowBit {cfg : Config} (d : Data cfg) (c : Chan) (j : Nat) : Bool :=
  bitOf (memRead d (byteAddr (chanGet d.ptr c) (j / 8))) (j % 8)

/-- The bits of a byte in the order they are sent, bit 7 first (R64, R84). -/
def bitsOfByte (v : Byte) : List Bool := (List.range 8).map (bitOf v)

/-- The bits of a buffer in the order they are sent (R64, R85). -/
def bitsOfBytes (l : List Byte) : List Bool := l.flatMap bitsOfByte

/-- The shape of a bit on the wire (R66): cycles high, then cycles low. -/
def symbolShape (cfg : Config) (bit : Bool) : Nat × Nat :=
  if bit then (cfg.tLong, cfg.tShort) else (cfg.tShort, cfg.tLong)

/-- The pulses of a run of bits whose first window rises at t: rise and fall of each, back to back (R63, R66). -/
def pulseTrain (cfg : Config) : Nat → List Bool → List (Nat × Nat)
  | _, [] => []
  | t, bit :: rest => (t, t + (symbolShape cfg bit).1) :: pulseTrain cfg (t + cfg.tBit) rest

/-! ## The level of a pin over time (R86) -/

/-- The level an event drives pin (p, b) to, if it writes that pin. -/
def eventLevel {cfg : Config} (p b : Nat) : Event cfg → Option Bool
  | .out (.pinWrite q i level) => if q = p ∧ i = b then some level else none
  | .out (.portWrite q v) => if q = p then some (v.getLsbD b) else none
  | .memRead _ _ _ => none
  | .ieWrite _ => none
  | .regRead _ _ => none
  | .hostPort q v => if q = p then some (v.getLsbD b) else none

/-- The writes to pin (p, b), each with its cycle: "a pin written at cycle t shows the new level in cycles t+1
onward" (R8). -/
def pinHistory {cfg : Config} (p b : Nat) (tr : List (Timed cfg)) : List (Nat × Bool) :=
  tr.filterMap (fun e => (eventLevel p b e.event).map (fun l => (e.time, l)))

/-- The pulses on a pin, from its writes: each from the write that raises it to the write that lowers it. `rise` is
when the pulse now open began. -/
def pulsesFrom : Option Nat → List (Nat × Bool) → List (Nat × Nat)
  | _, [] => []
  | none, (t, true) :: rest => pulsesFrom (some t) rest
  | none, (_, false) :: rest => pulsesFrom none rest
  | some r, (_, true) :: rest => pulsesFrom (some r) rest
  | some r, (t, false) :: rest => (r, t) :: pulsesFrom none rest

/-- The pulses on pin (p, b) in a trace at whose start the pin is low (DEDUCED, log entry 16). -/
def pulsesOn {cfg : Config} (p b : Nat) (tr : List (Timed cfg)) : List (Nat × Nat) := pulsesFrom none (pinHistory p b tr)

/-! ## The receiver (R67, R76) -/

/-- "the bit is 0 if the high time is T_SHORT and 1 if it is T_LONG" (R76). -/
def bitOfPulse (cfg : Config) (q : Nat × Nat) : Option Bool :=
  if q.2 - q.1 = cfg.tShort then some false
  else if q.2 - q.1 = cfg.tLong then some true
  else none

/-- The bits of a run of pulses, if each has one of the two shapes. -/
def bitsOfPulses (cfg : Config) : List (Nat × Nat) → Option (List Bool)
  | [] => some []
  | q :: rest =>
    match bitOfPulse cfg q, bitsOfPulses cfg rest with
    | some bit, some bits => some (bit :: bits)
    | _, _ => none

/-- The byte of eight bits, the first one most significant. -/
def byteOfBits (b7 b6 b5 b4 b3 b2 b1 b0 : Bool) : Byte :=
  BitVec.ofBool b7 ++ BitVec.ofBool b6 ++ BitVec.ofBool b5 ++ BitVec.ofBool b4 ++
  BitVec.ofBool b3 ++ BitVec.ofBool b2 ++ BitVec.ofBool b1 ++ BitVec.ofBool b0

/-- "eight consecutive bits, first one most significant, form a byte" (R76). -/
def bytesOfBits : List Bool → Option (List Byte)
  | [] => some []
  | b7 :: b6 :: b5 :: b4 :: b3 :: b2 :: b1 :: b0 :: rest =>
    (bytesOfBits rest).map (fun l => byteOfBits b7 b6 b5 b4 b3 b2 b1 b0 :: l)
  | _ :: _ => none

/-- "three consecutive bytes form a pixel A, B, C" (R65, R76). -/
def pixelsOfBytes : List Byte → Option (List (Byte × Byte × Byte))
  | [] => some []
  | a :: b :: c :: rest => (pixelsOfBytes rest).map (fun l => (a, b, c) :: l)
  | _ :: _ => none

/-- The bytes a receiver reads from a run of pulses. -/
def receivePulses (cfg : Config) (pulses : List (Nat × Nat)) : Option (List Byte) :=
  (bitsOfPulses cfg pulses).bind bytesOfBits

/-- The bytes a receiver on pin (p, b) reads from a trace at whose start the pin is low (R76). -/
def receive {cfg : Config} (p b : Nat) (tr : List (Timed cfg)) : Option (List Byte) := receivePulses cfg (pulsesOn p b tr)

/-- The pulses cut into frames: a low level of at least T_LATCH ends a frame (R67), and a shorter one makes the next
pulse a continuation of it (R167). -/
def framesOfPulses (cfg : Config) : List (Nat × Nat) → List (List (Nat × Nat))
  | [] => []
  | q :: rest =>
    match rest, framesOfPulses cfg rest with
    | r :: _, f :: fs => if r.1 - q.2 < cfg.tLatch then (q :: f) :: fs else [q] :: f :: fs
    | _, fs => [q] :: fs

/-- The duration of a number of cycles in nanoseconds, exactly: cycles divided by CLK_HZ (R172). A CLK_HZ of 0 is no clock
and its durations mean nothing. -/
def cyclesToNs (cfg : Config) (n : Nat) : Rat := (n * 1000000000 : Nat) / (cfg.clkHz : Nat)

end Sys2Proof.Machine
end

