-- ==== Sys2Proof/Safety.lean ====
section
/-! DEFINITION. The terms claims are stated in: launch premises, the invariant, a run of a command, the end of a frame
(R36), and what a frame shows an observer (R86). -/

namespace Sys2Proof.Safety

open Sys2Proof Sys2Proof.Machine

/-! ## Launch -/

/-- What a launch needs (R71, R174, R46 with U1 to U3 and S16): the instance is well built for the command, the block
is in IDLE, COUNT is not 0, and every address of the read set is plain memory. -/
abbrev LaunchReady (i : Instr) {cfg : Config} (d : Data cfg) : Prop :=
  instanceOk cfg i = true ∧ d.fsm = .idle ∧ d.count ≠ 0 ∧ readSetRefusal i d = none

/-- The platform has NPORTS port registers (R26). -/
abbrev PortsExist {cfg : Config} (d : Data cfg) : Prop := d.ports.length = cfg.nports

/-- The host may move in this cycle: the instance is one that can be built, the block is in IDLE, and reset is not applied
(R14, R174). -/
abbrev HostTurn {cfg : Config} (d : Data cfg) : Prop :=
  cfg.wellBuilt = true ∧ d.fsm = .idle ∧ resetApplied d = false

/-- Reset is not applied in any of the next n cycles. -/
abbrev NoResetFor {cfg : Config} (n : Nat) (d : Data cfg) : Prop := true ∉ d.resetIn.take n

/-! ## Running a command -/

/-- `n` clock cycles of a command's sequencer. -/
def execTimes (i : Instr) : Nat → State → Host.Outcome State Fault Refusal
  | 0, s => .next s
  | n + 1, s =>
    match exec i s with
    | .next s' => execTimes i n s'
    | .fault f => .fault f
    | .refused r => .refused r

/-- T_ENTRY + 24×COUNT×T_BIT + T_EXIT, the cycles from accept to the first IDLE cycle (R96). -/
def frameCycles (i : Instr) {cfg : Config} (d : Data cfg) : Nat := (i.nch + 1) + 24 * d.count.toNat * cfg.tBit + 1

/-- The cycle t0 of the first rise of a frame accepted now: a + T_ENTRY (R88). -/
def firstRise (i : Instr) {cfg : Config} (d : Data cfg) : Nat := d.now + i.nch + 1

/-- The port writes of a command in the current cycle of RUN (R90, R91). -/
def commandActs (i : Instr) {cfg : Config} (d : Data cfg) : List (PortAct cfg) :=
  match i with
  | .emit1 => emit1Acts d
  | .emit2 => emit2Acts d
  | .emit3 => emit3Acts d
  | .emit4 => emit4Acts d

/-! ## Channels of a command -/

/-- DESC[c] of a command (R15). -/
def chanDesc (cfg : Config) (i : Instr) (c : Chan) : Desc := (cfg.descs i).getD c.val ⟨0, 0⟩

/-- The write offset s(c) (R90): SKEW2 for channel 1 of EMIT2, else 0. -/
def writeOffset (cfg : Config) (i : Instr) (c : Chan) : Nat := if i = .emit2 ∧ c = 1 then cfg.skew2 else 0

/-- The level of channel c's pin. -/
def targetLevel (i : Instr) {cfg : Config} (d : Data cfg) (c : Chan) : Bool :=
  pinLevel d.ports (chanDesc cfg i c).port (chanDesc cfg i c).bit

/-- The frame's bytes of channel c: M[PTR[c]] .. M[PTR[c] + 3×COUNT - 1] (R46, R76). -/
def frameBytes {cfg : Config} (d : Data cfg) (c : Chan) : List Byte :=
  (List.range (3 * d.count.toNat)).map (fun k => memRead d (byteAddr (chanGet d.ptr c) k))

/-! ## The invariant -/

/-- OTHER holds no target bit of a shared port (R25). -/
abbrev OtherClear {cfg : Config} (d : Data cfg) : Prop :=
  d.active.sharedPort = true → d.other &&& mask cfg.portW (cfg.descs d.active) = 0

/-- What holds in ENTRY (R87, R88, R143). -/
abbrev EntryOk {cfg : Config} (d : Data cfg) : Prop :=
  instanceOk cfg d.active = true ∧ d.ie = false ∧ d.ecnt.toNat < d.active.nch ∧ d.bitix = 0 ∧
  d.bytesLeft.toNat = 3 * d.count.toNat ∧ d.count ≠ 0 ∧ OtherClear d

/-- What holds in RUN (R91, R93, R143): among it, that a channel's pin is low once its fall has been issued. -/
abbrev RunOk {cfg : Config} (d : Data cfg) : Prop :=
  instanceOk cfg d.active = true ∧ d.ie = false ∧ d.tcnt < cfg.tBit ∧ d.bytesLeft ≠ 0 ∧
  d.bytesLeft.toNat ≤ 3 * d.count.toNat ∧ OtherClear d ∧
  ∀ c ∈ d.active.chans, cfg.tLong + writeOffset cfg d.active c < d.tcnt → targetLevel d.active d c = false

/-- What holds in EXIT (R25, R93, R94, R143): every target pin is low. -/
abbrev ExitOk {cfg : Config} (d : Data cfg) : Prop :=
  instanceOk cfg d.active = true ∧ d.ie = false ∧ d.bytesLeft = 0 ∧ OtherClear d ∧
  ∀ c ∈ d.active.chans, targetLevel d.active d c = false

/-- The invariant of the machine. -/
abbrev Inv (s : State) : Prop :=
  s.cfg.wellBuilt = true ∧ Memory.wf s.cfg s.data.mem = true ∧ PortsExist s.data ∧
  (s.data.fsm = .entry → EntryOk s.data) ∧ (s.data.fsm = .run → RunOk s.data) ∧ (s.data.fsm = .exit → ExitOk s.data)

/-! ## The end of a frame (R36) -/

/-- Channel c at the end of a frame of the command that began with elements d. -/
abbrev ChanDone {cfg : Config} (d d' : Data cfg) (c : Chan) : Prop :=
  chanGet d'.cur c = byteAddr (chanGet d.ptr c) (3 * d.count.toNat + 1) ∧
  chanGet d'.sh c = memRead d (byteAddr (chanGet d.ptr c) (3 * d.count.toNat)) ∧
  chanGet d'.b c = (memRead d (byteAddr (chanGet d.ptr c) (3 * d.count.toNat - 1))).getLsbD 0

/-- Pin (p, b) is no target of the command. -/
abbrev NotTarget (cfg : Config) (i : Instr) (p b : Nat) : Prop := (⟨p, b⟩ : Desc) ∉ cfg.descs i

/-- What a frame leaves as it was: the elements of channels the command has not (R34), OTHER for EMIT1 and EMIT2 (R25), and
what is not the block's. -/
abbrev FrameKept (i : Instr) {cfg : Config} (d d' : Data cfg) : Prop :=
  (∀ c : Chan, i.nch ≤ c.val → chanGet d'.cur c = chanGet d.cur c ∧ chanGet d'.sh c = chanGet d.sh c ∧
    chanGet d'.b c = chanGet d.b c) ∧
  (i.sharedPort = false → d'.other = d.other) ∧ d'.host = d.host ∧ d'.resetIn = d.resetIn

/-- The end state of a frame (R36), the bits of PORT apart. -/
abbrev FrameDone (i : Instr) {cfg : Config} (d d' : Data cfg) : Prop :=
  d'.fsm = .idle ∧ d'.ie = d.ie ∧ d'.ieSaved = d.ie ∧ d'.bytesLeft = 0 ∧ d'.bitix = 0 ∧
  (∀ c ∈ i.chans, ChanDone d d' c) ∧ d'.ptr = d.ptr ∧ d'.count = d.count ∧ d'.mem = d.mem ∧
  d'.tcnt = 0 ∧ d'.ecnt.toNat = i.nch

/-! ## What an observer sees (R86) -/

/-- The block's port writes in a trace, each with its cycle. -/
def portWrites {cfg : Config} (tr : List (Timed cfg)) : List (Nat × PortAct cfg) :=
  tr.filterMap (fun e =>
    match e.event with
    | .out a => some (e.time, a)
    | .memRead _ _ _ => none
    | .ieWrite _ => none
    | .regRead _ _ => none
    | .hostPort _ _ => none)

/-- The block's memory reads for channel c in a trace: cycle, address, value. -/
def memReads {cfg : Config} (c : Chan) (tr : List (Timed cfg)) : List (Nat × BitVec cfg.addrW × Byte) :=
  tr.filterMap (fun e =>
    match e.event with
    | .memRead c' a v => if c' = c then some (e.time, a, v) else none
    | .out _ => none
    | .ieWrite _ => none
    | .regRead _ _ => none
    | .hostPort _ _ => none)

/-- The block's IE writes in a trace. -/
def ieWrites {cfg : Config} (tr : List (Timed cfg)) : List (Nat × Bool) :=
  tr.filterMap (fun e =>
    match e.event with
    | .ieWrite v => some (e.time, v)
    | .out _ => none
    | .memRead _ _ _ => none
    | .regRead _ _ => none
    | .hostPort _ _ => none)

/-- The start of window j of a frame accepted now: t0 + j×T_BIT (R91). -/
def windowStart (i : Instr) {cfg : Config} (d : Data cfg) (j : Nat) : Nat := firstRise i d + j * cfg.tBit

/-- The three writes to channel c's pin in every window of a frame accepted now (R90, R64). -/
def pinSchedule (i : Instr) {cfg : Config} (d : Data cfg) (c : Chan) : List (Nat × Bool) :=
  (List.range (24 * d.count.toNat)).flatMap (fun j =>
    [(windowStart i d j + writeOffset cfg i c, true),
     (windowStart i d j + cfg.tShort + writeOffset cfg i c, windowBit d c j),
     (windowStart i d j + cfg.tLong + writeOffset cfg i c, false)])

/-- The reads of channel c in a frame accepted now: k = 0 in ENTRY, and k + 1 in the eighth window of byte k, at window
cycle 1 + c (R46, R47). -/
def readSchedule (i : Instr) {cfg : Config} (d : Data cfg) (c : Chan) : List (Nat × BitVec cfg.addrW × Byte) :=
  (d.now + 1 + c.val, chanGet d.ptr c, memRead d (chanGet d.ptr c)) ::
  (List.range (3 * d.count.toNat)).map (fun k =>
    (windowStart i d (8 * k + 7) + 1 + c.val, byteAddr (chanGet d.ptr c) (k + 1),
     memRead d (byteAddr (chanGet d.ptr c) (k + 1))))

/-- OTHER of a frame accepted now (R25). -/
def frameOther (i : Instr) {cfg : Config} (d : Data cfg) : BitVec cfg.portW :=
  sampleOther (portGet d.ports (sharedPortId (cfg.descs i))) (cfg.descs i)

/-- PAT(j) of a frame accepted now (R68). -/
def framePat (i : Instr) {cfg : Config} (d : Data cfg) (j : Nat) : BitVec cfg.portW :=
  snapPat (frameOther i d) ((cfg.descs i).zip (i.chans.map (fun c => windowBit d c j)))

/-- The three PortWrites of every window of a frame of EMIT3 or EMIT4 accepted now (R90, R121). -/
def sharedSchedule (i : Instr) {cfg : Config} (d : Data cfg) : List (Nat × PortAct cfg) :=
  (List.range (24 * d.count.toNat)).flatMap (fun j =>
    [(windowStart i d j, .portWrite (sharedPortId (cfg.descs i)) (snapHi (frameOther i d) (cfg.descs i))),
     (windowStart i d j + cfg.tShort, .portWrite (sharedPortId (cfg.descs i)) (framePat i d j)),
     (windowStart i d j + cfg.tLong, .portWrite (sharedPortId (cfg.descs i)) (snapLo (frameOther i d)))])

/-- An event with every data value taken out of it: what is left is its kind, its place and, for a read, its address.
Two frames whose events agree in this have the same timing (R83). -/
def eventShape {cfg : Config} : Event cfg → Event cfg
  | .out (.pinWrite p b _) => .out (.pinWrite p b false)
  | .out (.portWrite p _) => .out (.portWrite p 0)
  | .memRead c a _ => .memRead c a 0
  | .ieWrite v => .ieWrite v
  | .regRead n v => .regRead n v
  | .hostPort p v => .hostPort p v

/-- The shape of a trace: when each event was issued and its shape. -/
def traceShape {cfg : Config} (tr : List (Timed cfg)) : List (Nat × Event cfg) :=
  tr.map (fun e => (e.time, eventShape e.event))

/-! ## The latch gap (R67, R167) -/

/-- Pin (p, b) has been low for at least T_LATCH cycles before a rise issued at cycle t: it is low, and every pulse of
the trace was over T_LATCH cycles before t. A pin with no pulse in the trace counts as low for long enough: how long it
was low before the trace began is left open (S6, N20; DESIGN CHOICE, log entry 18). A premise of reception only; the
block neither waits nor checks. -/
def latchGapKept {cfg : Config} (d : Data cfg) (p b t : Nat) : Bool :=
  !pinLevel d.ports p b && (pulsesOn p b d.trace).all (fun q => q.2 + cfg.tLatch ≤ t)

end Sys2Proof.Safety
end

