-- ==== Sys2Proof/Certificates/Slice0/Obligations.lean ====
section
/-! DEFINITION. The statements for the provers. Each docstring names the rules of spec/ it formalises. -/

open Sys2Proof Sys2Proof.Machine Sys2Proof.Safety

/-! ## The command word and the assembler -/

/-- R60, R70 and the table 2.1 of 95_test_vectors.md: words written out from the encoding. -/
def Obligations.CommandWordsDecode : Prop :=
  decode [0b00000000#8] = .command .emit1 [] ∧ decode [0b00000001#8] = .command .emit2 [] ∧
  decode [0b00000010#8] = .command .emit3 [] ∧ decode [0b00000011#8] = .command .emit4 [] ∧
  decode [0x04#8] = .reserved 0x04#8 ∧ decode [0x80#8] = .reserved 0x80#8 ∧
  decode [0x43#8] = .reserved 0x43#8 ∧ decode [0xFF#8] = .reserved 0xFF#8

/-- R77, the whole map: four commands, one byte each, 0x00 to 0x03 in order of channel count, 0x04 to 0xFF reserved,
nothing else decodable. -/
def Obligations.WholeOpcodeMap : Prop :=
  (∀ (w : Byte) (rest : List Byte), decode (w :: rest) =
    if w = 0x00#8 then .command .emit1 rest else if w = 0x01#8 then .command .emit2 rest
    else if w = 0x02#8 then .command .emit3 rest else if w = 0x03#8 then .command .emit4 rest else .reserved w) ∧
  decode [] = .noWord ∧ ∀ i : Instr, (encodeWord i).toNat + 1 = i.nch

/-- Decode and encode agree: the bytes of a command, whatever follows them, decode to the command (R60). -/
def Obligations.DecodeOfEncode : Prop :=
  ∀ (i : Instr) (rest : List Byte), decode (encode i ++ rest) = .command i rest

/-- R74 and R75: a line with the instance's descriptors, its command written or left to the pseudo-instruction EMIT,
assembles to writes that load COUNT and PTR[0..NCH-1] and then write the command word. Run in IDLE they take NCH + 1
cycles, change nothing else, and leave the command's write as the host's next operation. -/
def Obligations.AssembledLineLoadsOperands : Prop :=
  ∀ (cfg : Config) (d : Data cfg) (i : Instr) (command : Option Instr) (ptrs : List Nat) (count : Nat)
    (rest ops : List HostOp),
    cfg.wellBuilt = true → d.fsm = .idle → NoResetFor (i.nch + 1) d → command = none ∨ command = some i →
    ptrs.length = i.nch → (∀ p ∈ ptrs, p < 2 ^ cfg.addrW) → count < 2 ^ cfg.countW →
    assemble cfg (.emit command (cfg.descs i) ptrs count) = .ops ops → d.host = ops ++ rest →
    ∃ q : Chans (BitVec cfg.addrW),
      Host.Core.run core (i.nch + 1) ⟨cfg, d⟩ = .next ⟨cfg, { d with
        count := BitVec.ofNat cfg.countW count
        ptr := q
        host := .writeReg 0 (encodeWord i).toNat :: rest
        resetIn := d.resetIn.drop (i.nch + 1)
        now := d.now + (i.nch + 1) }⟩ ∧
      ∀ c : Chan, chanGet q c =
        if c.val < i.nch then BitVec.ofNat cfg.addrW (ptrs.getD c.val 0) else chanGet d.ptr c

/-- R74, the directive IDLE: the line lets that many cycles pass with the block in IDLE, and changes nothing. -/
def Obligations.IdleDirectiveLetsCyclesPass : Prop :=
  ∀ (cfg : Config) (n : Nat), ∃ ops, assemble cfg (.idle n) = .ops ops ∧
    ∀ (d : Data cfg) (rest : List HostOp), cfg.wellBuilt = true → d.fsm = .idle → NoResetFor n d →
      d.host = ops ++ rest →
      ∀ k, k ≤ n → Host.Core.run core k ⟨cfg, d⟩ = .next ⟨cfg, { d with
        host := ops.drop k ++ rest, resetIn := d.resetIn.drop k, now := d.now + k }⟩

/-! ## Reset, IDLE and the host's registers -/

/-- R160, R14: reset puts the sequencer in IDLE, so BUSY = 0 and STATUS = 0x00, from every state. -/
def Obligations.ResetLeavesIdle : Prop :=
  State.reset.data.fsm = .idle ∧ status State.reset.data = 0x00#8 ∧
  ∀ (cfg : Config) (d : Data cfg), (resetCycle d).fsm = .idle ∧ busy (resetCycle d) = false ∧
    status (resetCycle d) = 0x00#8

/-- R163 and R162: reset applied in any state, a frame in progress among them, abandons the frame: FSM is IDLE, no
write is issued in that cycle, and PORT, IE and M keep their values; in a frame of a state of the invariant that value
of IE is 0 and is not restored. With FSM = IDLE no later cycle belongs to the abandoned frame. -/
def Obligations.ResetAbandonsFrame : Prop :=
  ∀ (cfg : Config) (d : Data cfg) (rest : List Bool), cfg.wellBuilt = true → d.resetIn = true :: rest →
    ∃ d' : Data cfg, step ⟨cfg, d⟩ = .next ⟨cfg, d'⟩ ∧ d'.fsm = .idle ∧ d'.ports = d.ports ∧ d'.ie = d.ie ∧
      d'.mem = d.mem ∧ d'.trace = d.trace ∧ d'.host = d.host ∧ d'.resetIn = rest ∧
      (Inv ⟨cfg, d⟩ → d.fsm ≠ .idle → d'.ie = false)

/-- R156: in IDLE, when the host has nothing to do or lets a cycle pass, the block does nothing and keeps every element;
only the clock moves. -/
def Obligations.IdleKeepsEverything : Prop :=
  ∀ (cfg : Config) (d : Data cfg), HostTurn d → d.host.head? = none ∨ d.host.head? = some .idle →
    step ⟨cfg, d⟩ = .next ⟨cfg, { d with host := d.host.tail, resetIn := d.resetIn.tail, now := d.now + 1 }⟩

/-- R12 and R13: in IDLE a host write of COUNT or PTR[c] sets that register, a read gives it back, and nothing else
changes. -/
def Obligations.OperandRegistersWriteAndRead : Prop :=
  ∀ (cfg : Config) (d : Data cfg) (rest : List HostOp), HostTurn d →
    (∀ v, v < 2 ^ cfg.countW → d.host = .writeReg 2 v :: rest →
      ∃ d' : Data cfg, step ⟨cfg, d⟩ = .next ⟨cfg, d'⟩ ∧ regValue d' 2 = some v ∧
        d' = { d with count := BitVec.ofNat cfg.countW v, host := rest, resetIn := d.resetIn.tail, now := d.now + 1 }) ∧
    (∀ (c : Chan) (v : Nat), v < 2 ^ cfg.addrW → d.host = .writeReg (4 + c.val) v :: rest →
      ∃ d' : Data cfg, step ⟨cfg, d⟩ = .next ⟨cfg, d'⟩ ∧ regValue d' (4 + c.val) = some v ∧
        (∀ c' : Chan, c' ≠ c → chanGet d'.ptr c' = chanGet d.ptr c') ∧
        d' = { d with ptr := d'.ptr, host := rest, resetIn := d.resetIn.tail, now := d.now + 1 })

/-- R12, R13, R14: in IDLE a host read of STATUS, COUNT or PTR[c] gives the register's value to the observer and
changes nothing else; STATUS reads 0. -/
def Obligations.HostReadsRegisters : Prop :=
  ∀ (cfg : Config) (d : Data cfg) (rest : List HostOp) (n : Nat), HostTurn d →
    d.host = .readReg n :: rest → n = 1 ∨ n = 2 ∨ (4 ≤ n ∧ n ≤ 7) →
    ∃ v, regValue d n = some v ∧ (n = 1 → v = 0) ∧ (n = 2 → v = d.count.toNat) ∧
      (∀ c : Chan, n = 4 + c.val → v = (chanGet d.ptr c).toNat) ∧
      step ⟨cfg, d⟩ = .next ⟨cfg, { d with
        host := rest, resetIn := d.resetIn.tail, now := d.now + 1
        trace := d.trace ++ [⟨d.now, .regRead n v⟩] }⟩

/-- R26, R27: between frames the host may set IE and write an output latch; each changes that element alone (in one
cycle of IDLE: log entry 7). -/
def Obligations.HostWritesPortAndEnable : Prop :=
  ∀ (cfg : Config) (d : Data cfg) (rest : List HostOp), HostTurn d →
    (∀ v, d.host = .setIE v :: rest →
      step ⟨cfg, d⟩ = .next ⟨cfg, { d with ie := v, host := rest, resetIn := d.resetIn.tail, now := d.now + 1 }⟩) ∧
    ∀ p v, p < cfg.nports → v < 2 ^ cfg.portW → d.host = .setPort p v :: rest →
      ∃ d' : Data cfg, step ⟨cfg, d⟩ = .next ⟨cfg, d'⟩ ∧
        (p < d.ports.length → (portGet d'.ports p).toNat = v) ∧ (∀ q, q ≠ p → portGet d'.ports q = portGet d.ports q) ∧
        d' = { d with ports := d'.ports, host := rest, resetIn := d.resetIn.tail, now := d.now + 1
                      trace := d.trace ++ [⟨d.now, .hostPort p (BitVec.ofNat cfg.portW v)⟩] }

/-- R11 and S14: a step in which the host reads CMD or writes STATUS is refused; so is one in which it reads or writes a
register the map does not list. -/
def Obligations.ForbiddenRegisterAccesses : Prop :=
  ∀ (cfg : Config) (d : Data cfg) (rest : List HostOp), HostTurn d →
    (d.host = .readReg 0 :: rest → step ⟨cfg, d⟩ = .refused .readOfCmd) ∧
    (∀ v, d.host = .writeReg 1 v :: rest → step ⟨cfg, d⟩ = .refused .writeOfStatus) ∧
    ∀ n, n = 3 ∨ 8 ≤ n →
      (d.host = .readReg n :: rest → step ⟨cfg, d⟩ = .refused (.noSuchRegister n)) ∧
      ∀ v, d.host = .writeReg n v :: rest → step ⟨cfg, d⟩ = .refused (.noSuchRegister n)

/-- R14: bit 0 of STATUS is 1 exactly while FSM ≠ IDLE, the other bits are 0, and while it is 1 the host is held: its
next operations are still there after the step. -/
def Obligations.StatusAndHeldHost : Prop :=
  ∀ (cfg : Config) (d : Data cfg),
    (status d).getLsbD 0 = decide (d.fsm ≠ .idle) ∧ (∀ k, 1 ≤ k → (status d).getLsbD k = false) ∧
    ∀ t : State, d.fsm ≠ .idle → step ⟨cfg, d⟩ = .next t → t.data.host = d.host

/-- R41 with the host's store (R50, R56 (a)): in canonical memory the byte stored is the byte read, every other address
reads as before, and the form is kept. -/
def Obligations.StoredByteIsRead : Prop :=
  ∀ (cfg : Config) (d : Data cfg) (a : BitVec cfg.addrW) (v : Byte) (rest : List HostOp),
    HostTurn d → d.host = .store a.toNat v :: rest → Memory.wf cfg d.mem = true →
    readRefusal cfg a.toNat = none →
    ∃ d' : Data cfg, step ⟨cfg, d⟩ = .next ⟨cfg, d'⟩ ∧ memRead d' a = v ∧ Memory.wf cfg d'.mem = true ∧
      (∀ a' : BitVec cfg.addrW, a' ≠ a → memRead d' a' = memRead d a') ∧
      d' = { d with mem := d'.mem, host := rest, resetIn := d.resetIn.tail, now := d.now + 1 }

/-- R42: the block never writes pixel memory. No cycle of a command changes it, and a step changes it only where the
host, in IDLE, stores. -/
def Obligations.BlockNeverWritesMemory : Prop :=
  (∀ (i : Instr) (s t : State), exec i s = .next t → t.data.mem = s.data.mem) ∧
  ∀ s t : State, step s = .next t →
    t.data.mem = s.data.mem ∨ (s.data.fsm = .idle ∧ ∃ a v rest, s.data.host = .store a v :: rest)

/-! ## Port writes and snapshots -/

/-- R52: PinWrite sets one bit and keeps all others; writing the level a pin has changes nothing; writes to different
pins both take effect, in either order; EMIT1 and EMIT2 write by it alone; and no command issues two writes to one pin
in one cycle. -/
def Obligations.PinWriteOneBit : Prop :=
  (∀ (w : Nat) (ports : List (BitVec w)) (p b : Nat) (level : Bool), p < ports.length → b < w →
    (∀ q k, pinLevel (pinWrite ports p b level) q k = if q = p ∧ k = b then level else pinLevel ports q k) ∧
    pinWrite ports p b (pinLevel ports p b) = ports ∧
    ∀ (q k : Nat) (level' : Bool), (q, k) ≠ (p, b) →
      pinWrite (pinWrite ports p b level) q k level' = pinWrite (pinWrite ports q k level') p b level) ∧
  ∀ (i : Instr) (cfg : Config) (d : Data cfg), instanceOk cfg i = true →
    (i.sharedPort = false → ∀ a ∈ commandActs i d, ∃ p b l, a = .pinWrite p b l) ∧
    ∀ p b l l', [PortAct.pinWrite p b l, PortAct.pinWrite p b l'].Sublist (commandActs i d) → False

/-- R53: PortWrite replaces all bits of its port and no other; EMIT3 and EMIT4 write only their shared port, only LO, HI
or PAT of the current OTHER and B. -/
def Obligations.PortWriteWholeRegister : Prop :=
  (∀ (w : Nat) (ports : List (BitVec w)) (p : Nat) (v : BitVec w), p < ports.length →
    ∀ q, portGet (portWrite ports p v) q = if q = p then v else portGet ports q) ∧
  ∀ (i : Instr) (cfg : Config) (d : Data cfg), i.sharedPort = true → ∀ a ∈ commandActs i d,
    ∃ v, a = .portWrite (sharedPortId (cfg.descs i)) v ∧
      (v = snapLo d.other ∨ v = snapHi d.other (cfg.descs i) ∨
        v = snapPat d.other ((cfg.descs i).zip (i.chans.map (chanGet d.b))))

/-- R123 (for EMIT4 through R133): lane c of PAT is bit b_c, it is 1 exactly if channel c's bit is 1 whatever the other
channels' bits are, and the bits outside MASK are OTHER's, which are the sampled port's (R25). -/
def Obligations.PatLanes : Prop :=
  ∀ (i : Instr) (cfg : Config) (port : BitVec cfg.portW) (bits : Chan → Bool), i.sharedPort = true →
    cfg.descsLegal i = true →
    let other := sampleOther port (cfg.descs i)
    let pat := snapPat other ((cfg.descs i).zip (i.chans.map bits))
    (∀ c ∈ i.chans, pat.getLsbD (chanDesc cfg i c).bit = bits c) ∧
    ∀ k, (mask cfg.portW (cfg.descs i)).getLsbD k = false →
      pat.getLsbD k = other.getLsbD k ∧ other.getLsbD k = port.getLsbD k

/-- R25 and R68: LO has every target bit 0, HI has every target bit 1, and both carry the sampled port elsewhere. -/
def Obligations.LoAndHiSnapshots : Prop :=
  ∀ (i : Instr) (cfg : Config) (port : BitVec cfg.portW), i.sharedPort = true → cfg.descsLegal i = true →
    let other := sampleOther port (cfg.descs i)
    (∀ c ∈ i.chans, (snapLo other).getLsbD (chanDesc cfg i c).bit = false ∧
      (snapHi other (cfg.descs i)).getLsbD (chanDesc cfg i c).bit = true) ∧
    ∀ k, (mask cfg.portW (cfg.descs i)).getLsbD k = false →
      (snapLo other).getLsbD k = port.getLsbD k ∧ (snapHi other (cfg.descs i)).getLsbD k = port.getLsbD k

/-- R17: after m shifts of a byte d, 0 ≤ m ≤ 7, SH = (d << m)[7:0] and the bit to send is d[7-m]. -/
def Obligations.ShiftExposesNextBit : Prop :=
  ∀ (v : Byte) (m : Nat), m ≤ 7 → (shiftByte^[m]) v = v <<< m ∧ topBit ((shiftByte^[m]) v) = v.getLsbD (7 - m)

/-- R22 and R69: BYTES_LEFT at accept is 3 × COUNT, without overflow. -/
def Obligations.ByteCountNeverOverflows : Prop :=
  ∀ (cfg : Config) (count : BitVec cfg.countW), (byteCount (cfg := cfg) count).toNat = 3 * count.toNat

/-! ## One cycle of a command -/

/-- R87 and R100: EMIT1 on a ready state completes its accept cycle with exactly these changes. -/
def Obligations.Emit1Accepts : Prop :=
  ∀ (cfg : Config) (d : Data cfg), LaunchReady .emit1 d →
    exec .emit1 ⟨cfg, d⟩ = .next ⟨cfg, { d with
      ieSaved := d.ie, ie := false, active := .emit1, ecnt := 0, bitix := 0, fsm := .entry
      cur := { d.cur with c0 := d.ptr.c0 }
      bytesLeft := BitVec.ofNat (cfg.countW + 2) (3 * d.count.toNat)
      now := d.now + 1, trace := d.trace ++ [⟨d.now, .ieWrite false⟩] }⟩

/-- R87 and R110: EMIT2 on a ready state completes its accept cycle with exactly these changes. -/
def Obligations.Emit2Accepts : Prop :=
  ∀ (cfg : Config) (d : Data cfg), LaunchReady .emit2 d →
    exec .emit2 ⟨cfg, d⟩ = .next ⟨cfg, { d with
      ieSaved := d.ie, ie := false, active := .emit2, ecnt := 0, bitix := 0, fsm := .entry
      cur := { d.cur with c0 := d.ptr.c0, c1 := d.ptr.c1 }
      bytesLeft := BitVec.ofNat (cfg.countW + 2) (3 * d.count.toNat)
      now := d.now + 1, trace := d.trace ++ [⟨d.now, .ieWrite false⟩] }⟩

/-- R87 and R120: EMIT3 on a ready state completes its accept cycle with exactly these changes; OTHER is sampled from
the shared port. -/
def Obligations.Emit3Accepts : Prop :=
  ∀ (cfg : Config) (d : Data cfg), LaunchReady .emit3 d →
    exec .emit3 ⟨cfg, d⟩ = .next ⟨cfg, { d with
      ieSaved := d.ie, ie := false, active := .emit3, ecnt := 0, bitix := 0, fsm := .entry
      cur := { d.cur with c0 := d.ptr.c0, c1 := d.ptr.c1, c2 := d.ptr.c2 }
      other := portGet d.ports cfg.desc3.1.port &&&
        ~~~(BitVec.twoPow cfg.portW cfg.desc3.1.bit ||| BitVec.twoPow cfg.portW cfg.desc3.2.1.bit |||
          BitVec.twoPow cfg.portW cfg.desc3.2.2.bit)
      bytesLeft := BitVec.ofNat (cfg.countW + 2) (3 * d.count.toNat)
      now := d.now + 1, trace := d.trace ++ [⟨d.now, .ieWrite false⟩] }⟩

/-- R87 and R130: EMIT4 on a ready state completes its accept cycle with exactly these changes; OTHER is sampled from
the shared port. -/
def Obligations.Emit4Accepts : Prop :=
  ∀ (cfg : Config) (d : Data cfg), LaunchReady .emit4 d →
    exec .emit4 ⟨cfg, d⟩ = .next ⟨cfg, { d with
      ieSaved := d.ie, ie := false, active := .emit4, ecnt := 0, bitix := 0, fsm := .entry
      cur := d.ptr
      other := portGet d.ports cfg.desc4.1.port &&&
        ~~~(BitVec.twoPow cfg.portW cfg.desc4.1.bit ||| BitVec.twoPow cfg.portW cfg.desc4.2.1.bit |||
          BitVec.twoPow cfg.portW cfg.desc4.2.2.1.bit ||| BitVec.twoPow cfg.portW cfg.desc4.2.2.2.bit)
      bytesLeft := BitVec.ofNat (cfg.countW + 2) (3 * d.count.toNat)
      now := d.now + 1, trace := d.trace ++ [⟨d.now, .ieWrite false⟩] }⟩

/-- R88: a cycle of ENTRY of any command fetches channel ECNT, moves its cursor on and counts it; after the last
channel RUN begins at window cycle 0. -/
def Obligations.EntryCycleFetches : Prop :=
  ∀ (i : Instr) (cfg : Config) (d : Data cfg) (c : Chan), instanceOk cfg i = true → d.fsm = .entry → d.active = i →
    d.ecnt.toNat = c.val → c.val < i.nch → readRefusal cfg (chanGet d.cur c).toNat = none →
    exec i ⟨cfg, d⟩ = .next ⟨cfg, { d with
      sh := chanSet d.sh c (memRead d (chanGet d.cur c))
      cur := chanSet d.cur c (chanGet d.cur c + 1)
      ecnt := d.ecnt + 1
      fsm := if c.val + 1 = i.nch then .run else .entry
      tcnt := if c.val + 1 = i.nch then 0 else d.tcnt
      now := d.now + 1
      trace := d.trace ++ [⟨d.now, .memRead c (chanGet d.cur c) (memRead d (chanGet d.cur c))⟩] }⟩

/-- R91, the elements: a cycle of RUN of any command answers a next state, in which TCNT, BITIX, BYTES_LEFT, FSM, B, SH
and CUR are as the table gives them and nothing outside the ports and these changes. -/
def Obligations.RunCycleSchedule : Prop :=
  ∀ (i : Instr) (cfg : Config) (d : Data cfg), instanceOk cfg i = true → d.fsm = .run → d.active = i →
    d.tcnt < cfg.tBit → d.bytesLeft ≠ 0 →
    (∀ c ∈ i.chans, d.bitix = 7 → d.tcnt = 1 + c.val → readRefusal cfg (chanGet d.cur c).toNat = none) →
    ∃ d' : Data cfg, exec i ⟨cfg, d⟩ = .next ⟨cfg, d'⟩ ∧
      d'.tcnt = (d.tcnt + 1) % cfg.tBit ∧
      d'.bitix = (if d.tcnt = cfg.tBit - 1 then d.bitix + 1 else d.bitix) ∧
      d'.bytesLeft = (if d.tcnt = cfg.tBit - 1 ∧ d.bitix = 7 then d.bytesLeft - 1 else d.bytesLeft) ∧
      d'.fsm = (if d.tcnt = cfg.tBit - 1 ∧ d.bitix = 7 ∧ d.bytesLeft = 1 then .exit else .run) ∧
      (∀ c ∈ i.chans,
        chanGet d'.b c = (if d.tcnt = 0 then (chanGet d.sh c).getLsbD 7 else chanGet d.b c) ∧
        chanGet d'.sh c = (if d.bitix = 7 ∧ d.tcnt = 1 + c.val then memRead d (chanGet d.cur c)
          else if d.tcnt = cfg.tBit - 1 ∧ d.bitix ≠ 7 then chanGet d.sh c <<< 1 else chanGet d.sh c) ∧
        chanGet d'.cur c = (if d.bitix = 7 ∧ d.tcnt = 1 + c.val then chanGet d.cur c + 1 else chanGet d.cur c)) ∧
      d'.ports = applyActs d.ports (commandActs i d) ∧
      d' = { d with tcnt := d'.tcnt, bitix := d'.bitix, bytesLeft := d'.bytesLeft, fsm := d'.fsm, b := d'.b,
                    sh := d'.sh, cur := d'.cur, ports := d'.ports, now := d.now + 1, trace := d'.trace }

/-- R90, the writes of a cycle of RUN, from the schedule: EMIT1 and EMIT2 make one PinWrite per channel and transition,
EMIT3 and EMIT4 one PortWrite per transition. -/
def Obligations.WritesOfOneCycle : Prop :=
  ∀ (cfg : Config) (d : Data cfg) (a : PortAct cfg),
    (∀ i : Instr, i.sharedPort = false → (a ∈ commandActs i d ↔
      ∃ c ∈ i.chans, ∃ level, a = .pinWrite (chanDesc cfg i c).port (chanDesc cfg i c).bit level ∧
        ((d.tcnt = writeOffset cfg i c ∧ level = true) ∨
         (d.tcnt = cfg.tShort + writeOffset cfg i c ∧ level = chanGet d.b c) ∨
         (d.tcnt = cfg.tLong + writeOffset cfg i c ∧ level = false)))) ∧
    ∀ i : Instr, i.sharedPort = true → (a ∈ commandActs i d ↔
      ∃ v, a = .portWrite (sharedPortId (cfg.descs i)) v ∧
        ((d.tcnt = 0 ∧ v = snapHi d.other (cfg.descs i)) ∨
         (d.tcnt = cfg.tShort ∧ v = snapPat d.other ((cfg.descs i).zip (i.chans.map (chanGet d.b)))) ∨
         (d.tcnt = cfg.tLong ∧ v = snapLo d.other)))

/-- R95 and R144: the EXIT cycle of any command restores IE to IE_SAVED, makes FSM IDLE, and writes no pin. -/
def Obligations.ExitRestoresInterrupts : Prop :=
  ∀ (i : Instr) (cfg : Config) (d : Data cfg), instanceOk cfg i = true → d.fsm = .exit → d.active = i →
    exec i ⟨cfg, d⟩ = .next ⟨cfg, { d with
      ie := d.ieSaved, fsm := .idle, now := d.now + 1, trace := d.trace ++ [⟨d.now, .ieWrite d.ieSaved⟩] }⟩

/-! ## What a cycle leaves unchanged -/

/-- The frame of all four commands: no cycle changes the instance, PTR, COUNT, any byte of memory, or the elements of
CUR, SH and B of channels at or above NCH; IE and IE_SAVED change only in the accept cycle and IE in EXIT; OTHER
changes only in the accept cycle of EMIT3 and EMIT4. -/
def Obligations.CommandCycleFrame : Prop :=
  ∀ (i : Instr) (cfg : Config) (d : Data cfg) (t : State), exec i ⟨cfg, d⟩ = .next t →
    ∃ d' : Data cfg, t = ⟨cfg, d'⟩ ∧ d'.ptr = d.ptr ∧ d'.count = d.count ∧
      (∀ a : BitVec cfg.addrW, memRead d' a = memRead d a) ∧
      (∀ c : Chan, i.nch ≤ c.val → chanGet d'.cur c = chanGet d.cur c ∧ chanGet d'.sh c = chanGet d.sh c ∧
        chanGet d'.b c = chanGet d.b c) ∧
      (d.fsm ≠ .idle → d'.ieSaved = d.ieSaved) ∧ (d.fsm ≠ .idle → d.fsm ≠ .exit → d'.ie = d.ie) ∧
      (d.fsm ≠ .idle → d'.active = d.active) ∧ (d.fsm ≠ .idle → d'.other = d.other) ∧ (i.sharedPort = false → d'.other = d.other) ∧
      (d.fsm ≠ .run → d'.ports = d.ports) ∧ d'.host = d.host ∧ d'.resetIn = d.resetIn

/-- R101 and R112: a cycle of EMIT1 or EMIT2 leaves every pin that is not one of its targets as it was. -/
def Obligations.PinCommandsTouchOnlyTargets : Prop :=
  ∀ (i : Instr) (cfg : Config) (d d' : Data cfg), i.sharedPort = false → exec i ⟨cfg, d⟩ = .next ⟨cfg, d'⟩ →
    ∀ p b, NotTarget cfg i p b → pinLevel d'.ports p b = pinLevel d.ports p b

/-- R121: a cycle of EMIT3 or EMIT4 leaves every port but its shared one as it was, and that one too unless the cycle
is the rise, the data write or the fall of a window. -/
def Obligations.SharedCommandsTouchOnePort : Prop :=
  ∀ (i : Instr) (cfg : Config) (d d' : Data cfg), i.sharedPort = true → exec i ⟨cfg, d⟩ = .next ⟨cfg, d'⟩ →
    (∀ p, p ≠ sharedPortId (cfg.descs i) → portGet d'.ports p = portGet d.ports p) ∧
    (d.tcnt ≠ 0 → d.tcnt ≠ cfg.tShort → d.tcnt ≠ cfg.tLong → d'.ports = d.ports)

/-! ## The step -/

/-- R11: in IDLE, in a cycle in which reset is not applied, a host write of a word that decodes to a command runs that
command. -/
def Obligations.StepRunsDecodedCommand : Prop :=
  ∀ (cfg : Config) (d : Data cfg) (w : Byte) (i : Instr) (rest : List HostOp), d.fsm = .idle →
    resetApplied d = false → d.host = .writeReg 0 w.toNat :: rest → decode [w] = .command i [] →
    step ⟨cfg, d⟩ = exec i ⟨cfg, { d with host := rest, resetIn := d.resetIn.tail }⟩

/-- R97 and R14: while a frame is in progress a step in which reset is not applied is one cycle of the running command,
whatever the host wants. -/
def Obligations.BusyStepRunsActiveCommand : Prop :=
  ∀ (cfg : Config) (d : Data cfg), d.fsm ≠ .idle → resetApplied d = false →
    step ⟨cfg, d⟩ = exec d.active ⟨cfg, { d with resetIn := d.resetIn.tail }⟩

/-- R97: in every state of the invariant with a frame in progress and readable memory a step in which reset is not applied
answers a next state: nothing blocks, waits or cancels a frame. -/
def Obligations.FrameNeverBlocks : Prop :=
  ∀ (cfg : Config) (d : Data cfg), Inv ⟨cfg, d⟩ → d.fsm ≠ .idle → resetApplied d = false →
    (∀ a : BitVec cfg.addrW, readRefusal cfg a.toNat = none) → ∃ t, step ⟨cfg, d⟩ = .next t

/-- R70 with S7: a host write of a reserved word to CMD launches nothing and is refused. -/
def Obligations.ReservedWordRefused : Prop :=
  ∀ (cfg : Config) (d : Data cfg) (w : Byte) (rest : List HostOp), HostTurn d →
    d.host = .writeReg 0 w.toNat :: rest → w.extractLsb' 2 6 ≠ 0#6 → step ⟨cfg, d⟩ = .refused (.reservedCommand w)

/-- R71 with U2: a launch with COUNT = 0 is refused by every command. -/
def Obligations.ZeroCountRefused : Prop :=
  ∀ (i : Instr) (cfg : Config) (d : Data cfg), instanceOk cfg i = true → d.fsm = .idle → d.count = 0 →
    exec i ⟨cfg, d⟩ = .refused .zeroCount

/-- U1, U3 and S16: a launch whose read set holds an address that is not plain memory is refused, by a name that says
which address of the read set and why: the map has it absent, or a device's. -/
def Obligations.BadReadSetRefused : Prop :=
  ∀ (i : Instr) (cfg : Config) (d : Data cfg) (c : Chan) (k : Nat), instanceOk cfg i = true → d.fsm = .idle →
    d.count ≠ 0 → c ∈ i.chans → k ≤ 3 * d.count.toNat →
    readRefusal cfg (byteAddr (chanGet d.ptr c) k).toNat ≠ none →
    ∃ a ∈ readSet i d, ∃ r, readRefusal cfg a.toNat = some r ∧ exec i ⟨cfg, d⟩ = .refused r ∧
      ((regionKind a.toNat cfg.regions = .absent ∧ r = .unreadableBuffer a.toNat) ∨
       (regionKind a.toNat cfg.regions = .device ∧ r = .sideEffectBuffer a.toNat))

/-- R6, R72 and R174: an instance that breaks R72, or a constraint of R6 that binds it whole, cannot be built, and no step
and no command of it has a meaning, in any state; every other instance can. A command whose own constraint of R6 is
broken (T_BIT ≥ NCH + 2, and for EMIT2 SKEW2 < T_SHORT) has no meaning. -/
def Obligations.IllFormedInstanceRefused : Prop :=
  ∀ (cfg : Config),
    (State.build cfg = none ↔
      (cfg.tShort = 0 ∨ cfg.tLong ≤ cfg.tShort ∨ cfg.nports = 0 ∨
        (∃ j : Instr, ∃ x ∈ cfg.descs j, cfg.portW ≤ x.bit ∨ cfg.nports ≤ x.port) ∨
        (∃ j : Instr, ¬ (cfg.descs j).Nodup) ∨
        (∃ j : Instr, j.sharedPort = true ∧ ∃ x ∈ cfg.descs j, ∃ y ∈ cfg.descs j, x.port ≠ y.port))) ∧
    (State.build cfg = none → ∀ d : Data cfg, step ⟨cfg, d⟩ = .refused .illFormedInstance ∧
      ∀ i : Instr, exec i ⟨cfg, d⟩ = .refused .illFormedInstance) ∧
    (∀ s : State, State.build cfg = some s → s = ⟨cfg, Data.reset cfg⟩ ∧ s.data.fsm = .idle) ∧
    ∀ (i : Instr) (d : Data cfg), cfg.tShort + cfg.tLong < i.nch + 2 ∨ (i = .emit2 ∧ cfg.tShort ≤ cfg.skew2) →
      exec i ⟨cfg, d⟩ = .refused .illFormedInstance

/-- R70 and R173 with S10: while a frame is in progress no other command begins. -/
def Obligations.OtherCommandWhileBusyRefused : Prop :=
  ∀ (i : Instr) (cfg : Config) (d : Data cfg), instanceOk cfg i = true → d.fsm ≠ .idle → d.active ≠ i →
    exec i ⟨cfg, d⟩ = .refused .commandWhileBusy

/-! ## Invariants -/

/-- The invariant holds at reset. -/
def Obligations.InvariantAtReset : Prop := Inv State.reset

/-- Every step keeps the invariant: a well-built instance (R174), canonical memory, NPORTS registers, IE = 0 in a frame
(R143), the position tuple in its range, OTHER free of target bits in a frame (R25), and every target pin low once its
fall of the window has been issued and in EXIT (R94, R98). -/
def Obligations.StepKeepsInvariant : Prop := ∀ s t : State, Inv s → step s = .next t → Inv t

/-- R10 and R15: no step changes the instance's parameters. -/
def Obligations.StepKeepsInstance : Prop := ∀ s t : State, step s = .next t → t.cfg = s.cfg

/-! ## Whole frames -/

/-- R96, R97, R86 (d): every command on a ready state runs to its end: each of its NCH + 1 + 24×COUNT×T_BIT + 1 cycles
answers a next state, the block is busy from the cycle after accept to EXIT, and IDLE after the last. -/
def Obligations.FrameCompletes : Prop :=
  ∀ (i : Instr) (cfg : Config) (d : Data cfg), LaunchReady i d →
    ∃ f : Nat → Data cfg, f 0 = d ∧
      (∀ k, k < frameCycles i d → exec i ⟨cfg, f k⟩ = .next ⟨cfg, f (k + 1)⟩) ∧
      (∀ k, k ≤ frameCycles i d → execTimes i k ⟨cfg, d⟩ = .next ⟨cfg, f k⟩ ∧ (f k).now = d.now + k) ∧
      (∀ k, 1 ≤ k → k < frameCycles i d → busy (f k) = true ∧ (f k).active = i) ∧
      busy (f (frameCycles i d)) = false

/-- R36 and R98, the end state of a frame: FSM, IE, IE_SAVED, the counters, CUR, SH and B of every channel of the command,
PTR, COUNT and M as R36 gives them; every target pin low whatever it was before; every pin that is no target as it was;
PORT[P] = OTHER, the sample at accept, for EMIT3 and EMIT4; and OTHER for EMIT1 and EMIT2, CUR, SH and B of the channels
the command has not (R34), the host's operations and the reset input as they were. -/
def Obligations.FrameEndState : Prop :=
  ∀ (i : Instr) (cfg : Config) (d : Data cfg), LaunchReady i d → PortsExist d →
    ∃ d' : Data cfg, execTimes i (frameCycles i d) ⟨cfg, d⟩ = .next ⟨cfg, d'⟩ ∧ busy d' = false ∧
      FrameDone i d d' ∧ FrameKept i d d' ∧ d'.active = i ∧ d'.now = d.now + frameCycles i d ∧ PortsExist d' ∧
      (∀ c ∈ i.chans, targetLevel i d' c = false) ∧
      (∀ p b, NotTarget cfg i p b → pinLevel d'.ports p b = pinLevel d.ports p b) ∧
      (i.sharedPort = true → portGet d'.ports (sharedPortId (cfg.descs i)) = d'.other ∧ d'.other = frameOther i d)

/-- R98: after any frame all target pins are low, whatever level they had before. -/
def Obligations.PinsLowOnReturn : Prop :=
  ∀ (i : Instr) (cfg : Config) (d : Data cfg), LaunchReady i d →
    ∃ d' : Data cfg, execTimes i (frameCycles i d) ⟨cfg, d⟩ = .next ⟨cfg, d'⟩ ∧ d'.fsm = .idle ∧
      ∀ c ∈ i.chans, targetLevel i d' c = false

/-- R143: from the cycle after accept until the end of the EXIT cycle IE = 0; the interval is T_ENTRY + 24×COUNT×T_BIT
+ T_EXIT - 1 cycles long, NCH + 481 with P16 and COUNT = 1, which is 482 for EMIT1 and 485 for EMIT4. -/
def Obligations.FrameMasksInterrupts : Prop :=
  (∀ (i : Instr) (cfg : Config) (d : Data cfg) (k : Nat), LaunchReady i d → 1 ≤ k → k ≤ frameCycles i d - 1 →
    ∃ d' : Data cfg, execTimes i k ⟨cfg, d⟩ = .next ⟨cfg, d'⟩ ∧ d'.ie = false) ∧
  (∀ (i : Instr) (cfg : Config) (d : Data cfg),
    frameCycles i d - 1 = (i.nch + 1) + 24 * d.count.toNat * cfg.tBit + 1 - 1) ∧
  ∀ (i : Instr) (d : Data Config.p16), d.count = 1 → frameCycles i d - 1 = i.nch + 481 ∧
    (i = .emit1 → frameCycles i d - 1 = 482) ∧ (i = .emit4 → frameCycles i d - 1 = 485)

/-- R80 to R82, R90, R64: the writes to each target pin in a frame are exactly the rise, the data write and the fall of
windows 0 to 24×COUNT - 1, each in its cycle, and the data write carries the window's bit of the buffer. -/
def Obligations.FramePinWrites : Prop :=
  ∀ (i : Instr) (cfg : Config) (d : Data cfg), LaunchReady i d →
    ∃ (d' : Data cfg) (tr : List (Timed cfg)), execTimes i (frameCycles i d) ⟨cfg, d⟩ = .next ⟨cfg, d'⟩ ∧
      d'.trace = d.trace ++ tr ∧
      ∀ c ∈ i.chans, pinHistory (chanDesc cfg i c).port (chanDesc cfg i c).bit tr = pinSchedule i d c

/-- R121, R122, R68: the port writes of a frame of EMIT3 or EMIT4 are exactly three PortWrites a window to the shared
port: HI, PAT of the window's bits, LO. -/
def Obligations.FrameSharedPortWrites : Prop :=
  ∀ (i : Instr) (cfg : Config) (d : Data cfg), i.sharedPort = true → LaunchReady i d →
    ∃ (d' : Data cfg) (tr : List (Timed cfg)), execTimes i (frameCycles i d) ⟨cfg, d⟩ = .next ⟨cfg, d'⟩ ∧
      d'.trace = d.trace ++ tr ∧ portWrites tr = sharedSchedule i d

/-- R101 and R112: the port writes of a frame of EMIT1 or EMIT2 are PinWrites to its target pins, three per channel and
window. -/
def Obligations.FramePinWriteCount : Prop :=
  ∀ (i : Instr) (cfg : Config) (d : Data cfg), i.sharedPort = false → LaunchReady i d →
    ∃ (d' : Data cfg) (tr : List (Timed cfg)), execTimes i (frameCycles i d) ⟨cfg, d⟩ = .next ⟨cfg, d'⟩ ∧
      d'.trace = d.trace ++ tr ∧ (portWrites tr).length = 3 * i.nch * (24 * d.count.toNat) ∧
      ∀ e ∈ portWrites tr, ∃ c ∈ i.chans, ∃ level,
        e.2 = .pinWrite (chanDesc cfg i c).port (chanDesc cfg i c).bit level

/-- R46, R47, R48: the reads of each channel in a frame are exactly its 3×COUNT + 1 addresses in increasing order, each
once, in their cycles; no other channel is read. -/
def Obligations.FrameReads : Prop :=
  ∀ (i : Instr) (cfg : Config) (d : Data cfg), LaunchReady i d →
    ∃ (d' : Data cfg) (tr : List (Timed cfg)), execTimes i (frameCycles i d) ⟨cfg, d⟩ = .next ⟨cfg, d'⟩ ∧
      d'.trace = d.trace ++ tr ∧
      ∀ c : Chan, memReads c tr = if c ∈ i.chans then readSchedule i d c else []

/-- R142 and R144: a frame writes IE twice, 0 in the accept cycle whatever IE was, and in the EXIT cycle the value it had
before, which IE_SAVED holds; after the frame IE is what it was before. -/
def Obligations.FrameInterruptWrites : Prop :=
  ∀ (i : Instr) (cfg : Config) (d : Data cfg), LaunchReady i d →
    ∃ (d' : Data cfg) (tr : List (Timed cfg)), execTimes i (frameCycles i d) ⟨cfg, d⟩ = .next ⟨cfg, d'⟩ ∧
      d'.trace = d.trace ++ tr ∧ ieWrites tr = [(d.now, false), (d.now + frameCycles i d - 1, d.ie)] ∧
      d'.ieSaved = d.ie ∧ d'.ie = d.ie

/-- R76: a receiver on the pin of channel c, low before the frame, reads exactly the 3×COUNT bytes of its buffer, and
from them its COUNT pixels A, B, C. -/
def Obligations.FrameIsReceived : Prop :=
  ∀ (i : Instr) (cfg : Config) (d : Data cfg), LaunchReady i d →
    ∃ (d' : Data cfg) (tr : List (Timed cfg)), execTimes i (frameCycles i d) ⟨cfg, d⟩ = .next ⟨cfg, d'⟩ ∧
      d'.trace = d.trace ++ tr ∧ ∀ c ∈ i.chans, targetLevel i d c = false →
      receive (chanDesc cfg i c).port (chanDesc cfg i c).bit tr = some (frameBytes d c) ∧
      pixelsOfBytes (frameBytes d c) = some ((List.range d.count.toNat).map (fun m =>
        (memRead d (byteAddr (chanGet d.ptr c) (3 * m)), memRead d (byteAddr (chanGet d.ptr c) (3 * m + 1)),
         memRead d (byteAddr (chanGet d.ptr c) (3 * m + 2)))))

/-- R83: two frames of one command with the same operands and different memory have the same timing: the same kinds of
events, at the same places, in the same cycles. -/
def Obligations.TimingIndependentOfData : Prop :=
  ∀ (i : Instr) (cfg : Config) (d : Data cfg) (m : Memory), LaunchReady i d →
    ∃ (d1 d2 : Data cfg) (tr1 tr2 : List (Timed cfg)),
      execTimes i (frameCycles i d) ⟨cfg, d⟩ = .next ⟨cfg, d1⟩ ∧
      execTimes i (frameCycles i d) ⟨cfg, { d with mem := m }⟩ = .next ⟨cfg, d2⟩ ∧
      d1.trace = d.trace ++ tr1 ∧ d2.trace = d.trace ++ tr2 ∧ traceShape tr1 = traceShape tr2 ∧
      d1.now = d2.now

/-- R48: the over-read byte never reaches a pin: two memories that agree on the bytes of every channel's buffer give the
same port writes in the same cycles. -/
def Obligations.OverReadReachesNoPin : Prop :=
  ∀ (i : Instr) (cfg : Config) (d : Data cfg) (m : Memory), LaunchReady i d →
    (∀ c ∈ i.chans, frameBytes { d with mem := m } c = frameBytes d c) →
    ∃ (d1 d2 : Data cfg) (tr1 tr2 : List (Timed cfg)),
      execTimes i (frameCycles i d) ⟨cfg, d⟩ = .next ⟨cfg, d1⟩ ∧
      execTimes i (frameCycles i d) ⟨cfg, { d with mem := m }⟩ = .next ⟨cfg, d2⟩ ∧
      d1.trace = d.trace ++ tr1 ∧ d2.trace = d.trace ++ tr2 ∧ portWrites tr1 = portWrites tr2 ∧
      d1.ports = d2.ports

/-- R11 and R56: a host write of a command word in IDLE, followed by steps until the block is in IDLE again with reset not
applied in any of them, is the whole frame of that command. -/
def Obligations.StepsRunTheWholeFrame : Prop :=
  ∀ (i : Instr) (cfg : Config) (d : Data cfg) (rest : List HostOp), LaunchReady i d → NoResetFor (frameCycles i d) d →
    d.host = .writeReg 0 (encodeWord i).toNat :: rest →
    Host.Core.run core (frameCycles i d) ⟨cfg, d⟩ =
      execTimes i (frameCycles i d) ⟨cfg, { d with host := rest, resetIn := d.resetIn.drop (frameCycles i d) }⟩

/-! ## The line code -/

/-- R63 to R66 and R76: the receiver's decoder inverts the line code, for every buffer and every start. -/
def Obligations.LineCodeRoundTrip : Prop :=
  ∀ (cfg : Config) (t : Nat) (l : List Byte), cfg.wellBuilt = true →
    receivePulses cfg (pulseTrain cfg t (bitsOfBytes l)) = some l

/-- R65 and R64: component k of pixel m of channel c is sent in windows 24m + 8k to 24m + 8k + 7, bit 7 first. -/
def Obligations.PixelComponentWindows : Prop :=
  ∀ (cfg : Config) (d : Data cfg) (c : Chan) (m k n : Nat), k < 3 → n < 8 →
    windowBit d c (24 * m + 8 * k + n) = (memRead d (byteAddr (chanGet d.ptr c) (3 * m + k))).getLsbD (7 - n)

/-- R67 and R167: two pulse trains with at least T_LATCH of low between them are two frames to a receiver; with less,
the second is a continuation of the first. The trains have no such gap inside them. -/
def Obligations.LatchGapSeparatesFrames : Prop :=
  ∀ (cfg : Config) (t t' : Nat) (bit : Bool) (bits : List Bool) (bit' : Bool) (bits' : List Bool),
    cfg.tLong < cfg.tLatch → cfg.tShort < cfg.tLatch →
    ∀ last, (pulseTrain cfg t (bit :: bits)).getLast? = some last →
    framesOfPulses cfg (pulseTrain cfg t (bit :: bits) ++ pulseTrain cfg t' (bit' :: bits')) =
      if t' - last.2 < cfg.tLatch then [pulseTrain cfg t (bit :: bits) ++ pulseTrain cfg t' (bit' :: bits')]
      else [pulseTrain cfg t (bit :: bits), pulseTrain cfg t' (bit' :: bits')]

/-! ## Durations -/

/-- R172 with R7 and R180: a duration is its number of cycles divided by CLK_HZ, exactly; at P16 one cycle is 62.5 ns,
T_SHORT, T_LONG and T_BIT are 250, 1000 and 1250 ns, and a pixel is 30 µs. -/
def Obligations.DurationIsCyclesOverClock : Prop :=
  (∀ (cfg : Config) (n : Nat), cfg.clkHz ≠ 0 → cyclesToNs cfg n * cfg.clkHz = n * 1000000000) ∧
  cyclesToNs Config.p16 1 = 125 / 2 ∧ cyclesToNs Config.p16 Config.p16.tShort = 250 ∧
  cyclesToNs Config.p16 Config.p16.tLong = 1000 ∧ cyclesToNs Config.p16 Config.p16.tBit = 1250 ∧
  cyclesToNs Config.p16 (24 * Config.p16.tBit) = 30000
end

