-- ==== Sys2Proof/Laws/State.lean ====
section
/-! SUPPORT. One lemma per field of each named update of the state, each true by computation, so that no later proof
unfolds a record update. -/

namespace Sys2Proof.Machine

open Sys2Proof

variable {cfg : Config} (d : Data cfg)

/-! ## tick -/

@[simp] theorem tick_count  : (tick d).count = d.count := rfl
@[simp] theorem tick_ptr  : (tick d).ptr = d.ptr := rfl
@[simp] theorem tick_fsm  : (tick d).fsm = d.fsm := rfl
@[simp] theorem tick_active  : (tick d).active = d.active := rfl
@[simp] theorem tick_ecnt  : (tick d).ecnt = d.ecnt := rfl
@[simp] theorem tick_bytesLeft  : (tick d).bytesLeft = d.bytesLeft := rfl
@[simp] theorem tick_bitix  : (tick d).bitix = d.bitix := rfl
@[simp] theorem tick_tcnt  : (tick d).tcnt = d.tcnt := rfl
@[simp] theorem tick_cur  : (tick d).cur = d.cur := rfl
@[simp] theorem tick_sh  : (tick d).sh = d.sh := rfl
@[simp] theorem tick_b  : (tick d).b = d.b := rfl
@[simp] theorem tick_ieSaved  : (tick d).ieSaved = d.ieSaved := rfl
@[simp] theorem tick_other  : (tick d).other = d.other := rfl
@[simp] theorem tick_ports  : (tick d).ports = d.ports := rfl
@[simp] theorem tick_ie  : (tick d).ie = d.ie := rfl
@[simp] theorem tick_mem  : (tick d).mem = d.mem := rfl
@[simp] theorem tick_host  : (tick d).host = d.host := rfl
@[simp] theorem tick_resetIn  : (tick d).resetIn = d.resetIn := rfl
@[simp] theorem tick_now  : (tick d).now = d.now + 1 := rfl
@[simp] theorem tick_trace  : (tick d).trace = d.trace := rfl

/-! ## tickWith -/

@[simp] theorem tickWith_count (es : List (Event cfg)) : (tickWith es d).count = d.count := rfl
@[simp] theorem tickWith_ptr (es : List (Event cfg)) : (tickWith es d).ptr = d.ptr := rfl
@[simp] theorem tickWith_fsm (es : List (Event cfg)) : (tickWith es d).fsm = d.fsm := rfl
@[simp] theorem tickWith_active (es : List (Event cfg)) : (tickWith es d).active = d.active := rfl
@[simp] theorem tickWith_ecnt (es : List (Event cfg)) : (tickWith es d).ecnt = d.ecnt := rfl
@[simp] theorem tickWith_bytesLeft (es : List (Event cfg)) : (tickWith es d).bytesLeft = d.bytesLeft := rfl
@[simp] theorem tickWith_bitix (es : List (Event cfg)) : (tickWith es d).bitix = d.bitix := rfl
@[simp] theorem tickWith_tcnt (es : List (Event cfg)) : (tickWith es d).tcnt = d.tcnt := rfl
@[simp] theorem tickWith_cur (es : List (Event cfg)) : (tickWith es d).cur = d.cur := rfl
@[simp] theorem tickWith_sh (es : List (Event cfg)) : (tickWith es d).sh = d.sh := rfl
@[simp] theorem tickWith_b (es : List (Event cfg)) : (tickWith es d).b = d.b := rfl
@[simp] theorem tickWith_ieSaved (es : List (Event cfg)) : (tickWith es d).ieSaved = d.ieSaved := rfl
@[simp] theorem tickWith_other (es : List (Event cfg)) : (tickWith es d).other = d.other := rfl
@[simp] theorem tickWith_ports (es : List (Event cfg)) : (tickWith es d).ports = d.ports := rfl
@[simp] theorem tickWith_ie (es : List (Event cfg)) : (tickWith es d).ie = d.ie := rfl
@[simp] theorem tickWith_mem (es : List (Event cfg)) : (tickWith es d).mem = d.mem := rfl
@[simp] theorem tickWith_host (es : List (Event cfg)) : (tickWith es d).host = d.host := rfl
@[simp] theorem tickWith_resetIn (es : List (Event cfg)) : (tickWith es d).resetIn = d.resetIn := rfl
@[simp] theorem tickWith_now (es : List (Event cfg)) : (tickWith es d).now = d.now + 1 := rfl
@[simp] theorem tickWith_trace (es : List (Event cfg)) : (tickWith es d).trace = d.trace ++ stamp d.now es := rfl

/-! ## sampleReset -/

@[simp] theorem sampleReset_count  : (sampleReset d).count = d.count := rfl
@[simp] theorem sampleReset_ptr  : (sampleReset d).ptr = d.ptr := rfl
@[simp] theorem sampleReset_fsm  : (sampleReset d).fsm = d.fsm := rfl
@[simp] theorem sampleReset_active  : (sampleReset d).active = d.active := rfl
@[simp] theorem sampleReset_ecnt  : (sampleReset d).ecnt = d.ecnt := rfl
@[simp] theorem sampleReset_bytesLeft  : (sampleReset d).bytesLeft = d.bytesLeft := rfl
@[simp] theorem sampleReset_bitix  : (sampleReset d).bitix = d.bitix := rfl
@[simp] theorem sampleReset_tcnt  : (sampleReset d).tcnt = d.tcnt := rfl
@[simp] theorem sampleReset_cur  : (sampleReset d).cur = d.cur := rfl
@[simp] theorem sampleReset_sh  : (sampleReset d).sh = d.sh := rfl
@[simp] theorem sampleReset_b  : (sampleReset d).b = d.b := rfl
@[simp] theorem sampleReset_ieSaved  : (sampleReset d).ieSaved = d.ieSaved := rfl
@[simp] theorem sampleReset_other  : (sampleReset d).other = d.other := rfl
@[simp] theorem sampleReset_ports  : (sampleReset d).ports = d.ports := rfl
@[simp] theorem sampleReset_ie  : (sampleReset d).ie = d.ie := rfl
@[simp] theorem sampleReset_mem  : (sampleReset d).mem = d.mem := rfl
@[simp] theorem sampleReset_host  : (sampleReset d).host = d.host := rfl
@[simp] theorem sampleReset_now  : (sampleReset d).now = d.now := rfl
@[simp] theorem sampleReset_trace  : (sampleReset d).trace = d.trace := rfl
@[simp] theorem sampleReset_resetIn  : (sampleReset d).resetIn = d.resetIn.tail := rfl

/-! ## resetCycle -/

@[simp] theorem resetCycle_count  : (resetCycle d).count = 0 := rfl
@[simp] theorem resetCycle_ptr  : (resetCycle d).ptr = ⟨0, 0, 0, 0⟩ := rfl
@[simp] theorem resetCycle_fsm  : (resetCycle d).fsm = .idle := rfl
@[simp] theorem resetCycle_active  : (resetCycle d).active = .emit1 := rfl
@[simp] theorem resetCycle_ecnt  : (resetCycle d).ecnt = 0 := rfl
@[simp] theorem resetCycle_bytesLeft  : (resetCycle d).bytesLeft = 0 := rfl
@[simp] theorem resetCycle_bitix  : (resetCycle d).bitix = 0 := rfl
@[simp] theorem resetCycle_tcnt  : (resetCycle d).tcnt = 0 := rfl
@[simp] theorem resetCycle_cur  : (resetCycle d).cur = ⟨0, 0, 0, 0⟩ := rfl
@[simp] theorem resetCycle_sh  : (resetCycle d).sh = ⟨0, 0, 0, 0⟩ := rfl
@[simp] theorem resetCycle_b  : (resetCycle d).b = ⟨false, false, false, false⟩ := rfl
@[simp] theorem resetCycle_ieSaved  : (resetCycle d).ieSaved = false := rfl
@[simp] theorem resetCycle_other  : (resetCycle d).other = 0 := rfl
@[simp] theorem resetCycle_ports  : (resetCycle d).ports = d.ports := rfl
@[simp] theorem resetCycle_ie  : (resetCycle d).ie = d.ie := rfl
@[simp] theorem resetCycle_mem  : (resetCycle d).mem = d.mem := rfl
@[simp] theorem resetCycle_host  : (resetCycle d).host = d.host := rfl
@[simp] theorem resetCycle_resetIn  : (resetCycle d).resetIn = d.resetIn := rfl
@[simp] theorem resetCycle_now  : (resetCycle d).now = d.now + 1 := rfl
@[simp] theorem resetCycle_trace  : (resetCycle d).trace = d.trace := rfl

/-! ## maskInterrupts -/

@[simp] theorem maskInterrupts_count  : (maskInterrupts d).count = d.count := rfl
@[simp] theorem maskInterrupts_ptr  : (maskInterrupts d).ptr = d.ptr := rfl
@[simp] theorem maskInterrupts_fsm  : (maskInterrupts d).fsm = d.fsm := rfl
@[simp] theorem maskInterrupts_active  : (maskInterrupts d).active = d.active := rfl
@[simp] theorem maskInterrupts_ecnt  : (maskInterrupts d).ecnt = d.ecnt := rfl
@[simp] theorem maskInterrupts_bytesLeft  : (maskInterrupts d).bytesLeft = d.bytesLeft := rfl
@[simp] theorem maskInterrupts_bitix  : (maskInterrupts d).bitix = d.bitix := rfl
@[simp] theorem maskInterrupts_tcnt  : (maskInterrupts d).tcnt = d.tcnt := rfl
@[simp] theorem maskInterrupts_cur  : (maskInterrupts d).cur = d.cur := rfl
@[simp] theorem maskInterrupts_sh  : (maskInterrupts d).sh = d.sh := rfl
@[simp] theorem maskInterrupts_b  : (maskInterrupts d).b = d.b := rfl
@[simp] theorem maskInterrupts_ieSaved  : (maskInterrupts d).ieSaved = d.ie := rfl
@[simp] theorem maskInterrupts_other  : (maskInterrupts d).other = d.other := rfl
@[simp] theorem maskInterrupts_ports  : (maskInterrupts d).ports = d.ports := rfl
@[simp] theorem maskInterrupts_ie  : (maskInterrupts d).ie = false := rfl
@[simp] theorem maskInterrupts_mem  : (maskInterrupts d).mem = d.mem := rfl
@[simp] theorem maskInterrupts_host  : (maskInterrupts d).host = d.host := rfl
@[simp] theorem maskInterrupts_resetIn  : (maskInterrupts d).resetIn = d.resetIn := rfl
@[simp] theorem maskInterrupts_now  : (maskInterrupts d).now = d.now := rfl
@[simp] theorem maskInterrupts_trace  : (maskInterrupts d).trace = d.trace := rfl

/-! ## restoreInterrupts -/

@[simp] theorem restoreInterrupts_count  : (restoreInterrupts d).count = d.count := rfl
@[simp] theorem restoreInterrupts_ptr  : (restoreInterrupts d).ptr = d.ptr := rfl
@[simp] theorem restoreInterrupts_fsm  : (restoreInterrupts d).fsm = d.fsm := rfl
@[simp] theorem restoreInterrupts_active  : (restoreInterrupts d).active = d.active := rfl
@[simp] theorem restoreInterrupts_ecnt  : (restoreInterrupts d).ecnt = d.ecnt := rfl
@[simp] theorem restoreInterrupts_bytesLeft  : (restoreInterrupts d).bytesLeft = d.bytesLeft := rfl
@[simp] theorem restoreInterrupts_bitix  : (restoreInterrupts d).bitix = d.bitix := rfl
@[simp] theorem restoreInterrupts_tcnt  : (restoreInterrupts d).tcnt = d.tcnt := rfl
@[simp] theorem restoreInterrupts_cur  : (restoreInterrupts d).cur = d.cur := rfl
@[simp] theorem restoreInterrupts_sh  : (restoreInterrupts d).sh = d.sh := rfl
@[simp] theorem restoreInterrupts_b  : (restoreInterrupts d).b = d.b := rfl
@[simp] theorem restoreInterrupts_ieSaved  : (restoreInterrupts d).ieSaved = d.ieSaved := rfl
@[simp] theorem restoreInterrupts_other  : (restoreInterrupts d).other = d.other := rfl
@[simp] theorem restoreInterrupts_ports  : (restoreInterrupts d).ports = d.ports := rfl
@[simp] theorem restoreInterrupts_ie  : (restoreInterrupts d).ie = d.ieSaved := rfl
@[simp] theorem restoreInterrupts_mem  : (restoreInterrupts d).mem = d.mem := rfl
@[simp] theorem restoreInterrupts_host  : (restoreInterrupts d).host = d.host := rfl
@[simp] theorem restoreInterrupts_resetIn  : (restoreInterrupts d).resetIn = d.resetIn := rfl
@[simp] theorem restoreInterrupts_now  : (restoreInterrupts d).now = d.now := rfl
@[simp] theorem restoreInterrupts_trace  : (restoreInterrupts d).trace = d.trace := rfl

/-! ## acceptCycle -/

@[simp] theorem acceptCycle_count (i : Instr) : (acceptCycle i d).count = d.count := rfl
@[simp] theorem acceptCycle_ptr (i : Instr) : (acceptCycle i d).ptr = d.ptr := rfl
@[simp] theorem acceptCycle_fsm (i : Instr) : (acceptCycle i d).fsm = .entry := rfl
@[simp] theorem acceptCycle_active (i : Instr) : (acceptCycle i d).active = i := rfl
@[simp] theorem acceptCycle_ecnt (i : Instr) : (acceptCycle i d).ecnt = 0 := rfl
@[simp] theorem acceptCycle_bytesLeft (i : Instr) : (acceptCycle i d).bytesLeft = byteCount d.count := rfl
@[simp] theorem acceptCycle_bitix (i : Instr) : (acceptCycle i d).bitix = 0 := rfl
@[simp] theorem acceptCycle_tcnt (i : Instr) : (acceptCycle i d).tcnt = d.tcnt := rfl
@[simp] theorem acceptCycle_cur (i : Instr) : (acceptCycle i d).cur = chanBelow i.nch d.ptr d.cur := rfl
@[simp] theorem acceptCycle_sh (i : Instr) : (acceptCycle i d).sh = d.sh := rfl
@[simp] theorem acceptCycle_b (i : Instr) : (acceptCycle i d).b = d.b := rfl
@[simp] theorem acceptCycle_ieSaved (i : Instr) : (acceptCycle i d).ieSaved = d.ie := rfl
@[simp] theorem acceptCycle_other (i : Instr) : (acceptCycle i d).other = acceptOther i d := rfl
@[simp] theorem acceptCycle_ports (i : Instr) : (acceptCycle i d).ports = d.ports := rfl
@[simp] theorem acceptCycle_ie (i : Instr) : (acceptCycle i d).ie = false := rfl
@[simp] theorem acceptCycle_mem (i : Instr) : (acceptCycle i d).mem = d.mem := rfl
@[simp] theorem acceptCycle_host (i : Instr) : (acceptCycle i d).host = d.host := rfl
@[simp] theorem acceptCycle_resetIn (i : Instr) : (acceptCycle i d).resetIn = d.resetIn := rfl
@[simp] theorem acceptCycle_now (i : Instr) : (acceptCycle i d).now = d.now + 1 := rfl
@[simp] theorem acceptCycle_trace (i : Instr) : (acceptCycle i d).trace = d.trace ++ stamp d.now [.ieWrite false] := rfl

/-! ## entryNext -/

@[simp] theorem entryNext_count (n : Nat) (c : Chan) : (entryNext n d c).count = d.count := rfl
@[simp] theorem entryNext_ptr (n : Nat) (c : Chan) : (entryNext n d c).ptr = d.ptr := rfl
@[simp] theorem entryNext_fsm (n : Nat) (c : Chan) : (entryNext n d c).fsm = if d.ecnt.toNat + 1 = n then .run else .entry := rfl
@[simp] theorem entryNext_active (n : Nat) (c : Chan) : (entryNext n d c).active = d.active := rfl
@[simp] theorem entryNext_ecnt (n : Nat) (c : Chan) : (entryNext n d c).ecnt = d.ecnt + 1 := rfl
@[simp] theorem entryNext_bytesLeft (n : Nat) (c : Chan) : (entryNext n d c).bytesLeft = d.bytesLeft := rfl
@[simp] theorem entryNext_bitix (n : Nat) (c : Chan) : (entryNext n d c).bitix = d.bitix := rfl
@[simp] theorem entryNext_tcnt (n : Nat) (c : Chan) : (entryNext n d c).tcnt = if d.ecnt.toNat + 1 = n then 0 else d.tcnt := rfl
@[simp] theorem entryNext_cur (n : Nat) (c : Chan) : (entryNext n d c).cur = fetchCur d c := rfl
@[simp] theorem entryNext_sh (n : Nat) (c : Chan) : (entryNext n d c).sh = fetchSh d c := rfl
@[simp] theorem entryNext_b (n : Nat) (c : Chan) : (entryNext n d c).b = d.b := rfl
@[simp] theorem entryNext_ieSaved (n : Nat) (c : Chan) : (entryNext n d c).ieSaved = d.ieSaved := rfl
@[simp] theorem entryNext_other (n : Nat) (c : Chan) : (entryNext n d c).other = d.other := rfl
@[simp] theorem entryNext_ports (n : Nat) (c : Chan) : (entryNext n d c).ports = d.ports := rfl
@[simp] theorem entryNext_ie (n : Nat) (c : Chan) : (entryNext n d c).ie = d.ie := rfl
@[simp] theorem entryNext_mem (n : Nat) (c : Chan) : (entryNext n d c).mem = d.mem := rfl
@[simp] theorem entryNext_host (n : Nat) (c : Chan) : (entryNext n d c).host = d.host := rfl
@[simp] theorem entryNext_resetIn (n : Nat) (c : Chan) : (entryNext n d c).resetIn = d.resetIn := rfl
@[simp] theorem entryNext_now (n : Nat) (c : Chan) : (entryNext n d c).now = d.now + 1 := rfl
@[simp] theorem entryNext_trace (n : Nat) (c : Chan) : (entryNext n d c).trace = d.trace ++ stamp d.now [fetchEvent d c] := rfl

/-! ## runNext -/

@[simp] theorem runNext_count (n : Nat) (acts : List (PortAct cfg)) : (runNext n acts d).count = d.count := rfl
@[simp] theorem runNext_ptr (n : Nat) (acts : List (PortAct cfg)) : (runNext n acts d).ptr = d.ptr := rfl
@[simp] theorem runNext_fsm (n : Nat) (acts : List (PortAct cfg)) : (runNext n acts d).fsm = runFsm d := rfl
@[simp] theorem runNext_active (n : Nat) (acts : List (PortAct cfg)) : (runNext n acts d).active = d.active := rfl
@[simp] theorem runNext_ecnt (n : Nat) (acts : List (PortAct cfg)) : (runNext n acts d).ecnt = d.ecnt := rfl
@[simp] theorem runNext_bytesLeft (n : Nat) (acts : List (PortAct cfg)) : (runNext n acts d).bytesLeft = runBytesLeft d := rfl
@[simp] theorem runNext_bitix (n : Nat) (acts : List (PortAct cfg)) : (runNext n acts d).bitix = runBitix d := rfl
@[simp] theorem runNext_tcnt (n : Nat) (acts : List (PortAct cfg)) : (runNext n acts d).tcnt = (d.tcnt + 1) % cfg.tBit := rfl
@[simp] theorem runNext_cur (n : Nat) (acts : List (PortAct cfg)) : (runNext n acts d).cur = runCur n d := rfl
@[simp] theorem runNext_sh (n : Nat) (acts : List (PortAct cfg)) : (runNext n acts d).sh = runSh n d := rfl
@[simp] theorem runNext_b (n : Nat) (acts : List (PortAct cfg)) : (runNext n acts d).b = if d.tcnt = 0 then latchBits n d else d.b := rfl
@[simp] theorem runNext_ieSaved (n : Nat) (acts : List (PortAct cfg)) : (runNext n acts d).ieSaved = d.ieSaved := rfl
@[simp] theorem runNext_other (n : Nat) (acts : List (PortAct cfg)) : (runNext n acts d).other = d.other := rfl
@[simp] theorem runNext_ports (n : Nat) (acts : List (PortAct cfg)) : (runNext n acts d).ports = applyActs d.ports acts := rfl
@[simp] theorem runNext_ie (n : Nat) (acts : List (PortAct cfg)) : (runNext n acts d).ie = d.ie := rfl
@[simp] theorem runNext_mem (n : Nat) (acts : List (PortAct cfg)) : (runNext n acts d).mem = d.mem := rfl
@[simp] theorem runNext_host (n : Nat) (acts : List (PortAct cfg)) : (runNext n acts d).host = d.host := rfl
@[simp] theorem runNext_resetIn (n : Nat) (acts : List (PortAct cfg)) : (runNext n acts d).resetIn = d.resetIn := rfl
@[simp] theorem runNext_now (n : Nat) (acts : List (PortAct cfg)) : (runNext n acts d).now = d.now + 1 := rfl
@[simp] theorem runNext_trace (n : Nat) (acts : List (PortAct cfg)) : (runNext n acts d).trace = d.trace ++ stamp d.now (runEvents n acts d) := rfl

/-! ## exitCycle -/

@[simp] theorem exitCycle_count  : (exitCycle d).count = d.count := rfl
@[simp] theorem exitCycle_ptr  : (exitCycle d).ptr = d.ptr := rfl
@[simp] theorem exitCycle_fsm  : (exitCycle d).fsm = .idle := rfl
@[simp] theorem exitCycle_active  : (exitCycle d).active = d.active := rfl
@[simp] theorem exitCycle_ecnt  : (exitCycle d).ecnt = d.ecnt := rfl
@[simp] theorem exitCycle_bytesLeft  : (exitCycle d).bytesLeft = d.bytesLeft := rfl
@[simp] theorem exitCycle_bitix  : (exitCycle d).bitix = d.bitix := rfl
@[simp] theorem exitCycle_tcnt  : (exitCycle d).tcnt = d.tcnt := rfl
@[simp] theorem exitCycle_cur  : (exitCycle d).cur = d.cur := rfl
@[simp] theorem exitCycle_sh  : (exitCycle d).sh = d.sh := rfl
@[simp] theorem exitCycle_b  : (exitCycle d).b = d.b := rfl
@[simp] theorem exitCycle_ieSaved  : (exitCycle d).ieSaved = d.ieSaved := rfl
@[simp] theorem exitCycle_other  : (exitCycle d).other = d.other := rfl
@[simp] theorem exitCycle_ports  : (exitCycle d).ports = d.ports := rfl
@[simp] theorem exitCycle_ie  : (exitCycle d).ie = d.ieSaved := rfl
@[simp] theorem exitCycle_mem  : (exitCycle d).mem = d.mem := rfl
@[simp] theorem exitCycle_host  : (exitCycle d).host = d.host := rfl
@[simp] theorem exitCycle_resetIn  : (exitCycle d).resetIn = d.resetIn := rfl
@[simp] theorem exitCycle_now  : (exitCycle d).now = d.now + 1 := rfl
@[simp] theorem exitCycle_trace  : (exitCycle d).trace = d.trace ++ stamp d.now [.ieWrite d.ieSaved] := rfl

end Sys2Proof.Machine
end

