-- ==== Sys2Proof/Laws/Ops.lean ====
section
/-! SUPPORT. What the shared operations do: channel arrays, pixel memory, output ports. -/

namespace Sys2Proof.Machine

open Sys2Proof

/-! ## Channel arrays -/

@[simp] theorem chanGet_chanSet_same {α : Type} (q : Chans α) (c : Chan) (v : α) : chanGet (chanSet q c v) c = v := by
  fin_cases c <;> rfl

theorem chanGet_chanSet_other {α : Type} (q : Chans α) {c c' : Chan} (v : α) (h : c' ≠ c) :
    chanGet (chanSet q c v) c' = chanGet q c' := by
  fin_cases c <;> fin_cases c' <;> first | rfl | exact absurd rfl h

@[simp] theorem chanGet_chanMap {α β : Type} (f : α → β) (q : Chans α) (c : Chan) :
    chanGet (chanMap f q) c = f (chanGet q c) := by
  fin_cases c <;> rfl

theorem chanGet_chanBelow {α : Type} (n : Nat) (new old : Chans α) (c : Chan) :
    chanGet (chanBelow n new old) c = if c.val < n then chanGet new c else chanGet old c := by
  fin_cases c <;> rfl

theorem chans_ext {α : Type} {q q' : Chans α} (h : ∀ c, chanGet q c = chanGet q' c) : q = q' := by
  cases q; cases q'
  simpa [chanGet] using And.intro (h 0) (And.intro (h 1) (And.intro (h 2) (h 3)))

theorem chanOf_eq_some {n : Nat} {c : Chan} (h : chanOf n = some c) : c.val = n := by
  unfold chanOf at h
  split at h
  · cases h; rfl
  · cases h

/-- The channels of a command are those below NCH. -/
theorem mem_chans_iff (i : Instr) (c : Chan) : c ∈ i.chans ↔ c.val < i.nch := by
  cases i <;> fin_cases c <;> decide

/-! ## Pixel memory -/

theorem memRising_mono {fill : Byte} {bound low low' : Nat} {m : Memory} (h : low' ≤ low)
    (hm : memRising fill bound low m = true) : memRising fill bound low' m = true := by
  cases m with
  | nil => rfl
  | cons p m =>
    simp only [memRising, Bool.and_eq_true, decide_eq_true_eq, bne_iff_ne] at hm ⊢
    exact ⟨⟨⟨by omega, hm.1.1.2⟩, hm.1.2⟩, hm.2⟩

/-- Below its lowest address a rising memory reads as unwritten. -/
theorem memByte_below {fill : Byte} {bound low a : Nat} {m : Memory} (hm : memRising fill bound low m = true)
    (ha : a < low) : memByte fill m a = fill := by
  induction m generalizing low with
  | nil => rfl
  | cons p m ih =>
    simp only [memRising, Bool.and_eq_true, decide_eq_true_eq, bne_iff_ne] at hm
    have hne : p.1 ≠ a := by omega
    simp only [memByte, if_neg hne]
    exact ih hm.2 (by omega)

/-- A read after a write to the same address gives the byte written. -/
theorem memByte_memPut_same {fill : Byte} {bound low a : Nat} {m : Memory} (v : Byte)
    (hm : memRising fill bound low m = true) : memByte fill (memPut fill m a v) a = v := by
  induction m generalizing low with
  | nil => by_cases hv : v = fill <;> simp [memPut, memByte, hv]
  | cons p m ih =>
    simp only [memRising, Bool.and_eq_true, decide_eq_true_eq, bne_iff_ne] at hm
    simp only [memPut]
    split
    · split
      · next h hv =>
        have hne : p.1 ≠ a := by omega
        simp only [memByte, if_neg hne, hv]
        exact memByte_below hm.2 (by omega)
      · simp [memByte]
    · split
      · split
        · next hv => rw [hv]; exact memByte_below hm.2 (by omega)
        · simp [memByte]
      · next h1 h2 =>
        have hne : p.1 ≠ a := fun e => h2 e.symm
        simp only [memByte, if_neg hne]
        exact ih hm.2

/-- A write leaves every other address as it was. -/
theorem memByte_memPut_other {fill : Byte} {a a' : Nat} (m : Memory) (v : Byte) (h : a' ≠ a) :
    memByte fill (memPut fill m a v) a' = memByte fill m a' := by
  induction m with
  | nil => by_cases hv : v = fill <;> simp [memPut, memByte, hv, h.symm]
  | cons p m ih =>
    simp only [memPut]
    split
    · split
      · rfl
      · simp [memByte, h.symm]
    · split
      · next h1 h2 =>
        have hne : p.1 ≠ a' := by omega
        split <;> simp [memByte, hne, h.symm]
      · simp only [memByte, ih]

theorem memRising_memPut {fill : Byte} {bound low a : Nat} {m : Memory} (v : Byte)
    (hm : memRising fill bound low m = true) (hl : low ≤ a) (ha : a < bound) :
    memRising fill bound low (memPut fill m a v) = true := by
  induction m generalizing low with
  | nil => by_cases hv : v = fill <;> simp [memPut, memRising, hv, hl, ha]
  | cons p m ih =>
    have hm' := hm
    simp only [memRising, Bool.and_eq_true, decide_eq_true_eq, bne_iff_ne] at hm
    simp only [memPut]
    split
    · next h =>
      split
      · exact hm'
      · next hv =>
        simp only [memRising, Bool.and_eq_true, decide_eq_true_eq, bne_iff_ne]
        exact ⟨⟨⟨hl, ha⟩, hv⟩, ⟨⟨⟨by omega, hm.1.1.2⟩, hm.1.2⟩, hm.2⟩⟩
    · split
      · next h1 h2 =>
        split
        · exact memRising_mono (by omega) hm.2
        · next hv =>
          simp only [memRising, Bool.and_eq_true, decide_eq_true_eq, bne_iff_ne]
          exact ⟨⟨⟨hl, ha⟩, hv⟩, by rw [h2]; exact hm.2⟩
      · next h1 h2 =>
        simp only [memRising, Bool.and_eq_true, decide_eq_true_eq, bne_iff_ne]
        exact ⟨hm.1, ih hm.2 (by omega)⟩

/-- A host store keeps the canonical form. -/
theorem memory_wf_memPut {cfg : Config} {m : Memory} {a : Nat} (v : Byte) (hm : Memory.wf cfg m = true)
    (ha : a < 2 ^ cfg.addrW) : Memory.wf cfg (memPut cfg.fillByte m a v) = true :=
  memRising_memPut v hm (Nat.zero_le _) ha

@[simp] theorem memory_wf_nil (cfg : Config) : Memory.wf cfg [] = true := rfl

/-! ## Output ports -/

theorem withBit_getLsbD {w : Nat} (v : BitVec w) (b : Nat) (level : Bool) (k : Nat) :
    (withBit v b level).getLsbD k = if k = b ∧ b < w then level else v.getLsbD k := by
  unfold withBit
  cases level <;> by_cases hk : k < w <;> by_cases hkb : b = k <;>
    simp_all [BitVec.getLsbD_of_ge] <;> grind

@[simp] theorem portWrite_length {w : Nat} (ports : List (BitVec w)) (p : Nat) (v : BitVec w) :
    (portWrite ports p v).length = ports.length := by
  simp [portWrite]

@[simp] theorem pinWrite_length {w : Nat} (ports : List (BitVec w)) (p b : Nat) (level : Bool) :
    (pinWrite ports p b level).length = ports.length := by
  simp [pinWrite]

@[simp] theorem applyAct_length {cfg : Config} (ports : List (BitVec cfg.portW)) (a : PortAct cfg) :
    (applyAct ports a).length = ports.length := by
  cases a <;> simp [applyAct]

@[simp] theorem applyActs_length {cfg : Config} (ports : List (BitVec cfg.portW)) (acts : List (PortAct cfg)) :
    (applyActs ports acts).length = ports.length := by
  unfold applyActs
  induction acts generalizing ports with
  | nil => rfl
  | cons a acts ih => simp [ih]

theorem portGet_portWrite {w : Nat} (ports : List (BitVec w)) (p q : Nat) (v : BitVec w) (hp : p < ports.length) :
    portGet (portWrite ports p v) q = if q = p then v else portGet ports q := by
  by_cases h : q = p
  · subst h; simp [portGet, portWrite, hp]
  · simp [portGet, portWrite, h, Ne.symm h]

/-- PinWrite sets its bit and leaves every other bit of every port as it was (R52). -/
theorem pinLevel_pinWrite {w : Nat} (ports : List (BitVec w)) (p b : Nat) (level : Bool) (q k : Nat)
    (hp : p < ports.length) (hb : b < w) :
    pinLevel (pinWrite ports p b level) q k = if q = p ∧ k = b then level else pinLevel ports q k := by
  have h : pinWrite ports p b level = portWrite ports p (withBit (portGet ports p) b level) := rfl
  unfold pinLevel
  rw [h, portGet_portWrite _ _ _ _ hp]
  by_cases hq : q = p
  · subst hq; simp [withBit_getLsbD, hb]
  · simp [hq]

/-- PortWrite replaces its port and leaves every other port as it was (R53). -/
theorem pinLevel_portWrite {w : Nat} (ports : List (BitVec w)) (p : Nat) (v : BitVec w) (q k : Nat)
    (hp : p < ports.length) :
    pinLevel (portWrite ports p v) q k = if q = p then v.getLsbD k else pinLevel ports q k := by
  unfold pinLevel
  rw [portGet_portWrite _ _ _ _ hp]
  split <;> rfl

/-! ## The reset input and the building of an instance -/

/-- With the reset input used up a cycle takes nothing off it. -/
theorem sampleReset_of_nil {cfg : Config} {d : Data cfg} (h : d.resetIn = []) : sampleReset d = d := by
  obtain ⟨⟩ := d
  cases h
  rfl

theorem resetApplied_of_nil {cfg : Config} {d : Data cfg} (h : d.resetIn = []) : resetApplied d = false := by
  simp [resetApplied, h]

theorem resetApplied_iff {cfg : Config} {d : Data cfg} :
    resetApplied d = true ↔ ∃ rest, d.resetIn = true :: rest := by
  unfold resetApplied
  cases d.resetIn with
  | nil => simp
  | cons b rest => cases b <;> simp

theorem build_eq_none {cfg : Config} : State.build cfg = none ↔ cfg.wellBuilt = false := by
  unfold State.build
  split <;> simp_all

theorem build_eq_some {cfg : Config} {s : State} :
    State.build cfg = some s ↔ cfg.wellBuilt = true ∧ s = ⟨cfg, Data.reset cfg⟩ := by
  unfold State.build
  split
  · next hw => simp [hw, eq_comm]
  · next hw => simp [hw]

end Sys2Proof.Machine
end

