-- ==== Sys2Proof/Laws/Sequencer.lean ====
section
/-! SUPPORT. Everything a clock cycle of a command's sequencer, and of the machine, can do: one inversion lemma each. -/

namespace Sys2Proof.Machine

open Sys2Proof Sys2Proof.Safety

/-- The four meanings are one sequencer with the command's own port writes. -/
theorem exec_eq_sequencer (i : Instr) (s : State) : exec i s = sequencer i (commandActs i) s := by
  cases i <;> rfl

theorem launch_next {i : Instr} {s t : State} (h : launch i s = .next t) :
    s.data.count ≠ 0 ∧ readSetRefusal i s.data = none ∧ t = ⟨s.cfg, acceptCycle i s.data⟩ := by
  unfold launch at h
  split at h
  · cases h
  · next hc =>
    split at h
    · cases h
    · next hr => cases h; exact ⟨hc, hr, rfl⟩

theorem entryCycle_next {n : Nat} {s t : State} (h : entryCycle n s = .next t) :
    ∃ c, entryChan n s.data = some c ∧ readRefusal s.cfg (chanGet s.data.cur c).toNat = none ∧
      t = ⟨s.cfg, entryNext n s.data c⟩ := by
  unfold entryCycle at h
  split at h
  · cases h
  · next c hc =>
    split at h
    · cases h
    · next hr => cases h; exact ⟨c, hc, hr, rfl⟩

theorem runCycle_next {n : Nat} {acts : {cfg : Config} → Data cfg → List (PortAct cfg)} {s t : State}
    (h : runCycle n acts s = .next t) :
    s.data.tcnt < s.cfg.tBit ∧ s.data.bytesLeft ≠ 0 ∧ runRefusal n s.data = none ∧
      t = ⟨s.cfg, runNext n (acts s.data) s.data⟩ := by
  unfold runCycle at h
  split at h
  · cases h
  · next hp =>
    split at h
    · cases h
    · next hr =>
      cases h
      exact ⟨by omega, fun e => hp (Or.inr e), hr, rfl⟩

/-- What a cycle of a command can be: an accept, a fetch of ENTRY, a cycle of RUN, or EXIT. -/
inductive CommandCycle (i : Instr) (s : State) : State → Prop where
  | accept (hf : s.data.fsm = .idle) (hc : s.data.count ≠ 0) (hr : readSetRefusal i s.data = none) :
      CommandCycle i s ⟨s.cfg, acceptCycle i s.data⟩
  | entry (c : Chan) (hf : s.data.fsm = .entry) (ha : s.data.active = i) (hc : entryChan i.nch s.data = some c)
      (hr : readRefusal s.cfg (chanGet s.data.cur c).toNat = none) : CommandCycle i s ⟨s.cfg, entryNext i.nch s.data c⟩
  | run (hf : s.data.fsm = .run) (ha : s.data.active = i) (ht : s.data.tcnt < s.cfg.tBit) (hb : s.data.bytesLeft ≠ 0)
      (hr : runRefusal i.nch s.data = none) :
      CommandCycle i s ⟨s.cfg, runNext i.nch (commandActs i s.data) s.data⟩
  | exit (hf : s.data.fsm = .exit) (ha : s.data.active = i) : CommandCycle i s ⟨s.cfg, exitCycle s.data⟩

/-- Everything `exec` can do when it answers a next state. -/
theorem exec_next {i : Instr} {s t : State} (h : exec i s = .next t) :
    instanceOk s.cfg i = true ∧ CommandCycle i s t := by
  rw [exec_eq_sequencer] at h
  unfold sequencer at h
  split at h
  · cases h
  · next hi =>
    refine ⟨by simpa using hi, ?_⟩
    split at h
    · next hf => obtain ⟨hc, hr, rfl⟩ := launch_next h; exact .accept hf hc hr
    · next hf =>
      split at h
      · next ha => obtain ⟨c, hc, hr, rfl⟩ := entryCycle_next h; exact .entry c hf ha hc hr
      · cases h
    · next hf =>
      split at h
      · next ha => obtain ⟨ht, hb, hr, rfl⟩ := runCycle_next h; exact .run hf ha ht hb hr
      · cases h
    · next hf =>
      split at h
      · next ha => cases h; exact .exit hf ha
      · cases h

theorem exec_accept {i : Instr} {s : State} (hi : instanceOk s.cfg i = true) (hf : s.data.fsm = .idle)
    (hc : s.data.count ≠ 0) (hr : readSetRefusal i s.data = none) :
    exec i s = .next ⟨s.cfg, acceptCycle i s.data⟩ := by
  rw [exec_eq_sequencer]
  simp [sequencer, launch, hi, hf, hr]
  exact hc

theorem exec_entry {i : Instr} {s : State} {c : Chan} (hi : instanceOk s.cfg i = true) (hf : s.data.fsm = .entry)
    (ha : s.data.active = i) (hc : entryChan i.nch s.data = some c)
    (hr : readRefusal s.cfg (chanGet s.data.cur c).toNat = none) :
    exec i s = .next ⟨s.cfg, entryNext i.nch s.data c⟩ := by
  rw [exec_eq_sequencer]
  simp [sequencer, entryCycle, hi, hf, ha, hc, hr]

theorem exec_run {i : Instr} {s : State} (hi : instanceOk s.cfg i = true) (hf : s.data.fsm = .run)
    (ha : s.data.active = i) (ht : s.data.tcnt < s.cfg.tBit) (hb : s.data.bytesLeft ≠ 0)
    (hr : runRefusal i.nch s.data = none) :
    exec i s = .next ⟨s.cfg, runNext i.nch (commandActs i s.data) s.data⟩ := by
  rw [exec_eq_sequencer]
  simp [sequencer, runCycle, hi, hf, ha, hr, Nat.not_le.mpr ht]
  exact hb

theorem exec_exit {i : Instr} {s : State} (hi : instanceOk s.cfg i = true) (hf : s.data.fsm = .exit)
    (ha : s.data.active = i) : exec i s = .next ⟨s.cfg, exitCycle s.data⟩ := by
  rw [exec_eq_sequencer]
  simp [sequencer, hi, hf, ha]

/-- A run of m + n cycles is a run of m cycles and then one of n. -/
theorem execTimes_add (i : Instr) (m n : Nat) (s : State) :
    execTimes i (m + n) s =
      match execTimes i m s with
      | .next t => execTimes i n t
      | .fault f => .fault f
      | .refused r => .refused r := by
  induction m generalizing s with
  | zero => simp [execTimes]
  | succ m ih =>
    rw [Nat.succ_add]
    simp only [execTimes]
    cases exec i s with
    | next t => exact ih t
    | fault f => rfl
    | refused r => rfl

/-! ## The host's operations -/

/-- What an operation of the host can be, when it is not a launch: one element of the operands or of the state outside
the block changes, or none. -/
inductive HostCycle (s : State) : State → Prop where
  | nothing : HostCycle s ⟨s.cfg, tick s.data⟩
  | count (v : BitVec s.cfg.countW) : HostCycle s ⟨s.cfg, tick { s.data with count := v }⟩
  | ptr (c : Chan) (v : BitVec s.cfg.addrW) : HostCycle s ⟨s.cfg, tick { s.data with ptr := chanSet s.data.ptr c v }⟩
  | read (n v : Nat) (hv : regValue s.data n = some v) : HostCycle s ⟨s.cfg, tickWith [.regRead n v] s.data⟩
  | store (a : Nat) (v : Byte) (ha : a < 2 ^ s.cfg.addrW) :
      HostCycle s ⟨s.cfg, tick { s.data with mem := memPut s.cfg.fillByte s.data.mem a v }⟩
  | ie (v : Bool) : HostCycle s ⟨s.cfg, tick { s.data with ie := v }⟩
  | port (p : Nat) (v : BitVec s.cfg.portW) (hp : p < s.cfg.nports) :
      HostCycle s ⟨s.cfg, tickWith [.hostPort p v] { s.data with ports := portWrite s.data.ports p v }⟩

theorem writeCmd_next {w : Byte} {s t : State} (h : writeCmd w s = .next t) :
    ∃ i, decodeWord w = some i ∧ exec i s = .next t := by
  cases hd : decodeWord w with
  | some i => exact ⟨i, rfl, by simpa [writeCmd, decode, hd] using h⟩
  | none => simp [writeCmd, decode, hd] at h

/-- Everything an operation of the host can do when it answers a next state. -/
theorem hostOp_next {op : HostOp} {s t : State} (h : hostOp op s = .next t) :
    HostCycle s t ∨ ∃ w i, op = .writeReg 0 w ∧ decodeWord (BitVec.ofNat 8 w) = some i ∧ exec i s = .next t := by
  cases op with
  | idle => cases h; exact .inl .nothing
  | setIE v => cases h; exact .inl (.ie v)
  | readReg n =>
    simp only [hostOp, readReg] at h
    split at h
    · next v hv => cases h; exact .inl (.read n v hv)
    · split at h <;> cases h
  | store a v =>
    simp only [hostOp, store] at h
    split at h
    · cases h
    · next ha =>
      split at h
      · cases h
      · cases h; exact .inl (.store a v (by omega))
  | setPort p v =>
    simp only [hostOp, setPort] at h
    split at h
    · cases h
    · next hp =>
      split at h
      · cases h
      · cases h; exact .inl (.port p _ (by omega))
  | writeReg n v =>
    simp only [hostOp, writeReg] at h
    split at h
    · split at h
      · obtain ⟨i, hi, he⟩ := writeCmd_next h; exact .inr ⟨v, i, rfl, hi, he⟩
      · cases h
    · cases h
    · split at h
      · cases h; exact .inl (.count _)
      · cases h
    · cases h
    · split at h
      · cases h
      · split at h
        · cases h; exact .inl (.ptr _ _)
        · cases h

/-! ## The clock cycle -/

theorem activeCycle_next {s t : State} (h : activeCycle s = .next t) :
    (s.data.fsm ≠ .idle ∧ exec s.data.active s = .next t) ∨ (s.data.fsm = .idle ∧ idleCycle s = .next t) := by
  unfold activeCycle at h
  split at h <;> simp_all

/-- Everything a step can do when it answers a next state: the instance is one that can be built, and the cycle is a reset,
a cycle of the running command, or in IDLE a cycle of the host. -/
theorem step_next {s t : State} (h : step s = .next t) :
    s.cfg.wellBuilt = true ∧
    ((resetApplied s.data = true ∧ t = ⟨s.cfg, resetCycle (sampleReset s.data)⟩) ∨
     (resetApplied s.data = false ∧ s.data.fsm ≠ .idle ∧ exec s.data.active ⟨s.cfg, sampleReset s.data⟩ = .next t) ∨
     (resetApplied s.data = false ∧ s.data.fsm = .idle ∧ idleCycle ⟨s.cfg, sampleReset s.data⟩ = .next t)) := by
  unfold step clockCycle at h
  split at h
  · cases h
  · next hw =>
    refine ⟨by simpa using hw, ?_⟩
    split at h
    · next hr => cases h; exact .inl ⟨hr, rfl⟩
    · next hr =>
      have hr' : resetApplied s.data = false := by simpa using hr
      exact .inr ((activeCycle_next h).imp (⟨hr', ·⟩) (⟨hr', ·⟩))

/-- A step of a built instance in which reset is applied. -/
theorem step_reset {s : State} (hw : s.cfg.wellBuilt = true) (hr : resetApplied s.data = true) :
    step s = .next ⟨s.cfg, resetCycle (sampleReset s.data)⟩ := by
  simp [step, clockCycle, hw, hr, onward]

/-- A step of a built instance in which reset is not applied. -/
theorem step_active {s : State} (hw : s.cfg.wellBuilt = true) (hr : resetApplied s.data = false) :
    step s = activeCycle ⟨s.cfg, sampleReset s.data⟩ := by
  simp [step, clockCycle, hw, hr]

/-- A step in which the host may move is its next operation. -/
theorem step_host {cfg : Config} {d : Data cfg} {op : HostOp} {rest : List HostOp} (h : HostTurn d)
    (hh : d.host = op :: rest) :
    step ⟨cfg, d⟩ = hostOp op ⟨cfg, { d with host := rest, resetIn := d.resetIn.tail }⟩ := by
  obtain ⟨hw, hf, hr⟩ := h
  rw [step_active hw hr]
  simp [activeCycle, idleCycle, hf, hh, sampleReset]

theorem instanceOk_wellBuilt {cfg : Config} {i : Instr} (h : instanceOk cfg i = true) : cfg.wellBuilt = true := by
  simp only [instanceOk, Instr.wellFormed, Bool.and_eq_true] at h
  exact h.1

theorem idleCycle_next {s t : State} (h : idleCycle s = .next t) :
    (s.data.host = [] ∧ t = ⟨s.cfg, tick s.data⟩) ∨
    ∃ op rest, s.data.host = op :: rest ∧ hostOp op ⟨s.cfg, { s.data with host := rest }⟩ = .next t := by
  unfold idleCycle at h
  split at h
  · next hh => cases h; exact .inl ⟨hh, rfl⟩
  · next op rest hh => exact .inr ⟨op, rest, hh, h⟩

end Sys2Proof.Machine
end

