-- ==== Sys2Proof/Laws/Emit.lean ====
section
/-! SUPPORT. What the port writes of one cycle do to the pins, and what a legal descriptor set gives. -/

namespace Sys2Proof.Machine

open Sys2Proof Sys2Proof.Safety

variable {cfg : Config}

theorem applyActs_nil (ports : List (BitVec cfg.portW)) : applyActs ports [] = ports := rfl

theorem applyActs_cons (ports : List (BitVec cfg.portW)) (a : PortAct cfg) (acts : List (PortAct cfg)) :
    applyActs ports (a :: acts) = applyActs (applyAct ports a) acts := rfl

theorem applyActs_append (ports : List (BitVec cfg.portW)) (a b : List (PortAct cfg)) :
    applyActs ports (a ++ b) = applyActs (applyActs ports a) b := by
  simp [applyActs, List.foldl_append]

/-- One channel's PinWrites of a cycle set its pin by the schedule and leave every other pin as it was (R90, R52). -/
theorem pinLevel_pinActs (ports : List (BitVec cfg.portW)) (x : Desc) (bit : Bool) (s w q k : Nat)
    (hp : x.port < ports.length) (hb : x.bit < cfg.portW) :
    pinLevel (applyActs ports (pinActs cfg x bit s w)) q k =
      if q = x.port ∧ k = x.bit then
        (if w = cfg.tLong + s then false else if w = cfg.tShort + s then bit else if w = s then true
          else pinLevel ports q k)
      else pinLevel ports q k := by
  have one : ∀ (c : Prop) [Decidable c] (l : Bool) (ps : List (BitVec cfg.portW)), x.port < ps.length →
      pinLevel (applyActs ps (if c then [.pinWrite x.port x.bit l] else [])) q k =
        if c ∧ q = x.port ∧ k = x.bit then l else pinLevel ps q k := by
    intro c _ l ps hps
    by_cases hc : c
    · simp [hc, applyActs, applyAct, pinLevel_pinWrite _ _ _ _ _ _ hps hb]
    · simp [hc, applyActs]
  unfold pinActs
  rw [applyActs_append, applyActs_append, one _ _ _ (by simpa), one _ _ _ (by simpa), one _ _ _ hp]
  split_ifs <;> simp_all

/-- The PortWrites of a cycle set the shared port by the schedule and leave every other port as it was (R90, R53). -/
theorem portGet_portActs (ports : List (BitVec cfg.portW)) (descs : List Desc) (bits : List Bool) (d : Data cfg) (q : Nat)
    (hp : sharedPortId descs < ports.length) :
    portGet (applyActs ports (portActs descs bits d)) q =
      if q = sharedPortId descs then
        (if d.tcnt = cfg.tLong then snapLo d.other
          else if d.tcnt = cfg.tShort then snapPat d.other (descs.zip bits)
          else if d.tcnt = 0 then snapHi d.other descs else portGet ports q)
      else portGet ports q := by
  have one : ∀ (c : Prop) [Decidable c] (v : BitVec cfg.portW) (ps : List (BitVec cfg.portW)),
      sharedPortId descs < ps.length →
      portGet (applyActs ps (if c then [.portWrite (sharedPortId descs) v] else [])) q =
        if c ∧ q = sharedPortId descs then v else portGet ps q := by
    intro c _ v ps hps
    by_cases hc : c
    · simp [hc, applyActs, applyAct, portGet_portWrite _ _ _ _ hps]
    · simp [hc, applyActs]
  unfold portActs
  rw [applyActs_append, applyActs_append, one _ _ _ (by simpa), one _ _ _ (by simpa), one _ _ _ hp]
  split_ifs <;> simp_all

/-! ## A well-built instance -/

/-- What `instanceOk` says of the cycle counts (R6). -/
theorem instanceOk_counts {i : Instr} (h : instanceOk cfg i = true) :
    1 ≤ cfg.tShort ∧ cfg.tShort < cfg.tLong ∧ i.nch + 2 ≤ cfg.tBit ∧ 1 ≤ cfg.nports ∧
      (i = .emit2 → cfg.skew2 < cfg.tShort) := by
  simp only [instanceOk, Instr.wellFormed, Config.wellBuilt, Config.fits, Bool.and_eq_true, decide_eq_true_eq,
    Bool.or_eq_true, bne_iff_ne] at h
  obtain ⟨⟨⟨⟨h1, h2⟩, h3⟩, _⟩, h5, h6⟩ := h
  exact ⟨h1, h2, h5, h3, fun e => h6.resolve_left (fun n => n e)⟩

/-- What `instanceOk` says of a command's descriptors (R72). -/
theorem instanceOk_descs {i : Instr} (h : instanceOk cfg i = true) : cfg.descsLegal i = true := by
  simp only [instanceOk, Instr.wellFormed, Config.wellBuilt, Bool.and_eq_true, List.all_eq_true] at h
  exact h.1.2 i (by cases i <;> simp)

theorem descsLegal_inRange {i : Instr} (h : cfg.descsLegal i = true) :
    ∀ x ∈ cfg.descs i, x.bit < cfg.portW ∧ x.port < cfg.nports := by
  simp only [Config.descsLegal, Bool.and_eq_true, List.all_eq_true, Desc.inRange, decide_eq_true_eq] at h
  exact fun x hx => h.1.1 x hx

theorem pinsDistinct_nodup {l : List Desc} (h : pinsDistinct l = true) : l.Nodup := by
  induction l with
  | nil => exact List.nodup_nil
  | cons x xs ih =>
    simp only [pinsDistinct, Bool.and_eq_true, Bool.not_eq_true', List.contains_eq_mem, decide_eq_false_iff_not] at h
    exact List.nodup_cons.mpr ⟨h.1, ih h.2⟩

theorem descsLegal_nodup {i : Instr} (h : cfg.descsLegal i = true) : (cfg.descs i).Nodup := by
  simp only [Config.descsLegal, Bool.and_eq_true] at h
  exact pinsDistinct_nodup h.1.2

/-- All descriptors of EMIT3 and EMIT4 name the shared port (R72 (a)). -/
theorem descsLegal_port {i : Instr} (hs : i.sharedPort = true) (h : cfg.descsLegal i = true) :
    ∀ x ∈ cfg.descs i, x.port = sharedPortId (cfg.descs i) := by
  simp only [Config.descsLegal, Bool.and_eq_true, hs, Bool.not_true, Bool.false_or] at h
  cases i <;> simp_all [Config.descs, onePort, sharedPortId, Instr.sharedPort]

/-- A channel's descriptor is one of its command's. -/
theorem chanDesc_mem {i : Instr} {c : Chan} (hc : c ∈ i.chans) : chanDesc cfg i c ∈ cfg.descs i := by
  cases i <;> fin_cases c <;> simp_all [Instr.chans, chanDesc, Config.descs]

theorem mask_getLsbD (w : Nat) (descs : List Desc) (k : Nat) :
    (mask w descs).getLsbD k = decide (k < w ∧ ∃ x ∈ descs, x.bit = k) := by
  have key : ∀ (l : List Desc) (m : BitVec w),
      (l.foldl (fun m x => m ||| BitVec.twoPow w x.bit) m).getLsbD k =
        (m.getLsbD k || decide (k < w ∧ ∃ x ∈ l, x.bit = k)) := by
    intro l
    induction l with
    | nil => simp
    | cons x xs ih =>
      intro m
      rw [List.foldl_cons, ih]
      have e : (k = x.bit) = (x.bit = k) := propext eq_comm
      by_cases h1 : k < w <;> by_cases h2 : x.bit = k <;> simp [h1, h2, e, BitVec.getLsbD_twoPow]
  have h := key descs 0
  simpa [mask] using h

/-- PAT's bits: a lane is 1 where a descriptor's bit is, beside OTHER's own bits (R68). -/
theorem snapPat_getLsbD {w : Nat} (other : BitVec w) (l : List (Desc × Bool)) (k : Nat) :
    (snapPat other l).getLsbD k =
      (other.getLsbD k || (decide (k < w) && l.any (fun y => y.1.bit == k && y.2))) := by
  induction l generalizing other with
  | nil => simp [snapPat]
  | cons x xs ih =>
    obtain ⟨x, bit⟩ := x
    have e : (k = x.bit) = (x.bit = k) := propext eq_comm
    have e2 : (x.bit == k) = decide (x.bit = k) := by rw [Bool.eq_iff_iff]; simp
    simp only [snapPat, List.any_cons, e2]
    rw [ih]
    by_cases h1 : k < w <;> by_cases h2 : x.bit = k <;> cases bit <;>
      simp [h1, h2, e, BitVec.getLsbD_twoPow]

theorem desc_eq_iff (a b : Desc) : a = b ↔ a.port = b.port ∧ a.bit = b.bit := by
  cases a; cases b; simp

/-- A sample of a port holds no target bit (R25). -/
theorem sampleOther_and_mask {w : Nat} (p : BitVec w) (ds : List Desc) : sampleOther p ds &&& mask w ds = 0 := by
  unfold sampleOther
  ext k hk
  simp

/-- The level of a command's target pin after the port writes of a cycle of RUN (R90): the fall, the data write and the
rise win in that order, and in every other cycle the level stays. -/
theorem targetLevel_commandActs {i : Instr} {d : Data cfg} (hi : instanceOk cfg i = true) (hp : PortsExist d)
   (ho : i.sharedPort = true → d.other &&& mask cfg.portW (cfg.descs i) = 0)
   {c : Chan} (hc : c ∈ i.chans) :
   pinLevel (applyActs d.ports (commandActs i d)) (chanDesc cfg i c).port (chanDesc cfg i c).bit =
     if d.tcnt = cfg.tLong + writeOffset cfg i c then false
     else if d.tcnt = cfg.tShort + writeOffset cfg i c then chanGet d.b c
     else if d.tcnt = writeOffset cfg i c then true
     else targetLevel i d c := by
  have hr := descsLegal_inRange (instanceOk_descs hi)
  have hn := descsLegal_nodup (instanceOk_descs hi)
  have hm := chanDesc_mem (cfg := cfg) hc
  have hx := hr _ hm
  unfold targetLevel
  cases hs : i.sharedPort with
  | false =>
    cases i with
    | emit1 =>
      fin_cases c <;> simp [Instr.chans] at hc
      have := hr cfg.desc1 (by simp [Config.descs])
      simp only [commandActs, emit1Acts]
      rw [pinLevel_pinActs _ _ _ _ _ _ _ (by rw [hp]; exact this.2) this.1]
      simp [chanDesc, Config.descs, writeOffset, chanGet]
    | emit2 =>
      have h1 := hr cfg.desc2.1 (by simp [Config.descs])
      have h2 := hr cfg.desc2.2 (by simp [Config.descs])
      simp only [commandActs, emit2Acts]
      rw [applyActs_append, pinLevel_pinActs _ _ _ _ _ _ _ (by simp [hp]; exact h2.2) h2.1,
        pinLevel_pinActs _ _ _ _ _ _ _ (by rw [hp]; exact h1.2) h1.1]
      have hne : ¬ (cfg.desc2.1.port = cfg.desc2.2.port ∧ cfg.desc2.1.bit = cfg.desc2.2.bit) := by
        rintro ⟨a, b⟩
        have : cfg.desc2.1 = cfg.desc2.2 := by
          cases h : cfg.desc2.1; cases h' : cfg.desc2.2; simp_all
        simp [Config.descs, this] at hn
      have hne' : ¬ (cfg.desc2.2.port = cfg.desc2.1.port ∧ cfg.desc2.2.bit = cfg.desc2.1.bit) := fun h => hne ⟨h.1.symm, h.2.symm⟩
      fin_cases c <;> simp [Instr.chans] at hc
      · simp [chanDesc, Config.descs, writeOffset, chanGet, hne]
      · simp [chanDesc, Config.descs, writeOffset, chanGet, hne']
    | emit3 => cases hs
    | emit4 => cases hs
  | true =>
    have hpt := descsLegal_port hs (instanceOk_descs hi)
    have hP : sharedPortId (cfg.descs i) < d.ports.length := by rw [hp, ← hpt _ hm]; exact hx.2
    have hoc : d.other.getLsbD (chanDesc cfg i c).bit = false := by
      have := congrArg (fun v => v.getLsbD (chanDesc cfg i c).bit) (ho hs)
      simp only [BitVec.getLsbD_and, mask_getLsbD] at this
      have hd : decide ((chanDesc cfg i c).bit < cfg.portW ∧ ∃ x ∈ cfg.descs i, x.bit = (chanDesc cfg i c).bit) = true := by
        simp only [decide_eq_true_eq]; exact ⟨hx.1, _, hm, rfl⟩
      rw [hd] at this
      simpa using this
    have hmk : (mask cfg.portW (cfg.descs i)).getLsbD (chanDesc cfg i c).bit = true := by
      rw [mask_getLsbD]; simp only [decide_eq_true_eq]; exact ⟨hx.1, _, hm, rfl⟩
    have hof : writeOffset cfg i c = 0 := by cases i <;> simp_all [writeOffset, Instr.sharedPort]
    have hacts : ∃ bits, commandActs i d = portActs (cfg.descs i) bits d ∧
        (snapPat d.other ((cfg.descs i).zip bits)).getLsbD (chanDesc cfg i c).bit = chanGet d.b c := by
      cases i with
      | emit1 => cases hs
      | emit2 => cases hs
      | emit3 =>
        refine ⟨_, rfl, ?_⟩
        rw [snapPat_getLsbD, hoc]
        have h1 := hpt cfg.desc3.1 (by simp [Config.descs])
        have h2 := hpt cfg.desc3.2.1 (by simp [Config.descs])
        have h3 := hpt cfg.desc3.2.2 (by simp [Config.descs])
        obtain ⟨P, hPe⟩ : ∃ P, sharedPortId (cfg.descs .emit3) = P := ⟨_, rfl⟩
        rw [hPe] at h1 h2 h3
        simp only [Config.descs, List.nodup_cons, List.mem_cons, desc_eq_iff, List.not_mem_nil] at hn
        fin_cases c <;> simp [Instr.chans] at hc <;>
          simp_all [chanDesc, Config.descs, chanGet] <;> grind
      | emit4 =>
        refine ⟨_, rfl, ?_⟩
        rw [snapPat_getLsbD, hoc]
        have h1 := hpt cfg.desc4.1 (by simp [Config.descs])
        have h2 := hpt cfg.desc4.2.1 (by simp [Config.descs])
        have h3 := hpt cfg.desc4.2.2.1 (by simp [Config.descs])
        have h4 := hpt cfg.desc4.2.2.2 (by simp [Config.descs])
        obtain ⟨P, hPe⟩ : ∃ P, sharedPortId (cfg.descs .emit4) = P := ⟨_, rfl⟩
        rw [hPe] at h1 h2 h3 h4
        simp only [Config.descs, List.nodup_cons, List.mem_cons, desc_eq_iff, List.not_mem_nil] at hn
        fin_cases c <;> simp [Instr.chans] at hc <;>
          simp_all [chanDesc, Config.descs, chanGet] <;> grind
    obtain ⟨bits, hb, hv⟩ := hacts
    unfold pinLevel
    rw [hb, portGet_portActs _ _ _ _ _ hP, hof]
    have hpp : (chanDesc cfg i c).port = sharedPortId (cfg.descs i) := hpt _ hm
    simp only [hpp, if_true, Nat.add_zero]
    split
    · simp [snapLo, hoc]
    · split
      · exact hv
      · split
        · simp [snapHi, hmk]
        · rfl

end Sys2Proof.Machine
end

