-- ==== Sys2Proof/Laws/PerInstr.lean ====
section
/-! SUPPORT. One lemma per command about its encoding: a family of statements with one case per constructor. -/

namespace Sys2Proof.Laws.Encoding

open Sys2Proof

/-- The command word of a command is reserved in no bit, holds NCH - 1 in VARIANT, and decodes to the command, whatever
byte follows it (R60). -/
def Statement (i : Instr) : Prop :=
  rsvField (encodeWord i) = 0#6 ∧ (variantField (encodeWord i)).toNat + 1 = i.nch ∧
  decodeWord (encodeWord i) = some i ∧ ∀ rest, decode (encode i ++ rest) = .command i rest

theorem emit1 : Statement .emit1 := ⟨rfl, rfl, rfl, fun _ => rfl⟩
theorem emit2 : Statement .emit2 := ⟨rfl, rfl, rfl, fun _ => rfl⟩
theorem emit3 : Statement .emit3 := ⟨rfl, rfl, rfl, fun _ => rfl⟩
theorem emit4 : Statement .emit4 := ⟨rfl, rfl, rfl, fun _ => rfl⟩

end Sys2Proof.Laws.Encoding
end

