-- ==== Sys2Proof/Tests/Slice0.lean ====
section
/-! SUPPORT. Tests against the spec's worked examples and vectors, the smoke test of WellFormed, and a witness for the
hypotheses of every statement. Expected values are those of 95_test_vectors.md and of the rules named. -/

namespace Sys2Proof.Tests

open Sys2Proof Sys2Proof.Machine Sys2Proof.Safety

/-! ## Helpers -/

/-- What a function sees of a next state. -/
def seen {α : Type} (f : State → α) : Host.Outcome State Fault Refusal → Option α
  | .next t => some (f t)
  | .fault _ => none
  | .refused _ => none

/-- Why an outcome was refused. -/
def whyRefused : Host.Outcome State Fault Refusal → Option Refusal
  | .next _ => none
  | .fault _ => none
  | .refused r => some r

/-- The instance of the programs P1 to P4. -/
abbrev p16 : Config := Config.p16

/-- Ready for any command: reset, then COUNT = 1 and four buffers. -/
def ready : Data p16 := { Data.reset p16 with count := 1, ptr := ⟨0x0100, 0x0200, 0x0300, 0x0400⟩, ie := true }

/-- ENTRY of a command, with this many channels fetched. -/
def inEntry (i : Instr) (n : BitVec 3) : Data p16 :=
  { ready with fsm := .entry, active := i, ecnt := n, bytesLeft := 3, ie := false, ieSaved := true }

/-- RUN of a command at this window cycle of window `x` of a byte. -/
def inRun (i : Instr) (x : BitVec 3) (w : Nat) : Data p16 :=
  { ready with fsm := .run, active := i, bitix := x, tcnt := w, bytesLeft := 3, ie := false, ieSaved := true }

/-- EXIT of a command. -/
def inExit (i : Instr) : Data p16 := { ready with fsm := .exit, active := i, ie := false, ieSaved := true }

/-! ## WellFormed refuses an ill-formed instance, one for each check (R6, R72, 95_test_vectors.md 2.5) -/

theorem test_p16_wellFormed : [Instr.emit1, .emit2, .emit3, .emit4].all (Instr.wellFormed p16) = true := by decide
theorem test_refuses_tShort_zero : Config.wellBuilt { p16 with tShort := 0 } = false := by decide
theorem test_refuses_tLong_not_above : Config.wellBuilt { p16 with tLong := 4 } = false := by decide
theorem test_refuses_no_ports : Config.wellBuilt { p16 with nports := 0 } = false := by decide
theorem test_refuses_bit_out_of_range : Config.wellBuilt { p16 with desc1 := ⟨0, 8⟩ } = false := by decide
theorem test_refuses_port_out_of_range : Config.wellBuilt { p16 with desc1 := ⟨2, 0⟩ } = false := by decide
theorem test_refuses_equal_pins : Config.wellBuilt { p16 with desc2 := (⟨0, 1⟩, ⟨0, 1⟩) } = false := by decide
theorem test_refuses_emit3_two_ports :
    Config.wellBuilt { p16 with desc3 := (⟨0, 0⟩, ⟨1, 1⟩, ⟨0, 2⟩) } = false := by decide
/-- R72: an instance that cannot be built is not constructed, and no step of it has a meaning. -/
theorem test_refuses_to_build :
    State.build { p16 with desc1 := ⟨0, 8⟩ } = none ∧ (State.build p16).isSome = true ∧
    whyRefused (step ⟨{ p16 with tShort := 0 }, Data.reset { p16 with tShort := 0 }⟩) = some .illFormedInstance := by decide
/-- 2.5: "With SKEW2 = 1 and T_SHORT = 1 the constraint SKEW2 < T_SHORT fails". -/
theorem test_refuses_skew : Instr.wellFormed { p16 with tShort := 1 } .emit2 = false := by decide
/-- 2.5: T_SHORT = 2, T_LONG = 3 with NCH = 4 is refused, T_SHORT = 2, T_LONG = 4 is legal. -/
theorem test_refuses_short_window :
    Instr.wellFormed { p16 with tShort := 2, tLong := 3 } .emit4 = false ∧
    Instr.wellFormed { p16 with tShort := 2, tLong := 4 } .emit4 = true := by decide

/-! ## Decode: each command's word written out from R60, and the reserved words of 2.1 -/

theorem test_decode_emit1 : decode [0b00000000#8] = .command .emit1 [] := by decide
theorem test_decode_emit2 : decode [0b00000001#8] = .command .emit2 [] := by decide
theorem test_decode_emit3 : decode [0b00000010#8] = .command .emit3 [] := by decide
theorem test_decode_emit4 : decode [0b00000011#8] = .command .emit4 [] := by decide
theorem test_decode_reserved :
    decode [0x04#8] = .reserved 0x04#8 ∧ decode [0x80#8] = .reserved 0x80#8 ∧
    decode [0x43#8] = .reserved 0x43#8 ∧ decode [0xFF#8] = .reserved 0xFF#8 ∧ decode [] = .noWord := by decide
theorem test_table_words :
    (List.range 6).map (decodeTableWord 8) =
      [some .emit1, some .emit2, some .emit3, some .emit4, none, none] := by decide

/-! ## The assembler: the encodings of P1 and P3, and the lines it refuses -/

theorem test_assemble_P1 :
    assemble p16 (.emit (some .emit1) [⟨0, 3⟩] [0x0100] 1) =
      .ops [.writeReg 2 0x0001, .writeReg 4 0x0100, .writeReg 0 0x00] := by decide
theorem test_assemble_P3_pseudo :
    assemble p16 (.emit none [⟨0, 0⟩, ⟨0, 1⟩, ⟨0, 2⟩] [0x0300, 0x0310, 0x0320] 1) =
      .ops [.writeReg 2 1, .writeReg 4 0x0300, .writeReg 5 0x0310, .writeReg 6 0x0320, .writeReg 0 2] := by decide
theorem test_assemble_refuses :
    assemble p16 (.emit (some .emit1) [⟨0, 4⟩] [0x0100] 1) = .error .descriptorsDiffer ∧
    assemble p16 (.emit none [] [] 1) = .error .badChannelCount ∧
    assemble p16 (.emit (some .emit1) [⟨0, 3⟩] [] 1) = .error .pointersMissing := by decide

/-! ## Operands, flags and snapshots -/

/-- 2.3: the shifts of 0xA5. -/
theorem test_shift_A5 : (List.range 8).map (fun m => (shiftByte^[m]) 0xA5#8) =
    [0xA5#8, 0x4A#8, 0x94#8, 0x28#8, 0x50#8, 0xA0#8, 0x40#8, 0x80#8] := by decide
/-- 2.4: COUNT = 65535 gives BYTES_LEFT = 196605 = 0x2FFFD. -/
theorem test_byteCount_max : (byteCount (cfg := p16) 0xFFFF#16).toNat = 0x2FFFD := by decide
/-- 2.6, the third EMIT3 row: bits 7, 3, 0, PORT = 0xFF. -/
theorem test_snapshots_emit3 :
    mask 8 [⟨0, 7⟩, ⟨0, 3⟩, ⟨0, 0⟩] = 0x89#8 ∧ sampleOther 0xFF#8 [⟨0, 7⟩, ⟨0, 3⟩, ⟨0, 0⟩] = 0x76#8 ∧
    snapHi 0x76#8 [⟨0, 7⟩, ⟨0, 3⟩, ⟨0, 0⟩] = 0xFF#8 ∧
    snapPat 0x76#8 [(⟨0, 7⟩, false), (⟨0, 3⟩, true), (⟨0, 0⟩, false)] = 0x7E#8 := by decide
/-- 2.6, the third EMIT4 row: bits 0, 2, 4, 6, PORT = 0xAA. -/
theorem test_snapshots_emit4 :
    sampleOther 0xAA#8 [⟨0, 0⟩, ⟨0, 2⟩, ⟨0, 4⟩, ⟨0, 6⟩] = 0xAA#8 ∧
    snapPat 0xAA#8 [(⟨0, 0⟩, true), (⟨0, 2⟩, false), (⟨0, 4⟩, false), (⟨0, 6⟩, true)] = 0xEB#8 := by decide
/-- Memory: a store, another, and a store of the unwritten byte, which removes the entry. -/
theorem test_memory :
    memPut 0 (memPut 0 [] 5 7) 3 9 = [(3, 9), (5, 7)] ∧ memPut 0 [(3, 9), (5, 7)] 3 0 = [(5, 7)] ∧
    memByte 0 [(3, 9), (5, 7)] 5 = 7 ∧ memByte 0 [(3, 9), (5, 7)] 4 = 0 := by decide

/-! ## One cycle of each command -/

/-- 2.7: the cursor wraps from 0xFFFF to 0x0000 in ENTRY. -/
theorem test_emit1_cursor_wraps :
    seen (fun t => (t.data.fsm, t.data.cur.c0.toNat))
      (exec .emit1 ⟨p16, { inEntry .emit1 0 with cur := ⟨0xFFFF, 0, 0, 0⟩ }⟩) = some (.run, 0) := by decide
/-- P2: at +5 channel 1's data write, a 1, to P1.5, and no write to P0.1. -/
theorem test_emit2_skewed_data_write :
    seen (fun t => (t.data.ports.map BitVec.toNat))
      (exec .emit2 ⟨p16, { inRun .emit2 0 5 with b := ⟨false, true, false, false⟩, ports := [0x00, 0x81] }⟩) =
      some [0x00, 0xA1] := by decide
/-- P2: at +142, window cycle 2 of an eighth window, the read of channel 1. -/
theorem test_emit2_fetch_of_channel_1 :
    seen (fun t => (t.data.cur.c0.toNat, t.data.cur.c1.toNat, t.data.sh.c1.toNat))
      (exec .emit2 ⟨p16, { inRun .emit2 7 2 with cur := ⟨0x0201, 0x0211, 0, 0⟩, mem := [(0x0211, 0xFF)] }⟩) =
      some (0x0201, 0x0212, 0xFF) := by decide
/-- 43_triple_channel.md, worked example: PAT = 0xA5. -/
theorem test_emit3_data_write :
    seen (fun t => (t.data.ports.map BitVec.toNat))
      (exec .emit3 ⟨p16, { inRun .emit3 0 4 with
        b := ⟨true, false, true, false⟩, other := 0xA0, ports := [0xA7, 0x00] }⟩) = some [0xA5, 0x00] := by decide
/-- R25: OTHER is sampled at accept, PORT[0] = 0xA5 with targets 0, 1, 2. -/
theorem test_emit3_samples_other :
    seen (fun t => t.data.other.toNat) (exec .emit3 ⟨p16, { ready with ports := [0xA5, 0x00] }⟩) = some 0xA0 := by
  decide
/-- 44_quad_channel.md, worked example: PAT = 0x69 on port 1. -/
theorem test_emit4_data_write :
    seen (fun t => (t.data.ports.map BitVec.toNat))
      (exec .emit4 ⟨p16, { inRun .emit4 0 4 with
        b := ⟨false, true, true, false⟩, other := 0x09, ports := [0x00, 0xF9] }⟩) = some [0x00, 0x69] := by decide
/-- R93: the end of the last byte's eighth window. -/
theorem test_emit4_last_window :
    seen (fun t => (t.data.fsm, t.data.bytesLeft.toNat, t.data.bitix.toNat, t.data.tcnt))
      (exec .emit4 ⟨p16, { inRun .emit4 7 19 with bytesLeft := 1 }⟩) = some (.exit, 0, 0, 0) := by decide
/-- R177: in an eighth window the data write sends B, not the byte already fetched into SH. -/
theorem test_emit1_data_write_uses_latch :
    seen (fun t => pinLevel t.data.ports 0 3)
      (exec .emit1 ⟨p16, { inRun .emit1 7 4 with b := ⟨false, false, false, false⟩, sh := ⟨0x80, 0, 0, 0⟩,
                                                 ports := [0x08, 0x00] }⟩) = some false := by decide
/-- R144, 2.8: IE is restored to 0 when it was 0 before, by every command. -/
theorem test_exit_restores_not_sets :
    [Instr.emit1, .emit2, .emit3, .emit4].map (fun i =>
      seen (fun t => (t.data.fsm, t.data.ie)) (exec i ⟨p16, { inExit i with ieSaved := false }⟩)) =
      [some (.idle, false), some (.idle, false), some (.idle, false), some (.idle, false)] := by decide

/-! ## The step from reset, refusals and reset -/

theorem test_first_step_runs_emit3 :
    seen (fun t => (t.data.fsm, t.data.active)) (step (State.reset.withFetchWord 8 2)) = some (.entry, .emit3) := by
  decide
theorem test_first_step_refuses_reserved :
    whyRefused (step (State.reset.withFetchWord 8 0x43)) = some (.reservedCommand 0x43#8) := by decide
/-- P5: COUNT = 0. -/
theorem test_zero_count : whyRefused (exec .emit1 ⟨p16, { ready with count := 0 }⟩) = some .zeroCount := by decide
/-- P5, the second refusal: a memory that admits only 0x0100 .. 0x0102. -/
theorem test_missing_pad_byte :
    whyRefused (exec .emit1 ⟨{ p16 with regions := [⟨0x0100, 3, .plain⟩] },
      { Data.reset { p16 with regions := [⟨0x0100, 3, .plain⟩] } with count := 1, ptr := ⟨0x0100, 0, 0, 0⟩ }⟩) =
      some (.unreadableBuffer 0x0103) := by decide
/-- The nearest launch that is accepted: the pad byte is there. -/
theorem test_pad_byte_there :
    seen (fun t => t.data.fsm) (exec .emit1 ⟨{ p16 with regions := [⟨0x0100, 4, .plain⟩] },
      { Data.reset { p16 with regions := [⟨0x0100, 4, .plain⟩] } with count := 1, ptr := ⟨0x0100, 0, 0, 0⟩ }⟩) =
      some .entry := by decide
theorem test_reset_in_frame :
    seen (fun t => (t.data.fsm, t.data.ie, t.data.ports.map BitVec.toNat))
      (step ⟨p16, { inRun .emit1 0 1 with resetIn := [true], ports := [0x08, 0x00] }⟩) =
      some (.idle, false, [0x08, 0x00]) := by decide

/-! ## The line code (2.2) and durations (R7) -/

theorem test_bits_A5 : bitsOfByte 0xA5#8 = [true, false, true, false, false, true, false, true] := by decide
theorem test_pulses_A5 :
    (pulseTrain p16 0 (bitsOfByte 0xA5#8)).map (fun q => q.2 - q.1) = [16, 4, 16, 4, 4, 16, 4, 16] := by decide
theorem test_receive_A5 : receivePulses p16 (pulseTrain p16 7 (bitsOfBytes [0xA5#8, 0x01#8])) = some [0xA5#8, 0x01#8] := by
  decide
theorem test_pixels : pixelsOfBytes [1#8, 2#8, 3#8, 4#8, 5#8, 6#8] = some [(1#8, 2#8, 3#8), (4#8, 5#8, 6#8)] := by decide
/-- R7: at P16 T_SHORT is 250 ns and one cycle is 62.5 ns. -/
theorem test_durations : cyclesToNs p16 4 = 250 ∧ cyclesToNs p16 1 = 125 / 2 := by
  norm_num [cyclesToNs, Config.p16]
/-- P4: low since the fall issued at 481, first rise at 1291: a gap of 810 cycles is kept for T_LATCH = 800, and one
that ends 11 cycles earlier is not. -/
theorem test_latch_gap :
    latchGapKept { ready with trace := [⟨465, .out (.pinWrite 0 3 true)⟩, ⟨481, .out (.pinWrite 0 3 false)⟩] } 0 3 1291 = true ∧
    latchGapKept { ready with trace := [⟨465, .out (.pinWrite 0 3 true)⟩, ⟨481, .out (.pinWrite 0 3 false)⟩] } 0 3 1280 = false := by
  decide

/-! ## Witnesses: for each statement with hypotheses, a state and operands that meet all of them -/

theorem wit_launchReady_emit1 : LaunchReady .emit1 ready ∧ PortsExist ready := by decide
theorem wit_launchReady_emit2 : LaunchReady .emit2 ready ∧ PortsExist ready := by decide
theorem wit_launchReady_emit3 : LaunchReady .emit3 ready ∧ PortsExist ready := by decide
theorem wit_launchReady_emit4 : LaunchReady .emit4 ready ∧ PortsExist ready := by decide

theorem wit_Emit1Accepts : LaunchReady .emit1 ready := wit_launchReady_emit1.1
theorem wit_Emit2Accepts : LaunchReady .emit2 ready := wit_launchReady_emit2.1
theorem wit_Emit3Accepts : LaunchReady .emit3 ready := wit_launchReady_emit3.1
theorem wit_Emit4Accepts : LaunchReady .emit4 ready := wit_launchReady_emit4.1
theorem wit_FrameCompletes : LaunchReady .emit1 ready := wit_launchReady_emit1.1
theorem wit_FrameEndState : LaunchReady .emit2 ready ∧ PortsExist ready ∧ NotTarget p16 .emit2 1 4 :=
  ⟨wit_launchReady_emit2.1, wit_launchReady_emit2.2, by decide⟩
theorem wit_FrameEndState_shared :
    LaunchReady .emit4 ready ∧ PortsExist ready ∧ NotTarget p16 .emit4 1 3 ∧ Instr.emit4.sharedPort = true :=
  ⟨wit_launchReady_emit4.1, wit_launchReady_emit4.2, by decide, rfl⟩
theorem wit_FramePinWrites : LaunchReady .emit2 ready ∧ (1 : Chan) ∈ Instr.emit2.chans :=
  ⟨wit_launchReady_emit2.1, by decide⟩
/-- A channel of the command and the first one that is none of its. -/
theorem wit_FrameReads : LaunchReady .emit3 ready ∧ (2 : Chan) ∈ Instr.emit3.chans ∧ (3 : Chan) ∉ Instr.emit3.chans :=
  ⟨wit_launchReady_emit3.1, by decide, by decide⟩
theorem wit_FrameInterruptWrites : LaunchReady .emit4 ready ∧ ready.ie = true := ⟨wit_launchReady_emit4.1, rfl⟩
/-- Two memories that differ in a byte that is sent. -/
theorem wit_TimingIndependentOfData :
    LaunchReady .emit1 ready ∧ memRead { ready with mem := [(0x0100, 0xFF)] } 0x0100 ≠ memRead ready 0x0100 := by decide

theorem wit_AssembledLineLoadsOperands :
    let d : Data p16 := { ready with host := launchOps .emit1 [0xFFFF] 0xFFFF ++ [.idle], resetIn := [false, false, true] }
    p16.wellBuilt = true ∧ d.fsm = .idle ∧ NoResetFor 2 d ∧ [0xFFFF].length = Instr.emit1.nch ∧ (∀ p ∈ [0xFFFF], p < 2 ^ p16.addrW) ∧
      0xFFFF < 2 ^ p16.countW ∧
      assemble p16 (.emit none (p16.descs .emit1) [0xFFFF] 0xFFFF) = .ops (launchOps .emit1 [0xFFFF] 0xFFFF) ∧
      assemble p16 (.emit (some .emit1) (p16.descs .emit1) [0xFFFF] 0xFFFF) = .ops (launchOps .emit1 [0xFFFF] 0xFFFF) ∧
      d.host = launchOps .emit1 [0xFFFF] 0xFFFF ++ [.idle] := by decide
theorem wit_IdleDirective :
    let d : Data p16 := { ready with host := [.idle, .idle, .readReg 1], resetIn := [false, false, true] }
    p16.wellBuilt = true ∧ d.fsm = .idle ∧ NoResetFor 2 d ∧ assemble p16 (.idle 2) = .ops [.idle, .idle] ∧
      d.host = [.idle, .idle] ++ [.readReg 1] ∧ 2 ≤ 2 := by decide
theorem wit_ResetAbandonsFrame : 
    p16.wellBuilt = true ∧ ({ inRun .emit4 3 9 with resetIn := [true, false] } : Data p16).resetIn = true :: [false] := by
  decide
/-- A frame in progress that satisfies the invariant. -/
theorem wit_ResetAbandonsFrame_inv :
    let d : Data p16 := { inRun .emit4 3 9 with resetIn := [true] }
    Inv ⟨p16, d⟩ ∧ d.fsm ≠ .idle :=
  ⟨⟨by decide, by decide, by decide, by decide, by decide, by decide⟩, by decide⟩
/-- No operation left, and a cycle the host lets pass with the reset input sampled low. -/
theorem wit_IdleKeepsEverything :
    let d : Data p16 := { ready with host := [.idle], resetIn := [false, true] }
    HostTurn ready ∧ ready.host.head? = none ∧ HostTurn d ∧ d.host.head? = some .idle := by decide
/-- COUNT at the top of its range. -/
theorem wit_OperandRegisters_count :
    let d : Data p16 := { ready with host := [.writeReg 2 65535] }
    HostTurn d ∧ 65535 < 2 ^ p16.countW ∧ d.host = .writeReg 2 65535 :: [] := by decide
/-- PTR[3], the last register, at the top of its range. -/
theorem wit_OperandRegisters_ptr :
    let d : Data p16 := { ready with host := [.writeReg 7 65535] }
    HostTurn d ∧ 65535 < 2 ^ p16.addrW ∧ d.host = .writeReg (4 + (3 : Chan).val) 65535 :: [] := by
  decide
/-- STATUS, the first number of the readable registers, and PTR[3], the last. -/
theorem wit_HostReadsRegisters :
    let d (n : Nat) : Data p16 := { ready with host := [.readReg n] }
    HostTurn (d 1) ∧ HostTurn (d 7) ∧ (d 1).host = .readReg 1 :: [] ∧ (d 7).host = .readReg 7 :: [] ∧
      (7 = 1 ∨ 7 = 2 ∨ (4 ≤ 7 ∧ 7 ≤ 7)) := by decide
/-- The last port and the top of its range. -/
theorem wit_HostWritesPortAndEnable :
    let d : Data p16 := { ready with host := [.setPort 1 255] }
    let e : Data p16 := { ready with host := [.setIE false] }
    HostTurn d ∧ 1 < p16.nports ∧ 255 < 2 ^ p16.portW ∧ d.host = .setPort 1 255 :: [] ∧
      1 < d.ports.length ∧ HostTurn e ∧ e.host = .setIE false :: [] := by decide
/-- CMD, STATUS, the gap in the map, and the first number above its last register, with the last listed one beside it. -/
theorem wit_ForbiddenRegisterAccesses :
    let d (op : HostOp) : Data p16 := { ready with host := [op] }
    HostTurn (d (.readReg 0)) ∧ HostTurn (d (.writeReg 1 0)) ∧ HostTurn (d (.writeReg 3 0)) ∧ HostTurn (d (.readReg 8)) ∧
      8 ≤ 8 ∧ regValue ready 8 = none ∧ regValue ready 7 = some 0x0400 := by decide
theorem wit_StatusAndHeldHost :
    (inExit .emit1).fsm ≠ .idle ∧ (seen (fun t => t.data.fsm) (step ⟨p16, inExit .emit1⟩)).isSome = true := by decide
theorem wit_StoredByteIsRead :
    let d : Data p16 := { ready with host := [.store (0xFFFF#16).toNat 0x3C], mem := [(0x0100, 0xA5)] }
    HostTurn d ∧ d.host = .store (0xFFFF#16).toNat 0x3C :: [] ∧ Memory.wf p16 d.mem = true ∧
      readRefusal p16 (0xFFFF#16).toNat = none := by decide
theorem wit_BlockNeverWritesMemory :
    (seen (fun t => t.data.mem) (exec .emit1 ⟨p16, { inRun .emit1 7 1 with mem := [(1, 2)] }⟩)) = some [(1, 2)] := by decide
/-- The last port and the top bit; another bit of the same port. -/
theorem wit_PinWriteOneBit :
    1 < [0x00#8, 0x81#8].length ∧ 7 < 8 ∧ (1, 6) ≠ (1, 7) ∧ instanceOk p16 .emit2 = true := by decide
/-- A step in which the host stores. -/
theorem wit_BlockNeverWritesMemory_step :
    (seen (fun t => t.data.mem) (step ⟨p16, { ready with host := [.store 1 2] }⟩)) = some [(1, 2)] := by decide
theorem wit_PortWriteWholeRegister :
    1 < [0x00#8, 0x81#8].length ∧ Instr.emit4.sharedPort = true ∧ commandActs .emit4 (inRun .emit4 0 0) ≠ [] := by decide
theorem wit_PatLanes_emit3 : Instr.emit3.sharedPort = true ∧ p16.descsLegal .emit3 = true := by decide
theorem wit_PatLanes_emit4 :
    Instr.emit4.sharedPort = true ∧ p16.descsLegal .emit4 = true ∧ (3 : Chan) ∈ Instr.emit4.chans ∧
      (mask p16.portW (p16.descs .emit4)).getLsbD 3 = false := by decide
theorem wit_LoAndHiSnapshots : Instr.emit4.sharedPort = true ∧ p16.descsLegal .emit4 = true := by decide
theorem wit_ShiftExposesNextBit : 0 ≤ 7 ∧ 7 ≤ 7 := by decide
/-- The last channel of EMIT4. -/
theorem wit_EntryCycleFetches :
    instanceOk p16 .emit4 = true ∧ (inEntry .emit4 3).fsm = .entry ∧ (inEntry .emit4 3).active = .emit4 ∧
      (inEntry .emit4 3).ecnt.toNat = (3 : Chan).val ∧ (3 : Chan).val < Instr.emit4.nch ∧
      readRefusal p16 (chanGet (inEntry .emit4 3).cur 3).toNat = none := by decide
/-- The last cycle of an eighth window, and a cycle that fetches. -/
theorem wit_RunCycleSchedule_last :
    instanceOk p16 .emit4 = true ∧ (inRun .emit4 7 19).fsm = .run ∧ (inRun .emit4 7 19).active = .emit4 ∧
      (inRun .emit4 7 19).tcnt < p16.tBit ∧ (inRun .emit4 7 19).bytesLeft ≠ 0 ∧
      ∀ c ∈ Instr.emit4.chans, (inRun .emit4 7 19).bitix = 7 → (inRun .emit4 7 19).tcnt = 1 + c.val →
        readRefusal p16 (chanGet (inRun .emit4 7 19).cur c).toNat = none := by decide
theorem wit_RunCycleSchedule_fetch :
    (inRun .emit4 7 4).fsm = .run ∧ (inRun .emit4 7 4).tcnt < p16.tBit ∧ (inRun .emit4 7 4).bytesLeft ≠ 0 ∧
      ∀ c ∈ Instr.emit4.chans, (inRun .emit4 7 4).bitix = 7 → (inRun .emit4 7 4).tcnt = 1 + c.val →
        readRefusal p16 (chanGet (inRun .emit4 7 4).cur c).toNat = none := by decide
theorem wit_WritesOfOneCycle : Instr.emit2.sharedPort = false ∧ Instr.emit3.sharedPort = true := by decide
theorem wit_ExitRestoresInterrupts :
    instanceOk p16 .emit1 = true ∧ (inExit .emit1).fsm = .exit ∧ (inExit .emit1).active = .emit1 := by decide
theorem wit_CommandCycleFrame_accept : (seen (fun _ => ()) (exec .emit1 ⟨p16, ready⟩)).isSome = true := by decide
theorem wit_CommandCycleFrame_run : (seen (fun _ => ()) (exec .emit2 ⟨p16, inRun .emit2 0 5⟩)).isSome = true := by decide
theorem wit_PinCommandsTouchOnlyTargets :
    Instr.emit2.sharedPort = false ∧ (seen (fun _ => ()) (exec .emit2 ⟨p16, inRun .emit2 0 5⟩)).isSome = true ∧
      NotTarget p16 .emit2 1 4 := by decide
theorem wit_SharedCommandsTouchOnePort :
    Instr.emit3.sharedPort = true ∧ (seen (fun _ => ()) (exec .emit3 ⟨p16, inRun .emit3 0 5⟩)).isSome = true ∧
      1 ≠ sharedPortId (p16.descs .emit3) ∧ (inRun .emit3 0 5).tcnt ≠ 0 ∧ (inRun .emit3 0 5).tcnt ≠ p16.tShort ∧
      (inRun .emit3 0 5).tcnt ≠ p16.tLong := by decide
theorem wit_StepRunsDecodedCommand :
    let d : Data p16 := { ready with host := [.writeReg 0 (0x03#8).toNat], resetIn := [false, true] }
    d.fsm = .idle ∧ resetApplied d = false ∧ d.host = .writeReg 0 (0x03#8).toNat :: [] ∧
      decode [0x03#8] = .command .emit4 [] := by decide
theorem wit_BusyStepRunsActiveCommand :
    let d : Data p16 := { inEntry .emit1 0 with resetIn := [false] }
    d.fsm ≠ .idle ∧ resetApplied d = false := by decide
theorem wit_FrameNeverBlocks_inv : Inv ⟨p16, inEntry .emit4 3⟩ :=
  ⟨by decide, by decide, by decide, by decide, by decide, by decide⟩
theorem wit_FrameNeverBlocks_memory : ∀ a : BitVec p16.addrW, readRefusal p16 a.toNat = none := by
  intro a
  have h : a.toNat < 65536 := a.isLt
  simp [readRefusal, Config.p16, regionKind, h]
theorem wit_FrameNeverBlocks :
    Inv ⟨p16, inEntry .emit4 3⟩ ∧ (inEntry .emit4 3).fsm ≠ .idle ∧ resetApplied (inEntry .emit4 3) = false ∧
      ∀ a : BitVec p16.addrW, readRefusal p16 a.toNat = none :=
  ⟨wit_FrameNeverBlocks_inv, by decide, by decide, wit_FrameNeverBlocks_memory⟩
theorem wit_ReservedWordRefused :
    let d : Data p16 := { ready with host := [.writeReg 0 (0x04#8).toNat] }
    HostTurn d ∧ d.host = .writeReg 0 (0x04#8).toNat :: [] ∧ (0x04#8).extractLsb' 2 6 ≠ 0#6 := by
  decide
theorem wit_ZeroCountRefused :
    instanceOk p16 .emit1 = true ∧ ({ ready with count := 0 } : Data p16).fsm = .idle ∧
      ({ ready with count := 0 } : Data p16).count = 0 := by decide
/-- The over-read address, k = 3×COUNT, is the one that is not readable. -/
theorem wit_BadReadSetRefused :
    let cfg : Config := { p16 with regions := [⟨0x0100, 3, .plain⟩] }
    let d : Data cfg := { Data.reset cfg with count := 1, ptr := ⟨0x0100, 0, 0, 0⟩ }
    instanceOk cfg .emit1 = true ∧ d.fsm = .idle ∧ d.count ≠ 0 ∧ (0 : Chan) ∈ Instr.emit1.chans ∧
      3 ≤ 3 * d.count.toNat ∧ readRefusal cfg (byteAddr (chanGet d.ptr 0) 3).toNat ≠ none := by decide
/-- The first address of the read set is a device's. -/
theorem wit_BadReadSetRefused_device :
    let cfg : Config := { p16 with regions := [⟨0x0100, 1, .device⟩, ⟨0, 65536, .plain⟩] }
    let d : Data cfg := { Data.reset cfg with count := 1, ptr := ⟨0x0100, 0, 0, 0⟩ }
    instanceOk cfg .emit1 = true ∧ d.fsm = .idle ∧ d.count ≠ 0 ∧ (0 : Chan) ∈ Instr.emit1.chans ∧
      0 ≤ 3 * d.count.toNat ∧ readRefusal cfg (byteAddr (chanGet d.ptr 0) 0).toNat = some (.sideEffectBuffer 0x0100) ∧
      whyRefused (exec .emit1 ⟨cfg, d⟩) = some (.sideEffectBuffer 0x0100) := by decide
/-- One instance for each way to be ill-formed. -/
theorem wit_IllFormedInstanceRefused :
    ({ p16 with tShort := 0 } : Config).tShort = 0 ∧
    ({ p16 with tLong := 4 } : Config).tLong ≤ ({ p16 with tLong := 4 } : Config).tShort ∧
    ({ p16 with tShort := 2, tLong := 3 } : Config).tShort + 3 < Instr.emit4.nch + 2 ∧
    ({ p16 with skew2 := 4 } : Config).tShort ≤ 4 ∧ ({ p16 with nports := 0 } : Config).nports = 0 ∧
    (∃ x ∈ ({ p16 with desc1 := ⟨0, 8⟩ } : Config).descs .emit1, p16.portW ≤ x.bit) ∧
    ¬ (({ p16 with desc2 := (⟨0, 1⟩, ⟨0, 1⟩) } : Config).descs .emit2).Nodup ∧
    (∃ x ∈ ({ p16 with desc3 := (⟨0, 0⟩, ⟨1, 1⟩, ⟨0, 2⟩) } : Config).descs .emit3,
      ∃ y ∈ ({ p16 with desc3 := (⟨0, 0⟩, ⟨1, 1⟩, ⟨0, 2⟩) } : Config).descs .emit3, x.port ≠ y.port) := by decide
theorem wit_OtherCommandWhileBusyRefused :
    instanceOk p16 .emit1 = true ∧ (inRun .emit2 0 0).fsm ≠ .idle ∧ (inRun .emit2 0 0).active ≠ .emit1 := by decide
/-- The invariant in RUN after a fall, and in EXIT; each has a next state. -/
theorem wit_StepKeepsInvariant_run :
    Inv ⟨p16, inRun .emit3 7 19⟩ ∧ (seen (fun _ => ()) (step ⟨p16, inRun .emit3 7 19⟩)).isSome = true :=
  ⟨⟨by decide, by decide, by decide, by decide, by decide, by decide⟩, by decide⟩
theorem wit_StepKeepsInvariant_exit :
    Inv ⟨p16, { inExit .emit4 with bytesLeft := 0 }⟩ ∧
      (seen (fun _ => ()) (step ⟨p16, { inExit .emit4 with bytesLeft := 0 }⟩)).isSome = true :=
  ⟨⟨by decide, by decide, by decide, by decide, by decide, by decide⟩, by decide⟩
theorem wit_StepKeepsInstance : (seen (fun _ => ()) (step State.reset)).isSome = true := by decide
/-- A target pin that is high before the frame. -/
theorem wit_PinsLowOnReturn :
    LaunchReady .emit1 { ready with ports := [0x08, 0x00] } ∧
      targetLevel .emit1 { ready with ports := [0x08, 0x00] } 0 = true := by decide
/-- The first and the last cycle of the masked interval. -/
theorem wit_FrameMasksInterrupts :
    LaunchReady .emit1 ready ∧ 1 ≤ 1 ∧ 1 ≤ frameCycles .emit1 ready - 1 ∧ 482 ≤ frameCycles .emit1 ready - 1 ∧
      ready.count = 1 := by decide
theorem wit_FrameIsReceived :
    LaunchReady .emit4 ready ∧ (3 : Chan) ∈ Instr.emit4.chans ∧ targetLevel .emit4 ready 3 = false := by decide
theorem wit_FrameSharedPortWrites : Instr.emit3.sharedPort = true ∧ LaunchReady .emit3 ready := by decide
theorem wit_FramePinWriteCount : Instr.emit1.sharedPort = false ∧ LaunchReady .emit1 ready := by decide
/-- Two memories that differ only in the over-read byte of EMIT1's buffer. -/
theorem wit_OverReadReachesNoPin :
    LaunchReady .emit1 ready ∧
      ∀ c ∈ Instr.emit1.chans, frameBytes { ready with mem := [(0x0103, 0x77)] } c = frameBytes ready c := by decide
theorem wit_StepsRunTheWholeFrame :
    let d : Data p16 := { ready with host := [.writeReg 0 (encodeWord .emit2).toNat, .idle], resetIn := [false, false] }
    LaunchReady .emit2 d ∧ NoResetFor (frameCycles .emit2 d) d ∧ d.host = .writeReg 0 (encodeWord .emit2).toNat :: [.idle] := by decide
theorem wit_LineCodeRoundTrip : p16.wellBuilt = true := by decide
theorem wit_PixelComponentWindows : 2 < 3 ∧ 7 < 8 := by decide
/-- A gap of exactly T_LATCH, and one cycle less. -/
theorem wit_LatchGapSeparatesFrames :
    p16.tLong < p16.tLatch ∧ p16.tShort < p16.tLatch ∧ (pulseTrain p16 0 [true]).getLast? = some (0, 16) ∧
      ¬ 816 - 16 < p16.tLatch ∧ 815 - 16 < p16.tLatch := by decide

end Sys2Proof.Tests
end

section
/-! PROOF. Which instances cannot be built (R6, R72), and the refusals of such an instance and of a command that does
not fit (R174). -/

namespace Sys2Proof.Machine

open Sys2Proof

variable {cfg : Config}

/-! ## The tests of R6 and R72 as propositions -/

@[simp] theorem inRange_iff {x : Desc} : x.inRange cfg = true ↔ x.bit < cfg.portW ∧ x.port < cfg.nports := by
  simp [Desc.inRange]

/-- The test of R72 (d) holds of exactly the lists that repeat no pin. -/
theorem pinsDistinct_iff_nodup {l : List Desc} : pinsDistinct l = true ↔ l.Nodup := by
  refine ⟨pinsDistinct_nodup, fun h => ?_⟩
  induction h with
  | nil => rfl
  | cons hx _ ih => simpa [pinsDistinct, ih] using fun hm => hx _ hm rfl

/-- R72 (a): the test compares with the first descriptor's port only. -/
theorem onePort_iff {l : List Desc} : onePort l = true ↔ ∀ x ∈ l, ∀ y ∈ l, x.port = y.port := by
  cases l with
  | nil => simp [onePort]
  | cons z zs =>
    have first : onePort (z :: zs) = true ↔ ∀ x ∈ z :: zs, x.port = z.port := by simp [onePort]
    rw [first]
    exact ⟨fun h x hx y hy => (h x hx).trans (h y hy).symm, fun h x hx => h x hx z List.mem_cons_self⟩

theorem descsLegal_iff {i : Instr} : cfg.descsLegal i = true ↔
    (∀ x ∈ cfg.descs i, x.bit < cfg.portW ∧ x.port < cfg.nports) ∧ (cfg.descs i).Nodup ∧
      (i.sharedPort = true → ∀ x ∈ cfg.descs i, ∀ y ∈ cfg.descs i, x.port = y.port) := by
  have shared : (!i.sharedPort || onePort (cfg.descs i)) = true ↔
      (i.sharedPort = true → ∀ x ∈ cfg.descs i, ∀ y ∈ cfg.descs i, x.port = y.port) := by
    rw [← onePort_iff]; cases i.sharedPort <;> simp
  simp only [Config.descsLegal, Bool.and_eq_true, List.all_eq_true, inRange_iff, pinsDistinct_iff_nodup, shared,
    and_assoc]

theorem wellBuilt_iff : cfg.wellBuilt = true ↔
    1 ≤ cfg.tShort ∧ cfg.tShort < cfg.tLong ∧ 1 ≤ cfg.nports ∧ ∀ i : Instr, cfg.descsLegal i = true := by
  have every : [Instr.emit1, .emit2, .emit3, .emit4].all cfg.descsLegal = true ↔
      ∀ i : Instr, cfg.descsLegal i = true := by
    rw [List.all_eq_true]
    exact ⟨fun h i => h i (by cases i <;> simp), fun h i _ => h i⟩
  simp only [Config.wellBuilt, Bool.and_eq_true, decide_eq_true_eq, every, and_assoc]

/-! ## What an ill-formed instance breaks -/

theorem descsLegal_eq_false {i : Instr} : cfg.descsLegal i = false ↔
    (∃ x ∈ cfg.descs i, cfg.portW ≤ x.bit ∨ cfg.nports ≤ x.port) ∨ ¬ (cfg.descs i).Nodup ∨
      (i.sharedPort = true ∧ ∃ x ∈ cfg.descs i, ∃ y ∈ cfg.descs i, x.port ≠ y.port) := by
  rw [← Bool.not_eq_true, descsLegal_iff]
  simp only [not_and_or, not_forall, not_lt, exists_prop, ne_eq]

theorem wellBuilt_eq_false : cfg.wellBuilt = false ↔
    cfg.tShort = 0 ∨ cfg.tLong ≤ cfg.tShort ∨ cfg.nports = 0 ∨ ∃ i : Instr, cfg.descsLegal i = false := by
  rw [← Bool.not_eq_true, wellBuilt_iff]
  simp only [not_and_or, not_forall, not_le, not_lt, Nat.lt_one_iff, Bool.not_eq_true]

theorem build_eq_none_iff_breaks : State.build cfg = none ↔
    (cfg.tShort = 0 ∨ cfg.tLong ≤ cfg.tShort ∨ cfg.nports = 0 ∨
      (∃ j : Instr, ∃ x ∈ cfg.descs j, cfg.portW ≤ x.bit ∨ cfg.nports ≤ x.port) ∨
      (∃ j : Instr, ¬ (cfg.descs j).Nodup) ∨
      (∃ j : Instr, j.sharedPort = true ∧ ∃ x ∈ cfg.descs j, ∃ y ∈ cfg.descs j, x.port ≠ y.port)) := by
  rw [build_eq_none, wellBuilt_eq_false]
  simp only [descsLegal_eq_false, exists_or]

/-! ## The refusals -/

/-- Every command meets the test of the instance before anything else. -/
theorem exec_of_instanceOk_false {i : Instr} {s : State} (h : instanceOk s.cfg i = false) :
    exec i s = .refused .illFormedInstance := by
  rw [exec_eq_sequencer, sequencer, if_pos h]

theorem step_of_wellBuilt_false {s : State} (h : s.cfg.wellBuilt = false) : step s = .refused .illFormedInstance := by
  rw [step, clockCycle, if_pos h]

theorem instanceOk_of_wellBuilt_false {i : Instr} (h : cfg.wellBuilt = false) : instanceOk cfg i = false := by
  rw [instanceOk, Instr.wellFormed, h, Bool.false_and]

/-- A command whose own constraint of R6 is broken does not fit the instance (log entry 12). -/
theorem instanceOk_of_not_fits {i : Instr}
    (h : cfg.tShort + cfg.tLong < i.nch + 2 ∨ (i = .emit2 ∧ cfg.tShort ≤ cfg.skew2)) : instanceOk cfg i = false := by
  rw [← Bool.not_eq_true]
  intro hok
  obtain ⟨_, _, hbit, _, hskew⟩ := instanceOk_counts hok
  rcases h with hlt | ⟨hi, hle⟩
  · exact absurd hbit (not_le.mpr hlt)
  · exact absurd (hskew hi) (not_lt.mpr hle)

/-- Settles O38: an instance is built exactly if it passes the tests of R6 and R72, and a command or a step of an instance
that fails its test is refused before its state is looked at. -/
theorem illFormedInstanceRefused : Obligations.IllFormedInstanceRefused := by
  unfold Obligations.IllFormedInstanceRefused
  intro cfg
  refine ⟨build_eq_none_iff_breaks, fun hnone d => ?_, fun s hs => ?_, fun i d hfit => ?_⟩
  · have hw := build_eq_none.mp hnone
    exact ⟨step_of_wellBuilt_false hw, fun i => exec_of_instanceOk_false (instanceOk_of_wellBuilt_false hw)⟩
  · obtain ⟨-, rfl⟩ := build_eq_some.mp hs
    exact ⟨rfl, rfl⟩
  · exact exec_of_instanceOk_false (instanceOk_of_not_fits hfit)

end Sys2Proof.Machine
end

section
/-! PROOF. What one cycle of a command leaves as it was, whatever its phase (R34, R42, 10_state.md section 12). -/

namespace Sys2Proof.Machine

open Sys2Proof Sys2Proof.Safety

variable {cfg : Config}

/-! ## The channel a cycle fetches, and the channel arrays after the cycle -/

theorem chanOf_eq_some_iff {n : Nat} {c : Chan} : chanOf n = some c ↔ c.val = n := by
  refine ⟨chanOf_eq_some, ?_⟩
  rintro rfl
  exact dif_pos c.isLt

theorem entryChan_eq_some_iff {n : Nat} {d : Data cfg} {c : Chan} :
    entryChan n d = some c ↔ d.ecnt.toNat = c.val ∧ c.val < n := by
  unfold entryChan
  split
  · rw [chanOf_eq_some_iff]; omega
  · simp; omega

theorem runChan_eq_some_iff {n : Nat} {d : Data cfg} {c : Chan} :
    runChan n d = some c ↔ d.bitix = 7 ∧ d.tcnt = c.val + 1 ∧ c.val < n := by
  unfold runChan
  split
  · next h => obtain ⟨hx, _, _⟩ := h; simp only [chanOf_eq_some_iff, hx, true_and]; omega
  · next h => simp only [reduceCtorEq, false_iff]; rintro ⟨hx, ht, hn⟩; exact h ⟨hx, by omega, by omega⟩

theorem lastCycle_iff {d : Data cfg} : lastCycle d = true ↔ d.tcnt + 1 = cfg.tBit := by simp [lastCycle]

theorem chanGet_fetchSh (d : Data cfg) (c c' : Chan) :
    chanGet (fetchSh d c) c' = if c' = c then memRead d (chanGet d.cur c) else chanGet d.sh c' := by
  split
  · next h => rw [h]; exact chanGet_chanSet_same ..
  · next h => exact chanGet_chanSet_other _ _ h

theorem chanGet_fetchCur (d : Data cfg) (c c' : Chan) :
    chanGet (fetchCur d c) c' = if c' = c then chanGet d.cur c + 1 else chanGet d.cur c' := by
  split
  · next h => rw [h]; exact chanGet_chanSet_same ..
  · next h => exact chanGet_chanSet_other _ _ h

theorem chanGet_latchBits (n : Nat) (d : Data cfg) (c : Chan) :
    chanGet (latchBits n d) c = if c.val < n then topBit (chanGet d.sh c) else chanGet d.b c := by
  simp [latchBits, chanGet_chanBelow]

/-- A cursor moves on in the one cycle of RUN that fetches its channel (R91, R92). -/
theorem chanGet_runCur (n : Nat) (d : Data cfg) (c : Chan) :
    chanGet (runCur n d) c = if runChan n d = some c then chanGet d.cur c + 1 else chanGet d.cur c := by
  unfold runCur
  cases hr : runChan n d with
  | none => simp
  | some c' =>
    simp only [chanGet_fetchCur, Option.some.injEq]
    by_cases h : c = c'
    · simp [h]
    · simp [h, Ne.symm h]

/-- A held byte is reloaded by its fetch, and shifted at the end of each of the first seven windows (R84, R91). -/
theorem chanGet_runSh (n : Nat) (d : Data cfg) (c : Chan) :
    chanGet (runSh n d) c =
      if runChan n d = some c then memRead d (chanGet d.cur c)
      else if d.tcnt + 1 = cfg.tBit ∧ d.bitix ≠ 7 ∧ c.val < n then shiftByte (chanGet d.sh c)
      else chanGet d.sh c := by
  unfold runSh
  cases hr : runChan n d with
  | none =>
    simp only [Bool.and_eq_true, lastCycle_iff, bne_iff_ne, reduceCtorEq, if_false, ← and_assoc]
    by_cases hl : d.tcnt + 1 = cfg.tBit ∧ d.bitix ≠ 7
    · rw [if_pos hl, shiftBytes, chanGet_chanBelow, chanGet_chanMap]
      simp only [and_iff_right hl]
    · rw [if_neg hl, if_neg (fun h => hl h.1)]
  | some c' =>
    have hx : d.bitix = 7 := (runChan_eq_some_iff.mp hr).1
    simp only [chanGet_fetchSh, Option.some.injEq, hx, ne_eq, not_true_eq_false, false_and, and_false, if_false]
    by_cases h : c = c'
    · simp [h]
    · simp [h, Ne.symm h]

/-! ## What every cycle keeps -/

/-- What the host and the platform own, which no cycle of a command writes: the operands (R12, R13), memory (R42), the
host's coming operations and the reset input. -/
structure CallerKept (d d' : Data cfg) : Prop where
  ptr : d'.ptr = d.ptr
  count : d'.count = d.count
  mem : d'.mem = d.mem
  host : d'.host = d.host
  resetIn : d'.resetIn = d.resetIn

theorem CallerKept.trans {d e e' : Data cfg} (h : CallerKept d e) (h' : CallerKept e e') : CallerKept d e' :=
  ⟨h'.ptr.trans h.ptr, h'.count.trans h.count, h'.mem.trans h.mem, h'.host.trans h.host, h'.resetIn.trans h.resetIn⟩

theorem CallerKept.memRead_eq {d e : Data cfg} (h : CallerKept d e) (a : BitVec cfg.addrW) : memRead e a = memRead d a := by
  rw [memRead, memRead, h.mem]

/-- What a cycle of command i that goes from d to d' keeps. -/
structure CycleKeeps (i : Instr) (d d' : Data cfg) : Prop extends CallerKept d d' where
  now : d'.now = d.now + 1
  portsLength : d'.ports.length = d.ports.length
  above : ∀ c : Chan, i.nch ≤ c.val →
    chanGet d'.cur c = chanGet d.cur c ∧ chanGet d'.sh c = chanGet d.sh c ∧ chanGet d'.b c = chanGet d.b c
  ieSaved : d.fsm ≠ .idle → d'.ieSaved = d.ieSaved
  ie : d.fsm ≠ .idle → d.fsm ≠ .exit → d'.ie = d.ie
  active : d.fsm ≠ .idle → d'.active = d.active
  other : d.fsm ≠ .idle → d'.other = d.other
  otherPins : i.sharedPort = false → d'.other = d.other
  ports : d.fsm ≠ .run → d'.ports = d.ports

theorem acceptCycle_keeps {i : Instr} {d : Data cfg} (hf : d.fsm = .idle) : CycleKeeps i d (acceptCycle i d) where
  toCallerKept := ⟨rfl, rfl, rfl, rfl, rfl⟩
  now := rfl
  portsLength := rfl
  above c hc := ⟨by simp [chanGet_chanBelow, Nat.not_lt.mpr hc], rfl, rfl⟩
  ieSaved h := absurd hf h
  ie h := absurd hf h
  active h := absurd hf h
  other h := absurd hf h
  otherPins h := by simp [acceptOther, h]
  ports _ := rfl

theorem entryNext_keeps {i : Instr} {d : Data cfg} {c : Chan} (hc : entryChan i.nch d = some c) :
    CycleKeeps i d (entryNext i.nch d c) where
  toCallerKept := ⟨rfl, rfl, rfl, rfl, rfl⟩
  now := rfl
  portsLength := rfl
  above c' hc' := by
    have hlt := (entryChan_eq_some_iff.mp hc).2
    have hne : c' ≠ c := by rintro rfl; omega
    exact ⟨by simp [chanGet_fetchCur, hne], by simp [chanGet_fetchSh, hne], rfl⟩
  ieSaved _ := rfl
  ie _ _ := rfl
  active _ := rfl
  other _ := rfl
  otherPins _ := rfl
  ports _ := rfl

theorem runNext_keeps {i : Instr} {d : Data cfg} (acts : List (PortAct cfg)) (hf : d.fsm = .run) :
    CycleKeeps i d (runNext i.nch acts d) where
  toCallerKept := ⟨rfl, rfl, rfl, rfl, rfl⟩
  now := rfl
  portsLength := by simp
  above c hc := by
    have hn : ¬ c.val < i.nch := Nat.not_lt.mpr hc
    have hr : runChan i.nch d ≠ some c := fun h => hn (runChan_eq_some_iff.mp h).2.2
    refine ⟨by simp [chanGet_runCur, hr], by simp [chanGet_runSh, hr, hn], ?_⟩
    rw [runNext_b]
    split
    · simp [chanGet_latchBits, hn]
    · rfl
  ieSaved _ := rfl
  ie _ _ := rfl
  active _ := rfl
  other _ := rfl
  otherPins _ := rfl
  ports h := absurd hf h

theorem exitCycle_keeps {i : Instr} {d : Data cfg} (hf : d.fsm = .exit) : CycleKeeps i d (exitCycle d) where
  toCallerKept := ⟨rfl, rfl, rfl, rfl, rfl⟩
  now := rfl
  portsLength := rfl
  above _ _ := ⟨rfl, rfl, rfl⟩
  ieSaved _ := rfl
  ie _ h := absurd hf h
  active _ := rfl
  other _ := rfl
  otherPins _ := rfl
  ports _ := rfl

/-- A cycle of a command stays on its instance and keeps what `CycleKeeps` lists. -/
theorem exec_keeps {i : Instr} {s t : State} (h : exec i s = .next t) :
    ∃ d' : Data s.cfg, t = ⟨s.cfg, d'⟩ ∧ CycleKeeps i s.data d' := by
  cases (exec_next h).2 with
  | accept hf => exact ⟨_, rfl, acceptCycle_keeps hf⟩
  | entry c _ _ hc => exact ⟨_, rfl, entryNext_keeps hc⟩
  | run hf => exact ⟨_, rfl, runNext_keeps _ hf⟩
  | exit hf => exact ⟨_, rfl, exitCycle_keeps hf⟩

/-- Settles O29: each clause is a field of `CycleKeeps`, and equal memories read the same byte everywhere. -/
theorem commandCycleFrame : Obligations.CommandCycleFrame := by
  unfold Obligations.CommandCycleFrame
  intro i cfg d t h
  obtain ⟨d', rfl, k⟩ := exec_keeps h
  exact ⟨d', rfl, k.ptr, k.count, k.memRead_eq, k.above, k.ieSaved, k.ie, k.active, k.other, k.otherPins, k.ports, k.host,
    k.resetIn⟩

/-! ## What a step keeps -/

theorem hostCycle_cfg {s t : State} (h : HostCycle s t) : t.cfg = s.cfg := by
  cases h <;> rfl

theorem exec_cfg {i : Instr} {s t : State} (h : exec i s = .next t) : t.cfg = s.cfg := by
  obtain ⟨d', rfl, _⟩ := exec_keeps h
  rfl

theorem idleCycle_cfg {s t : State} (h : idleCycle s = .next t) : t.cfg = s.cfg := by
  rcases idleCycle_next h with ⟨_, rfl⟩ | ⟨op, rest, _, hop⟩
  · rfl
  · rcases hostOp_next hop with hc | ⟨_, i, _, _, he⟩
    · exact (hostCycle_cfg hc :)
    · exact (exec_cfg he :)

/-- Settles O42: a step is a reset, a cycle of the running command, or an operation of the host, and none of them
leaves its instance. -/
theorem stepKeepsInstance : Obligations.StepKeepsInstance := by
  unfold Obligations.StepKeepsInstance
  intro s t h
  rcases (step_next h).2 with ⟨_, rfl⟩ | ⟨_, _, he⟩ | ⟨_, _, hidle⟩
  · rfl
  · exact (exec_cfg he :)
  · exact (idleCycle_cfg hidle :)

end Sys2Proof.Machine
end

section
/-! PROOF. The operands of a frame: the byte count, the shifts of a held byte, the read set, and the snapshots of a shared
port. -/

namespace Sys2Proof.Machine

open Sys2Proof Sys2Proof.Safety

variable {cfg : Config}

/-! ## The byte count (R22, R69) -/

/-- COUNT_W + 2 bits hold three times any COUNT. -/
theorem byteCount_toNat (count : BitVec cfg.countW) : (byteCount (cfg := cfg) count).toNat = 3 * count.toNat := by
  have hc := count.isLt
  have hpow : 2 ^ (cfg.countW + 2) = 2 ^ cfg.countW * 4 := by rw [Nat.pow_add]
  have hpos : 0 < 2 ^ cfg.countW := Nat.two_pow_pos _
  have hthree : (BitVec.ofNat (cfg.countW + 2) 3).toNat = 3 := by
    rw [BitVec.toNat_ofNat]; exact Nat.mod_eq_of_lt (by omega)
  have hzext : (count.setWidth (cfg.countW + 2)).toNat = count.toNat := by
    rw [BitVec.toNat_setWidth]; exact Nat.mod_eq_of_lt (by omega)
  rw [byteCount, BitVec.toNat_mul, hzext, BitVec.ofNat_eq_ofNat, hthree]
  exact Nat.mod_eq_of_lt (by omega)

/-- Settles O20: it is the value of `byteCount`. -/
theorem byteCountNeverOverflows : Obligations.ByteCountNeverOverflows := by
  unfold Obligations.ByteCountNeverOverflows
  intro cfg count
  exact byteCount_toNat count

/-! ## The shifts of a held byte (R17, R84) -/

theorem shiftByte_shiftLeft (v : Byte) (m : Nat) : shiftByte (v <<< m) = v <<< (m + 1) :=
  (BitVec.shiftLeft_add v m 1).symm

theorem shiftByte_iterate (v : Byte) (m : Nat) : (shiftByte^[m]) v = v <<< m := by
  induction m with
  | zero => simp
  | succ m ih => rw [Function.iterate_succ_apply', ih, shiftByte_shiftLeft]

/-- The bit to send after m shifts is the one that window m of the byte carries. -/
theorem topBit_shiftLeft {v : Byte} {m : Nat} (hm : m ≤ 7) : topBit (v <<< m) = bitOf v m := by
  have hge : ¬ 7 < m := Nat.not_lt.mpr hm
  rw [topBit, bitOf, BitVec.getLsbD_shiftLeft]
  simp [hge]

/-- Settles O19: m shifts by one are a shift by m. -/
theorem shiftExposesNextBit : Obligations.ShiftExposesNextBit := by
  unfold Obligations.ShiftExposesNextBit
  intro v m hm
  rw [shiftByte_iterate]
  exact ⟨rfl, topBit_shiftLeft hm⟩

/-! ## The read set (R46, R49) -/

@[simp] theorem byteAddr_zero {w : Nat} (p : BitVec w) : byteAddr p 0 = p := by
  simp [byteAddr]

theorem byteAddr_succ {w : Nat} (p : BitVec w) (k : Nat) : byteAddr p k + 1 = byteAddr p (k + 1) := by
  rw [byteAddr, byteAddr, BitVec.add_assoc]
  congr 1
  exact (BitVec.ofNat_add k 1).symm

/-- A launch that is accepted may read every byte of every channel's buffer, the over-read one among them. -/
theorem readRefusal_byteAddr {i : Instr} {d : Data cfg} {c : Chan} {k : Nat} (h : readSetRefusal i d = none)
    (hc : c ∈ i.chans) (hk : k ≤ 3 * d.count.toNat) :
    readRefusal cfg (byteAddr (chanGet d.ptr c) k).toNat = none := by
  have hall : ∀ a ∈ readSet i d, readRefusal cfg a.toNat = none := by
    simpa [readSetRefusal, List.findSome?_eq_none_iff] using h
  refine hall _ (List.mem_flatMap.mpr ⟨c, hc, List.mem_map.mpr ⟨k, ?_, rfl⟩⟩)
  rw [List.mem_range]
  omega

/-! ## The snapshots of a shared port (R25, R68) -/

theorem sampleOther_getLsbD {w : Nat} (port : BitVec w) (descs : List Desc) (k : Nat) :
    (sampleOther port descs).getLsbD k = (port.getLsbD k && !(mask w descs).getLsbD k) := by
  by_cases hk : k < w
  · simp [sampleOther, hk]
  · simp [sampleOther, BitVec.getLsbD_of_ge _ _ (Nat.not_lt.mp hk)]

theorem snapHi_getLsbD {w : Nat} (other : BitVec w) (descs : List Desc) (k : Nat) :
    (snapHi other descs).getLsbD k = (other.getLsbD k || (mask w descs).getLsbD k) :=
  BitVec.getLsbD_or

/-- MASK holds the bit of every target of a legal command (R15, R72 (c)). -/
theorem mask_target {i : Instr} (h : cfg.descsLegal i = true) {c : Chan} (hc : c ∈ i.chans) :
    (mask cfg.portW (cfg.descs i)).getLsbD (chanDesc cfg i c).bit = true := by
  have hm := chanDesc_mem (cfg := cfg) hc
  rw [mask_getLsbD, decide_eq_true_eq]
  exact ⟨(descsLegal_inRange h _ hm).1, _, hm, rfl⟩

/-- Settles O18: LO is the sample, HI the sample with MASK, and the sample is the port with MASK's bits cleared. -/
theorem loAndHiSnapshots : Obligations.LoAndHiSnapshots := by
  unfold Obligations.LoAndHiSnapshots
  intro i cfg port _ hl
  refine ⟨fun c hc => ?_, fun k hk => ?_⟩
  · have hm := mask_target hl hc
    exact ⟨by rw [snapLo, sampleOther_getLsbD, hm]; simp, by rw [snapHi_getLsbD, hm, Bool.or_true]⟩
  · have hlo : (sampleOther port (cfg.descs i)).getLsbD k = port.getLsbD k := by
      rw [sampleOther_getLsbD, hk]; simp
    exact ⟨hlo, by rw [snapHi_getLsbD, hk, Bool.or_false, hlo]⟩

end Sys2Proof.Machine
end

section
/-! PROOF. A frame cycle by cycle: the elements after each fetch of ENTRY and in each cycle of each bit window, and that no
cycle of the frame stops (R87, R88, R91, R95, R97). -/

namespace Sys2Proof.Safety

open Sys2Proof Sys2Proof.Machine

section
variable {cfg : Config} {i : Instr} {d : Data cfg} (h : LaunchReady i d)
include h

theorem LaunchReady.fits : instanceOk cfg i = true := h.1

theorem LaunchReady.idle : d.fsm = .idle := h.2.1

theorem LaunchReady.count_ne : d.count ≠ 0 := h.2.2.1

theorem LaunchReady.readable : readSetRefusal i d = none := h.2.2.2

theorem LaunchReady.count_pos : 0 < d.count.toNat := Nat.pos_of_ne_zero fun h0 => h.count_ne (BitVec.eq_of_toNat_eq h0)

theorem LaunchReady.tBit_pos : 0 < cfg.tBit := by
  obtain ⟨_, _, hfit, _, _⟩ := instanceOk_counts h.fits
  omega

end

end Sys2Proof.Safety

namespace Sys2Proof.Machine

open Sys2Proof Sys2Proof.Safety

variable {cfg : Config} {i : Instr} {d e e' : Data cfg}

/-! ## The elements after a number of cycles -/

/-- The elements after a cycle of command i that answers a next state. -/
def nextData (i : Instr) (d : Data cfg) : Data cfg :=
  match d.fsm with
  | .idle => acceptCycle i d
  | .entry =>
    match entryChan i.nch d with
    | some c => entryNext i.nch d c
    | none => d
  | .run => runNext i.nch (commandActs i d) d
  | .exit => exitCycle d

/-- The elements k cycles after command i met the elements d. -/
def frameData (i : Instr) (d : Data cfg) (k : Nat) : Data cfg := (nextData i)^[k] d

theorem nextData_idle (hf : d.fsm = .idle) : nextData i d = acceptCycle i d := by simp [nextData, hf]

theorem nextData_entry {c : Chan} (hf : d.fsm = .entry) (hc : entryChan i.nch d = some c) :
    nextData i d = entryNext i.nch d c := by simp [nextData, hf, hc]

theorem nextData_run (hf : d.fsm = .run) : nextData i d = runNext i.nch (commandActs i d) d := by simp [nextData, hf]

theorem nextData_exit (hf : d.fsm = .exit) : nextData i d = exitCycle d := by simp [nextData, hf]

@[simp] theorem frameData_zero (i : Instr) (d : Data cfg) : frameData i d 0 = d := rfl

theorem frameData_succ (i : Instr) (d : Data cfg) (k : Nat) : frameData i d (k + 1) = nextData i (frameData i d k) :=
  Function.iterate_succ_apply' ..

/-- A cycle of the command that answers a next state answers `nextData`. -/
theorem exec_next_nextData {s t : State} (h : exec i s = .next t) : t = ⟨s.cfg, nextData i s.data⟩ := by
  cases (exec_next h).2 with
  | accept hf => rw [nextData_idle hf]
  | entry c hf _ hc => rw [nextData_entry hf hc]
  | run hf => rw [nextData_run hf]
  | exit hf => rw [nextData_exit hf]

/-! ## What holds throughout a frame -/

/-- Byte k of channel c's buffer (R46). -/
def bufferByte (d : Data cfg) (c : Chan) (k : Nat) : Byte := memRead d (byteAddr (chanGet d.ptr c) k)

/-- A frame of command i that met the elements d is in progress, k cycles after. -/
structure InFrame (i : Instr) (d : Data cfg) (k : Nat) (e : Data cfg) : Prop extends CallerKept d e where
  active : e.active = i
  ie : e.ie = false
  ieSaved : e.ieSaved = d.ie
  other : e.other = acceptOther i d
  now : e.now = d.now + k
  portsLength : e.ports.length = d.ports.length
  above : ∀ c : Chan, i.nch ≤ c.val →
    chanGet e.cur c = chanGet d.cur c ∧ chanGet e.sh c = chanGet d.sh c ∧ chanGet e.b c = chanGet d.b c

/-- A cycle of ENTRY or RUN keeps what holds throughout a frame. -/
theorem InFrame.step {k : Nat} (h : InFrame i d k e) (hk : CycleKeeps i e e') (hidle : e.fsm ≠ .idle)
    (hexit : e.fsm ≠ .exit) : InFrame i d (k + 1) e' where
  toCallerKept := h.toCallerKept.trans hk.toCallerKept
  active := (hk.active hidle).trans h.active
  ie := (hk.ie hidle hexit).trans h.ie
  ieSaved := (hk.ieSaved hidle).trans h.ieSaved
  other := (hk.other hidle).trans h.other
  now := by rw [hk.now, h.now]; rfl
  portsLength := hk.portsLength.trans h.portsLength
  above c hc := by
    obtain ⟨hcur, hsh, hb⟩ := hk.above c hc
    obtain ⟨hcur', hsh', hb'⟩ := h.above c hc
    exact ⟨hcur.trans hcur', hsh.trans hsh', hb.trans hb'⟩

/-! ## ENTRY -/

/-- The elements after the accept cycle and m fetches of ENTRY; with m = NCH the sequencer is in RUN. -/
structure EntryAt (i : Instr) (d : Data cfg) (m : Nat) (e : Data cfg) : Prop extends InFrame i d (m + 1) e where
  fsm : e.fsm = if m = i.nch then .run else .entry
  tcnt : m = i.nch → e.tcnt = 0
  ecnt : e.ecnt.toNat = m
  bitix : e.bitix = 0
  bytesLeft : e.bytesLeft.toNat = 3 * d.count.toNat
  cur : ∀ c ∈ i.chans, chanGet e.cur c = byteAddr (chanGet d.ptr c) (if c.val < m then 1 else 0)
  sh : ∀ c ∈ i.chans, c.val < m → chanGet e.sh c = bufferByte d c 0
  ports : e.ports = d.ports

theorem nch_pos (i : Instr) : 0 < i.nch := by cases i <;> decide

theorem nch_le_four (i : Instr) : i.nch ≤ 4 := by cases i <;> decide

theorem entryAt_accept (hf : d.fsm = .idle) : EntryAt i d 0 (acceptCycle i d) where
  toCallerKept := (acceptCycle_keeps hf).toCallerKept
  active := rfl
  ie := rfl
  ieSaved := rfl
  other := rfl
  now := rfl
  portsLength := rfl
  above := (acceptCycle_keeps hf).above
  fsm := by simp [(nch_pos i).ne]
  tcnt h := absurd h (nch_pos i).ne
  ecnt := rfl
  bitix := rfl
  bytesLeft := byteCount_toNat d.count
  cur c hc := by simp [chanGet_chanBelow, (mem_chans_iff i c).mp hc]
  sh c _ h := absurd h (Nat.not_lt_zero _)
  ports := rfl

section
variable {m : Nat} (h : EntryAt i d m e) (hm : m < i.nch)
include h hm

theorem EntryAt.fsm_entry : e.fsm = .entry := by rw [h.fsm, if_neg hm.ne]

/-- The channel fetched next is the one whose number is the count of fetches done. -/
theorem EntryAt.entryChan_eq : ∃ c : Chan, c.val = m ∧ c ∈ i.chans ∧ entryChan i.nch e = some c := by
  have h4 := nch_le_four i
  refine ⟨⟨m, by omega⟩, rfl, (mem_chans_iff ..).mpr hm, entryChan_eq_some_iff.mpr ⟨h.ecnt, hm⟩⟩

theorem EntryAt.exec_eq (hl : LaunchReady i d) : exec i ⟨cfg, e⟩ = .next ⟨cfg, nextData i e⟩ := by
  obtain ⟨c, hcm, hc, he⟩ := h.entryChan_eq hm
  have hrr : readRefusal cfg (chanGet e.cur c).toNat = none := by
    rw [h.cur c hc]
    exact readRefusal_byteAddr hl.readable hc (by rw [if_neg (by omega)]; omega)
  rw [nextData_entry (h.fsm_entry hm) he]
  exact exec_entry hl.fits (h.fsm_entry hm) h.active he hrr

theorem EntryAt.nextEntry : EntryAt i d (m + 1) (nextData i e) := by
  obtain ⟨c, hcm, hc, he⟩ := h.entryChan_eq hm
  have hf := h.fsm_entry hm
  rw [nextData_entry hf he]
  have hcur : chanGet e.cur c = chanGet d.ptr c := by rw [h.cur c hc, if_neg (by omega), byteAddr_zero]
  have hframe := h.toInFrame.step (entryNext_keeps he) (by simp [hf]) (by simp [hf])
  exact
    { toInFrame := hframe
      fsm := by simp [h.ecnt]
      tcnt := fun hn => by simp [h.ecnt, hn]
      ecnt := by
        have h4 := nch_le_four i
        have he := h.ecnt
        simp only [entryNext_ecnt]
        bv_omega
      bitix := h.bitix
      bytesLeft := h.bytesLeft
      cur := fun c' hc' => by
        rw [entryNext_cur, chanGet_fetchCur]
        split
        · next heq => rw [heq, hcur, if_pos (by omega), ← byteAddr_succ, byteAddr_zero]
        · next hne =>
          have hv : c'.val ≠ m := fun hv => hne (Fin.ext (hv.trans hcm.symm))
          have hlt : c'.val < m ↔ c'.val < m + 1 := by omega
          simp only [h.cur c' hc', hlt]
      sh := fun c' hc' hlt => by
        rw [entryNext_sh, chanGet_fetchSh]
        split
        · next heq => rw [heq, hcur, h.memRead_eq, bufferByte, byteAddr_zero]
        · next hne =>
          have hv : c'.val ≠ m := fun hv => hne (Fin.ext (hv.trans hcm.symm))
          exact h.sh c' hc' (by omega)
      ports := h.ports }

end

/-! ## RUN -/

/-- How many bytes of channel c have been fetched by window cycle w of window j: one before the first window, and one in
each eighth window, at window cycle c + 1 (R47, R92). -/
def bytesFetched (c : Chan) (j w : Nat) : Nat := j / 8 + 1 + if j % 8 = 7 ∧ c.val + 1 < w then 1 else 0

/-- The byte channel c holds in window cycle w of window j: the one being sent, shifted to its next bit, until the fetch of
the eighth window replaces it (R84, R92). -/
def heldByte (d : Data cfg) (c : Chan) (j w : Nat) : Byte :=
  if j % 8 = 7 ∧ c.val + 1 < w then bufferByte d c (j / 8 + 1) else bufferByte d c (j / 8) <<< (j % 8)

/-- The elements at the start of window cycle w of window j of the frame (R91); window 24 × COUNT is the EXIT cycle. -/
structure WindowAt (i : Instr) (d : Data cfg) (j w : Nat) (e : Data cfg) : Prop
    extends InFrame i d (i.nch + 1 + (j * cfg.tBit + w)) e where
  fsm : e.fsm = if j < 24 * d.count.toNat then .run else .exit
  tcnt : e.tcnt = w
  ecnt : e.ecnt.toNat = i.nch
  bitix : e.bitix.toNat = j % 8
  bytesLeft : e.bytesLeft.toNat = 3 * d.count.toNat - j / 8
  cur : ∀ c ∈ i.chans, chanGet e.cur c = byteAddr (chanGet d.ptr c) (bytesFetched c j w)
  sh : ∀ c ∈ i.chans, chanGet e.sh c = heldByte d c j w
  latched : ∀ c ∈ i.chans, 0 < w → chanGet e.b c = windowBit d c j
  latchedBefore : ∀ c ∈ i.chans, w = 0 → 0 < j → chanGet e.b c = windowBit d c (j - 1)

/-- After the last fetch of ENTRY the first window begins. -/
theorem EntryAt.window (h : EntryAt i d i.nch e) (hl : LaunchReady i d) : WindowAt i d 0 0 e where
  toInFrame := by simpa using h.toInFrame
  fsm := by
    have hpos := hl.count_pos
    rw [h.fsm, if_pos rfl, if_pos (by omega)]
  tcnt := h.tcnt rfl
  ecnt := h.ecnt
  bitix := by rw [h.bitix]; rfl
  bytesLeft := h.bytesLeft
  cur c hc := by
    rw [h.cur c hc, if_pos ((mem_chans_iff i c).mp hc)]
    rfl
  sh c hc := by
    rw [h.sh c hc ((mem_chans_iff i c).mp hc)]
    simp [heldByte]
  latched _ _ h0 := absurd h0 (Nat.lt_irrefl 0)
  latchedBefore _ _ _ h0 := absurd h0 (Nat.lt_irrefl 0)

theorem bytesFetched_succ (c : Chan) (j w : Nat) :
    bytesFetched c j (w + 1) = bytesFetched c j w + if j % 8 = 7 ∧ w = c.val + 1 then 1 else 0 := by
  unfold bytesFetched
  split_ifs <;> omega

/-- By the last cycle of a window its fetch is done. -/
theorem bytesFetched_next_window {c : Chan} {j w : Nat} (hw : c.val + 1 < w) :
    bytesFetched c (j + 1) 0 = bytesFetched c j w := by
  unfold bytesFetched
  split_ifs <;> omega

theorem heldByte_succ (d : Data cfg) (c : Chan) (j w : Nat) :
    heldByte d c j (w + 1) =
      if j % 8 = 7 ∧ w = c.val + 1 then bufferByte d c (bytesFetched c j w) else heldByte d c j w := by
  by_cases hf : j % 8 = 7 ∧ w = c.val + 1
  · obtain ⟨h7, rfl⟩ := hf
    simp [heldByte, bytesFetched, h7]
  · have hiff : (j % 8 = 7 ∧ c.val + 1 < w + 1) ↔ (j % 8 = 7 ∧ c.val + 1 < w) := by omega
    simp only [heldByte, if_neg hf, hiff]

theorem heldByte_next_window {c : Chan} {j w : Nat} (hw : c.val + 1 < w) :
    heldByte d c (j + 1) 0 = if j % 8 ≠ 7 then shiftByte (heldByte d c j w) else heldByte d c j w := by
  unfold heldByte
  by_cases h7 : j % 8 = 7
  · have hdiv : (j + 1) / 8 = j / 8 + 1 := by omega
    have hmod : (j + 1) % 8 = 0 := by omega
    simp [h7, hw, hdiv, hmod]
  · have hdiv : (j + 1) / 8 = j / 8 := by omega
    have hmod : (j + 1) % 8 = j % 8 + 1 := by omega
    simp [h7, hdiv, hmod, shiftByte_shiftLeft]

/-- The bit exposed before the fetch of a window is the bit the window carries (R64, R89). -/
theorem topBit_heldByte_zero (d : Data cfg) (c : Chan) (j : Nat) : topBit (heldByte d c j 0) = windowBit d c j := by
  have h7 : j % 8 ≤ 7 := by omega
  simp [heldByte, topBit_shiftLeft h7, windowBit, bufferByte]

theorem toNat_sub_one {w : Nat} {x : BitVec (w + 2)} (hx : x ≠ 0) : (x - 1).toNat = x.toNat - 1 := by
  have hone : (1#(w + 2)).toNat = 1 := BitVec.toNat_one (by omega)
  have hpos : 0 < x.toNat := Nat.pos_of_ne_zero fun h0 => hx (BitVec.eq_of_toNat_eq h0)
  have hle : 1#(w + 2) ≤ x := by rw [BitVec.le_def, hone]; exact hpos
  exact (BitVec.toNat_sub_of_le hle).trans (by rw [hone])

section
variable {j w : Nat} (h : WindowAt i d j w e) (hl : LaunchReady i d) (hj : j < 24 * d.count.toNat) (hw : w < cfg.tBit)

include h in
theorem WindowAt.bitix_eq_seven : e.bitix = 7 ↔ j % 8 = 7 := by
  rw [← BitVec.toNat_inj, h.bitix]
  rfl

include h in
theorem WindowAt.runChan_eq {c : Chan} (hc : c ∈ i.chans) :
    runChan i.nch e = some c ↔ j % 8 = 7 ∧ w = c.val + 1 := by
  rw [runChan_eq_some_iff, h.bitix_eq_seven, h.tcnt]
  simp [(mem_chans_iff i c).mp hc]

include h hj in
theorem WindowAt.fsm_run : e.fsm = .run := by rw [h.fsm, if_pos hj]

include h hj in
theorem WindowAt.bytesLeft_ne : e.bytesLeft ≠ 0 := by
  intro h0
  have hb := h.bytesLeft
  rw [h0, BitVec.ofNat_eq_ofNat, BitVec.toNat_zero] at hb
  omega

include h hl hj in
theorem WindowAt.runRefusal_eq : runRefusal i.nch e = none := by
  unfold runRefusal
  split
  · next c hrun =>
    have hc : c ∈ i.chans := (mem_chans_iff i c).mpr (runChan_eq_some_iff.mp hrun).2.2
    obtain ⟨h7, rfl⟩ := (h.runChan_eq hc).mp hrun
    rw [h.cur c hc]
    have hread : bytesFetched c j (c.val + 1) ≤ 3 * d.count.toNat := by
      rw [bytesFetched, if_neg (fun hlt => Nat.lt_irrefl _ hlt.2)]
      omega
    exact readRefusal_byteAddr hl.readable hc hread
  · rfl

include h hl hj hw in
/-- A cycle of a window answers the next elements (R97). -/
theorem WindowAt.exec_eq : exec i ⟨cfg, e⟩ = .next ⟨cfg, nextData i e⟩ := by
  rw [nextData_run (h.fsm_run hj)]
  exact exec_run hl.fits (h.fsm_run hj) h.active (by simpa only [h.tcnt] using hw) (h.bytesLeft_ne hj)
    (h.runRefusal_eq hl hj)

include h hj in
theorem WindowAt.nextFrame : InFrame i d (i.nch + 1 + (j * cfg.tBit + w) + 1) (nextData i e) := by
  have hf := h.fsm_run hj
  rw [nextData_run hf]
  exact h.toInFrame.step (runNext_keeps _ hf) (by simp [hf]) (by simp [hf])

include h hj in
/-- B after a cycle of window j carries the bit of window j (R89). -/
theorem WindowAt.nextLatched {c : Chan} (hc : c ∈ i.chans) : chanGet (nextData i e).b c = windowBit d c j := by
  rw [nextData_run (h.fsm_run hj), runNext_b, h.tcnt]
  split
  · next h0 =>
    rw [chanGet_latchBits, if_pos ((mem_chans_iff i c).mp hc), h.sh c hc, h0, topBit_heldByte_zero]
  · next h0 => exact h.latched c hc (Nat.pos_of_ne_zero h0)

include h hj in
theorem WindowAt.nextCur {c : Chan} (hc : c ∈ i.chans) :
    chanGet (nextData i e).cur c = byteAddr (chanGet d.ptr c) (bytesFetched c j (w + 1)) := by
  rw [nextData_run (h.fsm_run hj), runNext_cur, chanGet_runCur, bytesFetched_succ, h.cur c hc]
  simp only [h.runChan_eq hc]
  split
  · exact byteAddr_succ ..
  · rfl

include h hj in
/-- SH after a cycle of a window: the byte held, shifted if the cycle ends one of the first seven windows. -/
theorem WindowAt.nextSh {c : Chan} (hc : c ∈ i.chans) :
    chanGet (nextData i e).sh c =
      if w + 1 = cfg.tBit ∧ j % 8 ≠ 7 then shiftByte (heldByte d c j (w + 1)) else heldByte d c j (w + 1) := by
  have hn : c.val < i.nch := (mem_chans_iff i c).mp hc
  rw [nextData_run (h.fsm_run hj), runNext_sh, chanGet_runSh, h.tcnt, h.cur c hc, h.sh c hc, h.memRead_eq, heldByte_succ]
  simp only [h.runChan_eq hc, h.bitix_eq_seven, ne_eq, hn, and_true]
  by_cases h7 : j % 8 = 7
  · simp only [h7, not_true_eq_false, and_false, if_false]
    rfl
  · simp only [h7, false_and, if_false]

include h hj in
/-- The next cycle of the same window. -/
theorem WindowAt.nextCycle (hin : w + 1 < cfg.tBit) : WindowAt i d j (w + 1) (nextData i e) := by
  have hnl : ¬ (w + 1 = cfg.tBit) := hin.ne
  have hlast : lastCycle e = false := by rw [← Bool.not_eq_true, lastCycle_iff, h.tcnt]; exact hnl
  have hends : byteEnds e = false := by rw [byteEnds, hlast, Bool.false_and]
  have hrun := nextData_run (i := i) (h.fsm_run hj)
  exact
    { toInFrame := h.nextFrame hj
      fsm := by rw [hrun, runNext_fsm, runFsm, hends, if_pos hj]; rfl
      tcnt := by rw [hrun, runNext_tcnt, h.tcnt, Nat.mod_eq_of_lt hin]
      ecnt := by rw [hrun]; exact h.ecnt
      bitix := by rw [hrun, runNext_bitix, runBitix, hlast]; exact h.bitix
      bytesLeft := by rw [hrun, runNext_bytesLeft, runBytesLeft, hends]; exact h.bytesLeft
      cur := fun c hc => h.nextCur hj hc
      sh := fun c hc => by rw [h.nextSh hj hc, if_neg (fun hn => hnl hn.1)]
      latched := fun c hc _ => h.nextLatched hj hc
      latchedBefore := fun _ _ h0 => absurd h0 (Nat.succ_ne_zero w) }

include h hl hj in
/-- After the last cycle of a window the next one begins, or after the last window the EXIT cycle (R93). -/
theorem WindowAt.nextWindow (hend : w + 1 = cfg.tBit) : WindowAt i d (j + 1) 0 (nextData i e) := by
  obtain ⟨_, _, hfit, _, _⟩ := instanceOk_counts hl.fits
  have fetchesDone : ∀ c ∈ i.chans, c.val + 1 < w + 1 := fun c hc => by
    have hlt := (mem_chans_iff i c).mp hc
    omega
  have hlast : lastCycle e = true := by rw [lastCycle_iff, h.tcnt]; exact hend
  have hends : byteEnds e = decide (j % 8 = 7) := by
    rw [byteEnds, hlast, Bool.true_and, Bool.beq_eq_decide_eq]
    exact decide_eq_decide.mpr h.bitix_eq_seven
  have hdec := toNat_sub_one (h.bytesLeft_ne hj)
  have hrun := nextData_run (i := i) (h.fsm_run hj)
  have hcycle : i.nch + 1 + (j * cfg.tBit + w) + 1 = i.nch + 1 + ((j + 1) * cfg.tBit + 0) := by
    rw [Nat.succ_mul, ← hend]; rfl
  rw [h.bytesLeft] at hdec
  exact
    { toInFrame := hcycle ▸ h.nextFrame hj
      fsm := by
        have hzero : e.bytesLeft - 1 = 0 ↔ 3 * d.count.toNat - j / 8 - 1 = 0 := by
          rw [← hdec, ← BitVec.toNat_inj]; rfl
        have hover : (j % 8 = 7 ∧ 3 * d.count.toNat - j / 8 - 1 = 0) ↔ ¬ (j + 1 < 24 * d.count.toNat) := by omega
        rw [hrun, runNext_fsm, runFsm, hends]
        simp only [Bool.and_eq_true, decide_eq_true_eq, beq_iff_eq, hzero, hover, ite_not]
      tcnt := by rw [hrun, runNext_tcnt, h.tcnt, hend, Nat.mod_self]
      ecnt := by rw [hrun]; exact h.ecnt
      bitix := by
        have hx := h.bitix
        rw [hrun, runNext_bitix, runBitix, hlast, if_pos rfl]
        bv_omega
      bytesLeft := by
        rw [hrun, runNext_bytesLeft, runBytesLeft, hends]
        simp only [decide_eq_true_eq]
        split
        · rw [hdec]; omega
        · rw [h.bytesLeft]; omega
      cur := fun c hc => by rw [h.nextCur hj hc, bytesFetched_next_window (fetchesDone c hc)]
      sh := fun c hc => by simp only [h.nextSh hj hc, heldByte_next_window (fetchesDone c hc), hend, true_and]
      latched := fun _ _ h0 => absurd h0 (Nat.lt_irrefl 0)
      latchedBefore := fun c hc _ _ => h.nextLatched hj hc }

end

/-! ## The whole frame -/

/-- If a window begins where the frame's cycle count says, its later cycles follow. -/
theorem windowAt_frameData_of_start {j : Nat} (hj : j < 24 * d.count.toNat)
    (h0 : WindowAt i d j 0 (frameData i d (i.nch + 1 + (j * cfg.tBit + 0)))) {w : Nat} (hw : w < cfg.tBit) :
    WindowAt i d j w (frameData i d (i.nch + 1 + (j * cfg.tBit + w))) := by
  induction w with
  | zero => exact h0
  | succ w ih =>
    rw [← Nat.add_assoc, ← Nat.add_assoc, frameData_succ, Nat.add_assoc _ (j * cfg.tBit)]
    exact (ih (by omega)).nextCycle hj hw

section
variable (hl : LaunchReady i d)
include hl

theorem entryAt_frameData {m : Nat} (hm : m ≤ i.nch) : EntryAt i d m (frameData i d (m + 1)) := by
  induction m with
  | zero =>
    rw [frameData_succ, frameData_zero, nextData_idle hl.idle]
    exact entryAt_accept hl.idle
  | succ m ih =>
    rw [frameData_succ]
    exact (ih (by omega)).nextEntry (by omega)

theorem windowStart_frameData {j : Nat} (hj : j ≤ 24 * d.count.toNat) :
    WindowAt i d j 0 (frameData i d (i.nch + 1 + (j * cfg.tBit + 0))) := by
  induction j with
  | zero => simpa using (entryAt_frameData hl (le_refl i.nch)).window hl
  | succ j ih =>
    obtain ⟨_, _, hfit, _, _⟩ := instanceOk_counts hl.fits
    obtain ⟨w, hend⟩ : ∃ w, w + 1 = cfg.tBit := ⟨cfg.tBit - 1, by omega⟩
    have hlast := windowAt_frameData_of_start (by omega) (ih (by omega)) (w := w) (by omega)
    have hcycle : i.nch + 1 + ((j + 1) * cfg.tBit + 0) = i.nch + 1 + (j * cfg.tBit + w) + 1 := by
      rw [Nat.succ_mul, ← hend]; rfl
    rw [hcycle, frameData_succ]
    exact hlast.nextWindow hl (by omega) hend

/-- The elements in window cycle w of window j of a frame. -/
theorem windowAt_frameData {j w : Nat} (hj : j < 24 * d.count.toNat) (hw : w < cfg.tBit) :
    WindowAt i d j w (frameData i d (i.nch + 1 + (j * cfg.tBit + w))) :=
  windowAt_frameData_of_start hj (windowStart_frameData hl (by omega)) hw

/-- The elements in the EXIT cycle of a frame. -/
theorem exitAt_frameData :
    WindowAt i d (24 * d.count.toNat) 0 (frameData i d (i.nch + 1 + 24 * d.count.toNat * cfg.tBit)) := by
  simpa using windowStart_frameData hl (le_refl _)

end

/-- Where in a frame a cycle is: the accept cycle, the fetch number m of ENTRY, cycle w of window j, or EXIT. -/
inductive FramePosition (i : Instr) (d : Data cfg) : Nat → Prop where
  | accept : FramePosition i d 0
  | entry (m : Nat) (hm : m < i.nch) : FramePosition i d (m + 1)
  | window (j w : Nat) (hj : j < 24 * d.count.toNat) (hw : w < cfg.tBit) :
      FramePosition i d (i.nch + 1 + (j * cfg.tBit + w))
  | exit : FramePosition i d (i.nch + 1 + 24 * d.count.toNat * cfg.tBit)

theorem framePosition {k : Nat} (hT : 0 < cfg.tBit) (hk : k < frameCycles i d) : FramePosition i d k := by
  obtain hlt | ⟨r, rfl⟩ : k < i.nch + 1 ∨ ∃ r, k = i.nch + 1 + r := by
    rcases Nat.lt_or_ge k (i.nch + 1) with h | h
    · exact .inl h
    · exact .inr ⟨k - (i.nch + 1), by omega⟩
  · cases k with
    | zero => exact .accept
    | succ m => exact .entry m (by omega)
  · have hr : r ≤ 24 * d.count.toNat * cfg.tBit := by unfold frameCycles at hk; omega
    rcases Nat.lt_or_ge r (24 * d.count.toNat * cfg.tBit) with h | h
    · rw [← Nat.div_add_mod' r cfg.tBit]
      exact .window _ _ (Nat.div_lt_of_lt_mul (by rwa [Nat.mul_comm])) (Nat.mod_lt _ hT)
    · rw [Nat.le_antisymm hr h]
      exact .exit

section
variable (hl : LaunchReady i d)
include hl

/-- No cycle of a frame stops (R97): each answers the elements of the next. -/
theorem exec_frameData {k : Nat} (hk : k < frameCycles i d) :
    exec i ⟨cfg, frameData i d k⟩ = .next ⟨cfg, frameData i d (k + 1)⟩ := by
  rw [frameData_succ]
  cases framePosition hl.tBit_pos hk with
  | accept =>
    rw [frameData_zero, nextData_idle hl.idle]
    exact exec_accept hl.fits hl.idle hl.count_ne hl.readable
  | entry m hm => exact (entryAt_frameData hl hm.le).exec_eq hm hl
  | window j w hj hw => exact (windowAt_frameData hl hj hw).exec_eq hl hj hw
  | exit =>
    have h := exitAt_frameData hl
    have hf : (frameData i d (i.nch + 1 + 24 * d.count.toNat * cfg.tBit)).fsm = .exit := by
      rw [h.fsm, if_neg (Nat.lt_irrefl _)]
    rw [nextData_exit hf]
    exact exec_exit hl.fits hf h.active

theorem execTimes_frameData {k : Nat} (hk : k ≤ frameCycles i d) :
    execTimes i k ⟨cfg, d⟩ = .next ⟨cfg, frameData i d k⟩ := by
  induction k with
  | zero => rfl
  | succ k ih =>
    rw [execTimes_add, ih (by omega)]
    simp only [execTimes, exec_frameData hl (k := k) (by omega)]

/-- From the cycle after accept to EXIT the frame is in progress (R14). -/
theorem inFrame_frameData {k : Nat} (h0 : 0 < k) (hk : k < frameCycles i d) :
    InFrame i d k (frameData i d k) ∧ (frameData i d k).fsm ≠ .idle := by
  cases framePosition hl.tBit_pos hk with
  | accept => exact absurd h0 (Nat.lt_irrefl 0)
  | entry m hm =>
    have h := entryAt_frameData hl hm.le
    exact ⟨h.toInFrame, by simp [h.fsm_entry hm]⟩
  | window j w hj hw =>
    have h := windowAt_frameData hl hj hw
    exact ⟨h.toInFrame, by simp [h.fsm_run hj]⟩
  | exit =>
    have h := exitAt_frameData hl
    exact ⟨by simpa using h.toInFrame, by simp [h.fsm]⟩

end

end Sys2Proof.Machine
end

section
/-! PROOF. The output ports in a frame: pins that are no targets stay as they were, every target is low from its fall to
the end of the window, and a shared port then holds OTHER (R94, R98, R101, R112, R121). -/

namespace Sys2Proof.Machine

open Sys2Proof Sys2Proof.Safety

variable {cfg : Config} {i : Instr} {d e : Data cfg}

/-! ## The port writes of one cycle -/

theorem pinLevel_pinWrite_of_ne {w : Nat} (ports : List (BitVec w)) {p b q k : Nat} (level : Bool)
    (h : ¬ (q = p ∧ k = b)) : pinLevel (pinWrite ports p b level) q k = pinLevel ports q k := by
  by_cases hp : p < ports.length
  · have hw : pinWrite ports p b level = portWrite ports p (withBit (portGet ports p) b level) := rfl
    rw [pinLevel, hw, portGet_portWrite _ _ _ _ hp]
    split
    · next hq =>
      rw [withBit_getLsbD, if_neg (fun hk => h ⟨hq, hk.1⟩), ← hq, pinLevel]
    · rfl
  · rw [pinWrite, List.set_eq_of_length_le (Nat.not_lt.mp hp)]

theorem mem_pinActs {x : Desc} {bit : Bool} {s w : Nat} {a : PortAct cfg} (h : a ∈ pinActs cfg x bit s w) :
    ∃ level, a = .pinWrite x.port x.bit level := by
  simp only [pinActs, List.mem_append, List.mem_ite_nil_right, List.mem_singleton] at h
  rcases h with (⟨_, rfl⟩ | ⟨_, rfl⟩) | ⟨_, rfl⟩ <;> exact ⟨_, rfl⟩

/-- EMIT1 and EMIT2 write only their target pins (R101, R112). -/
theorem mem_commandActs_pin (hs : i.sharedPort = false) {a : PortAct cfg} (h : a ∈ commandActs i d) :
    ∃ x ∈ cfg.descs i, ∃ level, a = .pinWrite x.port x.bit level := by
  cases i with
  | emit1 => exact ⟨_, List.mem_singleton_self _, mem_pinActs h⟩
  | emit2 =>
    rcases List.mem_append.mp h with h | h
    · exact ⟨cfg.desc2.1, by simp [Config.descs], mem_pinActs h⟩
    · exact ⟨cfg.desc2.2, by simp [Config.descs], mem_pinActs h⟩
  | emit3 => cases hs
  | emit4 => cases hs

/-- EMIT3 and EMIT4 write their shared port by the schedule of its snapshots (R90, R121). -/
theorem commandActs_shared (hs : i.sharedPort = true) (d : Data cfg) :
    commandActs i d = portActs (cfg.descs i) (i.chans.map (chanGet d.b)) d := by
  cases i with
  | emit1 => cases hs
  | emit2 => cases hs
  | emit3 => rfl
  | emit4 => rfl

/-- Writes that each leave a pin as it is leave it so together. -/
theorem pinLevel_applyActs_of_kept {p b : Nat} {acts : List (PortAct cfg)}
    (h : ∀ a ∈ acts, ∀ ports, pinLevel (applyAct ports a) p b = pinLevel ports p b) (ports : List (BitVec cfg.portW)) :
    pinLevel (applyActs ports acts) p b = pinLevel ports p b := by
  induction acts generalizing ports with
  | nil => rfl
  | cons a acts ih =>
    rw [applyActs_cons, ih (fun a' ha' => h a' (List.mem_cons_of_mem a ha')), h a List.mem_cons_self]

theorem pinLevel_commandActs_pin (hs : i.sharedPort = false) {p b : Nat} (hn : NotTarget cfg i p b)
    (ports : List (BitVec cfg.portW)) : pinLevel (applyActs ports (commandActs i d)) p b = pinLevel ports p b := by
  refine pinLevel_applyActs_of_kept (fun a ha ps => ?_) ports
  obtain ⟨x, hx, level, rfl⟩ := mem_commandActs_pin hs ha
  refine pinLevel_pinWrite_of_ne ps level ?_
  rintro ⟨rfl, rfl⟩
  exact hn hx

/-- A pin of the shared port that is no target lies outside MASK (R15, R72 (a)). -/
theorem mask_notTarget (hs : i.sharedPort = true) (hd : cfg.descsLegal i = true) {b : Nat}
    (hn : NotTarget cfg i (sharedPortId (cfg.descs i)) b) : (mask cfg.portW (cfg.descs i)).getLsbD b = false := by
  rw [mask_getLsbD, decide_eq_false_iff_not]
  rintro ⟨-, x, hx, rfl⟩
  rw [← descsLegal_port hs hd x hx] at hn
  exact hn hx

/-- PAT carries OTHER outside MASK, whatever the channels' bits are (R68). -/
theorem snapPat_outside_mask {w : Nat} (other : BitVec w) (descs : List Desc) (bits : List Bool) {b : Nat}
    (hb : (mask w descs).getLsbD b = false) : (snapPat other (descs.zip bits)).getLsbD b = other.getLsbD b := by
  rw [mask_getLsbD, decide_eq_false_iff_not] at hb
  have hany : (decide (b < w) && (descs.zip bits).any (fun y => y.1.bit == b && y.2)) = false := by
    rw [← Bool.not_eq_true]
    simp only [Bool.and_eq_true, decide_eq_true_eq, List.any_eq_true, beq_iff_eq]
    rintro ⟨hw, y, hy, hyb, -⟩
    exact hb ⟨hw, y.1, (List.of_mem_zip hy).1, hyb⟩
  rw [snapPat_getLsbD, hany, Bool.or_false]

theorem sharedPort_exists (hs : i.sharedPort = true) (hd : cfg.descsLegal i = true) (hp : PortsExist d) :
    sharedPortId (cfg.descs i) < d.ports.length := by
  have hm := chanDesc_mem (cfg := cfg) ((mem_chans_iff i 0).mpr (nch_pos i))
  rw [hp, ← descsLegal_port hs hd _ hm]
  exact (descsLegal_inRange hd _ hm).2

/-- The port writes of a cycle leave a pin that is no target as it is, if OTHER holds its level where it is on the shared
port (R101, R112, R121). -/
theorem pinLevel_commandActs_notTarget (hd : cfg.descsLegal i = true) (hp : PortsExist d) {p b : Nat}
    (hn : NotTarget cfg i p b)
    (ho : i.sharedPort = true → p = sharedPortId (cfg.descs i) → d.other.getLsbD b = pinLevel d.ports p b) :
    pinLevel (applyActs d.ports (commandActs i d)) p b = pinLevel d.ports p b := by
  cases hs : i.sharedPort with
  | false => exact pinLevel_commandActs_pin hs hn d.ports
  | true =>
    rw [commandActs_shared hs, pinLevel, portGet_portActs _ _ _ _ _ (sharedPort_exists hs hd hp)]
    by_cases hP : p = sharedPortId (cfg.descs i)
    · have hother := ho hs hP
      rw [hP] at hn
      have hm := mask_notTarget hs hd hn
      rw [if_pos hP]
      split_ifs
      · exact hother
      · rw [snapPat_outside_mask _ _ _ hm, hother]
      · rw [snapHi_getLsbD, hm, Bool.or_false, hother]
      · rfl
    · rw [if_neg hP, pinLevel]

/-! ## The ports in the cycles of a frame -/

theorem InFrame.portsExist {k : Nat} (h : InFrame i d k e) (hp : PortsExist d) : PortsExist e :=
  h.portsLength.trans hp

theorem InFrame.other_shared {k : Nat} (h : InFrame i d k e) (hs : i.sharedPort = true) : e.other = frameOther i d := by
  rw [h.other, acceptOther, if_pos hs, frameOther]

/-- In a frame OTHER carries the level that a pin of the shared port outside MASK had at accept (R25). -/
theorem InFrame.other_notTarget {k : Nat} (h : InFrame i d k e) (hs : i.sharedPort = true) (hd : cfg.descsLegal i = true)
    {b : Nat} (hn : NotTarget cfg i (sharedPortId (cfg.descs i)) b) :
    e.other.getLsbD b = pinLevel d.ports (sharedPortId (cfg.descs i)) b := by
  rw [h.other_shared hs, frameOther, sampleOther_getLsbD, mask_notTarget hs hd hn, pinLevel]
  simp

section
variable (hl : LaunchReady i d) (hp : PortsExist d)
include hl hp

/-- Every pin that is no target keeps its level throughout a frame (R101, R112, R122). -/
theorem pinLevel_frameData_notTarget {p b : Nat} (hn : NotTarget cfg i p b) {k : Nat} (hk : k ≤ frameCycles i d) :
    pinLevel (frameData i d k).ports p b = pinLevel d.ports p b := by
  have hd := instanceOk_descs hl.fits
  induction k with
  | zero => rfl
  | succ k ih =>
    have ih := ih (by omega)
    by_cases hf : (frameData i d k).fsm = .run
    · have h0 : 0 < k := Nat.pos_of_ne_zero fun h0 => by simp [h0, hl.idle] at hf
      have hin := (inFrame_frameData hl h0 (by omega)).1
      rw [frameData_succ, nextData_run hf, runNext_ports, ← ih]
      refine pinLevel_commandActs_notTarget hd (hin.portsExist hp) hn fun hs hP => ?_
      subst hP
      rw [ih, hin.other_notTarget hs hd hn]
    · obtain ⟨e', he, hkeep⟩ := exec_keeps (exec_frameData hl (k := k) (by omega))
      cases he
      rw [hkeep.ports hf, ih]

end

section
variable {j w : Nat} (h : WindowAt i d j w e) (hl : LaunchReady i d) (hp : PortsExist d) (hj : j < 24 * d.count.toNat)
include h hl hp hj

/-- A target's level after a cycle of a window (R90). -/
theorem WindowAt.targetLevel_next {c : Chan} (hc : c ∈ i.chans) :
    targetLevel i (nextData i e) c =
      if w = cfg.tLong + writeOffset cfg i c then false
      else if w = cfg.tShort + writeOffset cfg i c then chanGet e.b c
      else if w = writeOffset cfg i c then true
      else targetLevel i e c := by
  have hclear : i.sharedPort = true → e.other &&& mask cfg.portW (cfg.descs i) = 0 := fun hs => by
    rw [h.other_shared hs, frameOther, sampleOther_and_mask]
  have hlevel := targetLevel_commandActs hl.fits (h.portsExist hp) hclear hc
  rw [h.tcnt] at hlevel
  rw [targetLevel, nextData_run (h.fsm_run hj), runNext_ports]
  exact hlevel

/-- The shared port after a cycle of a window, from the fall on: OTHER (R90, R94). -/
theorem WindowAt.sharedPort_next (hs : i.sharedPort = true) (hfall : cfg.tLong ≤ w)
    (hbefore : cfg.tLong < w → portGet e.ports (sharedPortId (cfg.descs i)) = frameOther i d) :
    portGet (nextData i e).ports (sharedPortId (cfg.descs i)) = frameOther i d := by
  obtain ⟨_, hlong, _, _, _⟩ := instanceOk_counts hl.fits
  have hP := sharedPort_exists hs (instanceOk_descs hl.fits) (h.portsExist hp)
  rw [nextData_run (h.fsm_run hj), runNext_ports, commandActs_shared hs, portGet_portActs _ _ _ _ _ hP, h.tcnt, if_pos rfl]
  rcases hfall.eq_or_lt with heq | hlt
  · rw [if_pos heq.symm, snapLo, h.other_shared hs]
  · rw [if_neg hlt.ne', if_neg (by omega), if_neg (by omega), hbefore hlt]

end

section
variable (hl : LaunchReady i d) (hp : PortsExist d) {j : Nat} (hj : j < 24 * d.count.toNat)
include hl hp hj

/-- A target pin is low after every cycle of a window from its fall on (R94). -/
theorem targetLevel_frameData_afterFall {c : Chan} (hc : c ∈ i.chans) {w : Nat}
    (hfall : cfg.tLong + writeOffset cfg i c ≤ w) (hw : w < cfg.tBit) :
    targetLevel i (frameData i d (i.nch + 1 + (j * cfg.tBit + w) + 1)) c = false := by
  obtain ⟨_, hlong, _, _, _⟩ := instanceOk_counts hl.fits
  induction w, hfall using Nat.le_induction with
  | base => rw [frameData_succ, (windowAt_frameData hl hj hw).targetLevel_next hl hp hj hc, if_pos rfl]
  | succ w hfall ih =>
    rw [frameData_succ, (windowAt_frameData hl hj hw).targetLevel_next hl hp hj hc, if_neg (by omega), if_neg (by omega),
      if_neg (by omega)]
    exact ih (by omega)

/-- The shared port holds OTHER after every cycle of a window from the fall on (R94, R121). -/
theorem sharedPort_frameData_afterFall (hs : i.sharedPort = true) {w : Nat} (hfall : cfg.tLong ≤ w) (hw : w < cfg.tBit) :
    portGet (frameData i d (i.nch + 1 + (j * cfg.tBit + w) + 1)).ports (sharedPortId (cfg.descs i)) = frameOther i d := by
  induction w, hfall using Nat.le_induction with
  | base =>
    rw [frameData_succ]
    exact (windowAt_frameData hl hj hw).sharedPort_next hl hp hj hs le_rfl fun h => absurd h (Nat.lt_irrefl _)
  | succ w hfall ih =>
    rw [frameData_succ]
    exact (windowAt_frameData hl hj hw).sharedPort_next hl hp hj hs (by omega) fun _ => ih (by omega)

end

/-! ## The end of a frame -/

theorem writeOffset_lt_tShort (hi : instanceOk cfg i = true) (c : Chan) : writeOffset cfg i c < cfg.tShort := by
  obtain ⟨hshort, _, _, _, hskew⟩ := instanceOk_counts hi
  unfold writeOffset
  split
  · next h => exact hskew h.1
  · exact hshort

section
variable (hl : LaunchReady i d)
include hl

/-- The EXIT cycle follows the last cycle of the last window. -/
theorem exists_lastWindowCycle : ∃ j w, j < 24 * d.count.toNat ∧ w + 1 = cfg.tBit ∧
    i.nch + 1 + 24 * d.count.toNat * cfg.tBit = i.nch + 1 + (j * cfg.tBit + w) + 1 := by
  have hT := hl.tBit_pos
  have hc := hl.count_pos
  obtain ⟨j, hj⟩ : ∃ j, 24 * d.count.toNat = j + 1 := ⟨24 * d.count.toNat - 1, by omega⟩
  obtain ⟨w, hw⟩ : ∃ w, w + 1 = cfg.tBit := ⟨cfg.tBit - 1, by omega⟩
  refine ⟨j, w, by omega, hw, ?_⟩
  rw [hj, Nat.succ_mul, ← hw]
  rfl

/-- The elements at the end of a frame are those of its EXIT cycle with the interrupts restored (R95). -/
theorem frameData_end :
    frameData i d (frameCycles i d) = exitCycle (frameData i d (i.nch + 1 + 24 * d.count.toNat * cfg.tBit)) := by
  have h := exitAt_frameData hl
  rw [frameCycles, frameData_succ, nextData_exit]
  rw [h.fsm, if_neg (Nat.lt_irrefl _)]

theorem frameDone_end : FrameDone i d (frameData i d (frameCycles i d)) := by
  have h := exitAt_frameData hl
  have hc := hl.count_pos
  have hdiv : 24 * d.count.toNat / 8 = 3 * d.count.toNat := by omega
  have hmod : 24 * d.count.toNat % 8 = 0 := by omega
  have hchan : ∀ c ∈ i.chans, ChanDone d (frameData i d (frameCycles i d)) c := fun c hm => by
    have hb := h.latchedBefore c hm rfl (by omega)
    have hlast : (24 * d.count.toNat - 1) / 8 = 3 * d.count.toNat - 1 ∧ (24 * d.count.toNat - 1) % 8 = 7 := by omega
    rw [frameData_end hl]
    refine ⟨?_, ?_, ?_⟩
    · rw [exitCycle_cur, h.cur c hm, bytesFetched, hdiv, hmod]
      rfl
    · rw [exitCycle_sh, h.sh c hm, heldByte, hdiv, hmod]
      simp [bufferByte]
    · rw [exitCycle_b, hb, windowBit, hlast.1, hlast.2, bitOf]
  rw [frameData_end hl] at hchan ⊢
  refine ⟨rfl, h.ieSaved, h.ieSaved, ?_, ?_, hchan, h.ptr, h.count, h.mem, h.tcnt, h.ecnt⟩
  · exact BitVec.eq_of_toNat_eq (by rw [exitCycle_bytesLeft, h.bytesLeft, hdiv]; simp)
  · exact BitVec.eq_of_toNat_eq (by rw [exitCycle_bitix, h.bitix, hmod]; rfl)

theorem frameKept_end : FrameKept i d (frameData i d (frameCycles i d)) := by
  have h := exitAt_frameData hl
  rw [frameData_end hl]
  exact ⟨h.above, fun hs => h.other.trans (by simp [acceptOther, hs]), h.host, h.resetIn⟩

theorem targetLevel_end (hp : PortsExist d) {c : Chan} (hc : c ∈ i.chans) :
    targetLevel i (frameData i d (frameCycles i d)) c = false := by
  obtain ⟨j, w, hj, hw, hlast⟩ := exists_lastWindowCycle hl
  have hoff := writeOffset_lt_tShort hl.fits c
  have hT : cfg.tBit = cfg.tShort + cfg.tLong := rfl
  rw [frameData_end hl, targetLevel, exitCycle_ports, hlast]
  exact targetLevel_frameData_afterFall hl hp hj hc (by omega) (by omega)

theorem sharedPort_end (hp : PortsExist d) (hs : i.sharedPort = true) :
    portGet (frameData i d (frameCycles i d)).ports (sharedPortId (cfg.descs i)) = frameOther i d := by
  obtain ⟨j, w, hj, hw, hlast⟩ := exists_lastWindowCycle hl
  obtain ⟨hshort, _, _, _, _⟩ := instanceOk_counts hl.fits
  have hT : cfg.tBit = cfg.tShort + cfg.tLong := rfl
  rw [frameData_end hl, exitCycle_ports, hlast]
  exact sharedPort_frameData_afterFall hl hp hj hs (by omega) (by omega)

end

/-- Settles O44: the elements follow the windows to the EXIT cycle, and the pins the falls of the last window. -/
theorem frameEndState : Obligations.FrameEndState := by
  unfold Obligations.FrameEndState
  intro i cfg d hl hp
  have h := exitAt_frameData hl
  have hend := frameData_end hl
  have hother : i.sharedPort = true → (frameData i d (frameCycles i d)).other = frameOther i d := fun hs => by
    rw [hend]; exact h.other_shared hs
  refine ⟨frameData i d (frameCycles i d), execTimes_frameData hl le_rfl, ?_, frameDone_end hl, frameKept_end hl,
    ?_, ?_, ?_, fun c hc => targetLevel_end hl hp hc, fun p b hn => pinLevel_frameData_notTarget hl hp hn le_rfl,
    fun hs => ⟨(sharedPort_end hl hp hs).trans (hother hs).symm, hother hs⟩⟩
  · rw [hend]; rfl
  · rw [hend]; exact h.active
  · rw [hend, exitCycle_now, h.now]; simp [frameCycles, Nat.add_assoc]
  · rw [hend]; exact h.portsExist hp

end Sys2Proof.Machine
end

section
/-! PROOF. Steps of the machine in a frame: the host's write of a command word is the launch, a busy step is a cycle of the
running command, and the reset input decides nothing while it is low (R11, R14, R97). -/

namespace Sys2Proof.Machine

open Sys2Proof Sys2Proof.Safety

variable {cfg : Config} {i : Instr} {d : Data cfg}

/-! ## The step that launches, and the busy step -/

/-- A word always fits the register CMD. -/
theorem writeReg_cmd (w : Byte) (s : State) : writeReg 0 w.toNat s = writeCmd w s := by
  have hlt : w.toNat < 2 ^ 8 := w.isLt
  rw [writeReg, if_pos hlt, BitVec.ofNat_toNat, BitVec.setWidth_eq]

theorem writeCmd_command {w : Byte} {rest : List Byte} (h : decode [w] = .command i rest) (s : State) :
    writeCmd w s = exec i s := by
  rw [writeCmd, h]

/-- Settles O32: the next operation of the host is the write, and a write of a word that decodes is the
command. An instance that cannot be built refuses both sides. -/
theorem stepRunsDecodedCommand : Obligations.StepRunsDecodedCommand := by
  unfold Obligations.StepRunsDecodedCommand
  intro cfg d w i rest hf hr hh hw
  cases hb : cfg.wellBuilt with
  | false =>
    have hi : instanceOk cfg i = false := instanceOk_of_wellBuilt_false hb
    rw [step_of_wellBuilt_false (s := ⟨cfg, d⟩) hb]
    exact (exec_of_instanceOk_false (s := ⟨cfg, _⟩) hi).symm
  | true =>
    rw [step_host ⟨hb, hf, hr⟩ hh, hostOp, writeReg_cmd, writeCmd_command hw]

/-- While a frame is in progress a step without reset is a cycle of the running command. -/
theorem step_busy (hf : d.fsm ≠ .idle) (hr : resetApplied d = false) :
    step ⟨cfg, d⟩ = exec d.active ⟨cfg, sampleReset d⟩ := by
  cases hb : cfg.wellBuilt with
  | false =>
    have hi : instanceOk cfg d.active = false := instanceOk_of_wellBuilt_false hb
    rw [step_of_wellBuilt_false (s := ⟨cfg, d⟩) hb]
    exact (exec_of_instanceOk_false (s := ⟨cfg, _⟩) hi).symm
  | true =>
    rw [step_active (s := ⟨cfg, d⟩) hb hr, activeCycle]
    cases hc : d.fsm with
    | idle => exact absurd hc hf
    | entry => simp [hc]
    | run => simp [hc]
    | exit => simp [hc]

/-! ## A command does not look at the reset input -/

/-- The elements d with these coming levels of the reset input. -/
def withResetIn (d : Data cfg) (r : List Bool) : Data cfg := { d with resetIn := r }

theorem sampleReset_withResetIn (d : Data cfg) (r : List Bool) : sampleReset (withResetIn d r) = withResetIn d r.tail := rfl

theorem commandActs_withResetIn (i : Instr) (d : Data cfg) (r : List Bool) :
    commandActs i (withResetIn d r) = commandActs i d := by
  cases i <;> rfl

theorem nextData_withResetIn (i : Instr) (d : Data cfg) (r : List Bool) :
    nextData i (withResetIn d r) = withResetIn (nextData i d) r := by
  have same {f : Fsm} (hf : d.fsm = f) : (withResetIn d r).fsm = f := hf
  cases hf : d.fsm with
  | idle => rw [nextData_idle hf, nextData_idle (same hf)]; rfl
  | entry =>
    have hchan : entryChan i.nch (withResetIn d r) = entryChan i.nch d := rfl
    cases hc : entryChan i.nch d with
    | none => simp only [nextData, hf, same hf, hchan, hc]
    | some c => rw [nextData_entry hf hc, nextData_entry (same hf) (hchan.trans hc)]; rfl
  | run => rw [nextData_run hf, nextData_run (same hf), commandActs_withResetIn]; rfl
  | exit => rw [nextData_exit hf, nextData_exit (same hf)]; rfl

theorem frameData_withResetIn (i : Instr) (d : Data cfg) (r : List Bool) (k : Nat) :
    frameData i (withResetIn d r) k = withResetIn (frameData i d k) r := by
  induction k with
  | zero => rfl
  | succ k ih => rw [frameData_succ, ih, nextData_withResetIn, ← frameData_succ]

/-- A cycle of a frame runs the same whatever the reset input will be. -/
theorem exec_frameData_withResetIn (hl : LaunchReady i d) {k : Nat} (hk : k < frameCycles i d) (r : List Bool) :
    exec i ⟨cfg, withResetIn (frameData i d k) r⟩ = .next ⟨cfg, withResetIn (frameData i d (k + 1)) r⟩ := by
  have hl' : LaunchReady i (withResetIn d r) := hl
  rw [← frameData_withResetIn, ← frameData_withResetIn]
  exact exec_frameData hl' hk

/-! ## The steps of a frame -/

/-- A run that has answered a next state goes on with a step of it. -/
theorem run_succ_of_next (M : Host.Core) {k : Nat} {s t : M.State} (h : M.run k s = .next t) :
    M.run (k + 1) s = M.step t := by
  induction k generalizing s with
  | zero =>
    cases h
    rw [Host.Core.run]
    cases M.step t <;> rfl
  | succ k ih =>
    rw [Host.Core.run] at h ⊢
    cases hs : M.step s with
    | next s' => rw [hs] at h; exact ih h
    | fault f => rw [hs] at h; cases h
    | refused r => rw [hs] at h; cases h

/-- With reset not applied in the next n cycles it is not applied in any one of them. -/
theorem noResetFor_head {n k : Nat} (h : NoResetFor n d) (hk : k < n) (e : Data cfg) :
    resetApplied (withResetIn e (d.resetIn.drop k)) = false := by
  simp only [resetApplied, withResetIn, List.head?_drop, beq_eq_false_iff_ne]
  intro hhead
  exact h (List.mem_of_getElem? ((List.getElem?_take_of_lt hk).trans hhead))

/-- A step of a frame in progress whose reset input is low in this cycle is the frame's next cycle. -/
theorem step_frameData (hl : LaunchReady i d) {k : Nat} (h0 : 0 < k) (hk : k < frameCycles i d) {r : List Bool}
    (hr : resetApplied (withResetIn (frameData i d k) r) = false) :
    step ⟨cfg, withResetIn (frameData i d k) r⟩ = .next ⟨cfg, withResetIn (frameData i d (k + 1)) r.tail⟩ := by
  obtain ⟨hin, hf⟩ := inFrame_frameData hl h0 hk
  have hactive : (withResetIn (frameData i d k) r).active = i := hin.active
  rw [step_busy (d := withResetIn _ r) hf hr, hactive, sampleReset_withResetIn]
  exact exec_frameData_withResetIn hl hk r.tail

/-- k steps after the host met the block with the command word to write, the block is k cycles into the frame. -/
theorem run_frameData {rest : List HostOp} (hl : LaunchReady i d) (hn : NoResetFor (frameCycles i d) d)
    (hh : d.host = .writeReg 0 (encodeWord i).toNat :: rest) {k : Nat} (h0 : 0 < k) (hk : k ≤ frameCycles i d) :
    Host.Core.run core k ⟨cfg, d⟩ =
      .next ⟨cfg, withResetIn (frameData i { d with host := rest } k) (d.resetIn.drop k)⟩ := by
  have hl' : LaunchReady i { d with host := rest } := hl
  induction k, h0 using Nat.le_induction with
  | base =>
    have hdec : decode [encodeWord i] = .command i [] := by cases i <;> rfl
    have hr : resetApplied d = false := noResetFor_head hn hk d
    have hstep := stepRunsDecodedCommand cfg d _ i rest hl.idle hr hh hdec
    have hexec := exec_frameData_withResetIn hl' hk d.resetIn.tail
    rw [List.drop_one]
    exact (run_succ_of_next core rfl).trans (hstep.trans hexec)
  | succ k h0 ih =>
    have hstep := step_frameData hl' h0 hk (noResetFor_head hn hk _)
    rw [List.tail_drop] at hstep
    exact (run_succ_of_next core (ih (by omega))).trans hstep

/-- Settles O55: k steps are k cycles into the frame, and the frame's cycles do not look at the reset input. -/
theorem stepsRunTheWholeFrame : Obligations.StepsRunTheWholeFrame := by
  unfold Obligations.StepsRunTheWholeFrame
  intro i cfg d rest hl hn hh
  have hl' : LaunchReady i (withResetIn { d with host := rest } (d.resetIn.drop (frameCycles i d))) := hl
  have hpos : 0 < frameCycles i d := Nat.succ_pos _
  rw [run_frameData hl hn hh hpos le_rfl, ← frameData_withResetIn]
  exact (execTimes_frameData hl' le_rfl).symm

end Sys2Proof.Machine
end

section
/-! PROOF. The host's registers and latches between frames, STATUS, and the invariant at reset (R11 to R14, R26, R27). -/

namespace Sys2Proof.Machine

open Sys2Proof Sys2Proof.Safety

variable {cfg : Config}

/-! ## The register map (10_state.md section 2) -/

theorem chanOf_val (c : Chan) : chanOf c.val = some c := chanOf_eq_some_iff.mpr rfl

theorem chanOf_eq_none {n : Nat} (h : 4 ≤ n) : chanOf n = none := dif_neg (Nat.not_lt.mpr h)

/-- The numbers that name no register. -/
theorem unlisted_cases {n : Nat} (h : n = 3 ∨ 8 ≤ n) : n = 3 ∨ ∃ k, n = k + 4 ∧ chanOf k = none := by
  rcases h with h | h
  · exact .inl h
  · exact .inr ⟨n - 4, by omega, chanOf_eq_none (by omega)⟩

@[simp] theorem regValue_status (d : Data cfg) : regValue d 1 = some (status d).toNat := rfl

@[simp] theorem regValue_count (d : Data cfg) : regValue d 2 = some d.count.toNat := rfl

@[simp] theorem regValue_ptr (d : Data cfg) (c : Chan) : regValue d (4 + c.val) = some (chanGet d.ptr c).toNat := by
  rw [Nat.add_comm, regValue, chanOf_val]
  rfl

theorem regValue_unlisted (d : Data cfg) {n : Nat} (h : n = 3 ∨ 8 ≤ n) : regValue d n = none := by
  rcases unlisted_cases h with rfl | ⟨k, rfl, hk⟩
  · rfl
  · rw [regValue, hk]
    rfl

theorem writeReg_count (s : State) {v : Nat} (hv : v < 2 ^ s.cfg.countW) :
    writeReg 2 v s = onward s (tick { s.data with count := BitVec.ofNat s.cfg.countW v }) := by
  rw [writeReg, if_pos hv]

theorem writeReg_ptr (s : State) (c : Chan) {v : Nat} (hv : v < 2 ^ s.cfg.addrW) :
    writeReg (4 + c.val) v s =
      onward s (tick { s.data with ptr := chanSet s.data.ptr c (BitVec.ofNat s.cfg.addrW v) }) := by
  rw [Nat.add_comm, writeReg, chanOf_val]
  exact if_pos hv

theorem writeReg_unlisted (s : State) (v : Nat) {n : Nat} (h : n = 3 ∨ 8 ≤ n) :
    writeReg n v s = .refused (.noSuchRegister n) := by
  rcases unlisted_cases h with rfl | ⟨k, rfl, hk⟩
  · rfl
  · rw [writeReg, hk]

theorem readReg_of_some {n v : Nat} {s : State} (h : regValue s.data n = some v) :
    readReg n s = onward s (tickWith [.regRead n v] s.data) := by
  rw [readReg, h]

theorem readReg_unlisted (s : State) {n : Nat} (h : n = 3 ∨ 8 ≤ n) : readReg n s = .refused (.noSuchRegister n) := by
  rw [readReg, regValue_unlisted s.data h]
  exact if_neg (by omega)

theorem ofNat_toNat_of_lt {w v : Nat} (h : v < 2 ^ w) : (BitVec.ofNat w v).toNat = v := by
  rw [BitVec.toNat_ofNat, Nat.mod_eq_of_lt h]

/-! ## Writes and reads of the operands -/

/-- Settles O8: the write sets its register to the value, which fits, and a read gives the register's value. -/
theorem operandRegistersWriteAndRead : Obligations.OperandRegistersWriteAndRead := by
  unfold Obligations.OperandRegistersWriteAndRead
  intro cfg d rest ht
  refine ⟨fun v hv hh => ⟨_, ?_, ?_, rfl⟩, fun c v hv hh => ?_⟩
  · rw [step_host ht hh, hostOp, writeReg_count _ hv]
    rfl
  · rw [regValue_count, ofNat_toNat_of_lt hv]
  · refine ⟨{ d with ptr := chanSet d.ptr c (BitVec.ofNat cfg.addrW v), host := rest, resetIn := d.resetIn.tail
                     now := d.now + 1 }, ?_, ?_, fun c' hc' => chanGet_chanSet_other d.ptr _ hc', rfl⟩
    · rw [step_host ht hh, hostOp, writeReg_ptr _ c hv]
      rfl
    · rw [regValue_ptr, chanGet_chanSet_same, ofNat_toNat_of_lt hv]

theorem status_idle {d : Data cfg} (hf : d.fsm = .idle) : status d = 0 := by
  simp [status, busy, hf]

/-- A step in which the host reads a register that has a value shows the value and changes nothing else. -/
theorem step_readReg {d : Data cfg} {rest : List HostOp} {n v : Nat} (ht : HostTurn d) (hh : d.host = .readReg n :: rest)
    (hv : regValue d n = some v) :
    step ⟨cfg, d⟩ = .next ⟨cfg, { d with
      host := rest, resetIn := d.resetIn.tail, now := d.now + 1
      trace := d.trace ++ [⟨d.now, .regRead n v⟩] }⟩ := by
  have hv' : regValue { d with host := rest, resetIn := d.resetIn.tail } n = some v := hv
  rw [step_host ht hh, hostOp, readReg_of_some hv']
  rfl

/-- Settles O9: the three kinds of register that can be read, each with its value. -/
theorem hostReadsRegisters : Obligations.HostReadsRegisters := by
  unfold Obligations.HostReadsRegisters
  intro cfg d rest n ht hh hn
  have hf : d.fsm = .idle := ht.2.1
  rcases hn with rfl | rfl | hn
  · have hv : regValue d 1 = some 0 := by rw [regValue_status, status_idle hf]; rfl
    exact ⟨0, hv, fun _ => rfl, by omega, by omega, step_readReg ht hh hv⟩
  · exact ⟨_, regValue_count d, by omega, fun _ => rfl, by omega, step_readReg ht hh (regValue_count d)⟩
  · obtain ⟨c, rfl⟩ : ∃ c : Chan, n = 4 + c.val := ⟨⟨n - 4, by omega⟩, by simp only; omega⟩
    refine ⟨_, regValue_ptr d c, by omega, by omega, fun c' hc => ?_, step_readReg ht hh (regValue_ptr d c)⟩
    rw [Fin.ext (by omega : c.val = c'.val)]

/-! ## The interrupt enable and the latches -/

theorem portGet_portWrite_of_ne {w : Nat} (ports : List (BitVec w)) {p q : Nat} (v : BitVec w) (h : q ≠ p) :
    portGet (portWrite ports p v) q = portGet ports q := by
  simp [portGet, portWrite, Ne.symm h]

theorem setPort_eq (s : State) {p v : Nat} (hp : p < s.cfg.nports) (hv : v < 2 ^ s.cfg.portW) :
    setPort p v s = onward s (tickWith [.hostPort p (BitVec.ofNat s.cfg.portW v)]
      { s.data with ports := portWrite s.data.ports p (BitVec.ofNat s.cfg.portW v) }) := by
  rw [setPort, if_neg (Nat.not_le.mpr hp), if_neg (Nat.not_le.mpr hv)]

/-- Settles O10: each of the two operations changes its one element. -/
theorem hostWritesPortAndEnable : Obligations.HostWritesPortAndEnable := by
  unfold Obligations.HostWritesPortAndEnable
  intro cfg d rest ht
  refine ⟨fun v hh => ?_, fun p v hp hv hh => ?_⟩
  · rw [step_host ht hh]
    rfl
  · refine ⟨{ d with ports := portWrite d.ports p (BitVec.ofNat cfg.portW v), host := rest, resetIn := d.resetIn.tail
                     now := d.now + 1, trace := d.trace ++ [⟨d.now, .hostPort p (BitVec.ofNat cfg.portW v)⟩] }, ?_,
      fun hlen => ?_, fun q hq => portGet_portWrite_of_ne d.ports _ hq, rfl⟩
    · rw [step_host ht hh, hostOp, setPort_eq _ hp hv]
      rfl
    · rw [portGet_portWrite _ _ _ _ hlen, if_pos rfl, ofNat_toNat_of_lt hv]

/-! ## Accesses that are refused -/

/-- Settles O11: the step is the host's access, and the access is refused by its own name. -/
theorem forbiddenRegisterAccesses : Obligations.ForbiddenRegisterAccesses := by
  unfold Obligations.ForbiddenRegisterAccesses
  intro cfg d rest ht
  refine ⟨fun hh => ?_, fun v hh => ?_, fun n hn => ⟨fun hh => ?_, fun v hh => ?_⟩⟩
  · rw [step_host ht hh]
    rfl
  · rw [step_host ht hh]
    rfl
  · rw [step_host ht hh, hostOp, readReg_unlisted _ hn]
  · rw [step_host ht hh, hostOp, writeReg_unlisted _ v hn]

/-! ## STATUS and the held host -/

theorem busy_eq (d : Data cfg) : busy d = decide (d.fsm ≠ .idle) := by
  unfold busy
  cases d.fsm <;> rfl

/-- STATUS holds BUSY in bit 0 and nothing else. -/
theorem status_getLsbD (d : Data cfg) (k : Nat) : (status d).getLsbD k = (busy d && decide (k = 0)) := by
  unfold status
  cases busy d with
  | false => simp
  | true => cases k <;> simp

/-- While a frame is in progress the host waits, whether the cycle is a reset or the running command's. -/
theorem step_busy_host {d : Data cfg} {t : State} (hf : d.fsm ≠ .idle) (h : step ⟨cfg, d⟩ = .next t) :
    t.data.host = d.host := by
  rcases (step_next h).2 with ⟨_, rfl⟩ | ⟨_, _, he⟩ | ⟨_, hidle, _⟩
  · rfl
  · obtain ⟨d', rfl, hkeep⟩ := exec_keeps he
    exact hkeep.host
  · exact absurd hidle hf

/-- Settles O12: the bits of STATUS, and the host held through a busy step. -/
theorem statusAndHeldHost : Obligations.StatusAndHeldHost := by
  unfold Obligations.StatusAndHeldHost
  intro cfg d
  refine ⟨?_, fun k hk => ?_, fun t hf h => step_busy_host hf h⟩
  · rw [status_getLsbD, busy_eq]
    simp
  · have h0 : k ≠ 0 := by omega
    simp [status_getLsbD, h0]

/-! ## Reset -/

/-- The reset state of any instance that can be built satisfies the invariant. -/
theorem inv_reset (hw : cfg.wellBuilt = true) : Inv ⟨cfg, Data.reset cfg⟩ := by
  have hidle : (Data.reset cfg).fsm = .idle := rfl
  have hnot {f : Fsm} (hf : f ≠ .idle) : (Data.reset cfg).fsm ≠ f := fun h => hf (h.symm.trans hidle)
  exact ⟨hw, rfl, List.length_replicate, fun h => absurd h (hnot nofun), fun h => absurd h (hnot nofun),
    fun h => absurd h (hnot nofun)⟩

/-- Settles O40: the instance of `State.reset` can be built. -/
theorem invariantAtReset : Obligations.InvariantAtReset := by
  unfold Obligations.InvariantAtReset
  exact inv_reset (by decide)

end Sys2Proof.Machine
end

section
/-! PROOF. The trace of a frame, cycle by cycle, and the memory reads in it (R46, R47, R86, R92). -/

namespace Sys2Proof.Machine

open Sys2Proof Sys2Proof.Safety

variable {cfg : Config} {i : Instr} {d e : Data cfg}

/-! ## The trace after a number of cycles -/

/-- The events of a cycle of command i that answers a next state (R86). -/
def cycleEvents (i : Instr) (d : Data cfg) : List (Event cfg) :=
  match d.fsm with
  | .idle => [.ieWrite false]
  | .entry =>
    match entryChan i.nch d with
    | some c => [fetchEvent d c]
    | none => []
  | .run => runEvents i.nch (commandActs i d) d
  | .exit => [.ieWrite d.ieSaved]

/-- The entries that cycle number k of a frame adds to the trace. -/
def cycleTrace (i : Instr) (d : Data cfg) (k : Nat) : List (Timed cfg) :=
  stamp (frameData i d k).now (cycleEvents i (frameData i d k))

/-- The trace of the first k cycles of a frame. -/
def frameTrace (i : Instr) (d : Data cfg) (k : Nat) : List (Timed cfg) := (List.range k).flatMap (cycleTrace i d)

@[simp] theorem frameTrace_zero (i : Instr) (d : Data cfg) : frameTrace i d 0 = [] := rfl

theorem stamp_append (t : Nat) (es es' : List (Event cfg)) : stamp t (es ++ es') = stamp t es ++ stamp t es' :=
  List.map_append

theorem frameTrace_succ (i : Instr) (d : Data cfg) (k : Nat) :
    frameTrace i d (k + 1) = frameTrace i d k ++ cycleTrace i d k := by
  simp [frameTrace, List.range_succ]

theorem nextData_trace (i : Instr) (d : Data cfg) :
    (nextData i d).trace = d.trace ++ stamp d.now (cycleEvents i d) := by
  cases hf : d.fsm with
  | idle => rw [nextData_idle hf, cycleEvents, hf, acceptCycle_trace]
  | entry =>
    cases hc : entryChan i.nch d with
    | none => simp [nextData, cycleEvents, hf, hc, stamp]
    | some c => simp [nextData_entry hf hc, cycleEvents, hf, hc]
  | run => rw [nextData_run hf, cycleEvents, hf, runNext_trace]
  | exit => rw [nextData_exit hf, cycleEvents, hf, exitCycle_trace]

theorem frameData_trace (i : Instr) (d : Data cfg) (k : Nat) :
    (frameData i d k).trace = d.trace ++ frameTrace i d k := by
  induction k with
  | zero => simp
  | succ k ih => rw [frameData_succ, nextData_trace, ih, frameTrace_succ, cycleTrace, List.append_assoc]

/-- What holds at the first cycle of window 0 of N windows of T cycles, and is kept from each cycle to the next of its window
and from the last cycle of a window to the next window, holds after the last window, at EXIT. -/
theorem windows_induction {N T : Nat} (hT : 0 < T) {P : Nat → Nat → Prop} (first : P 0 0)
    (cycle : ∀ j w, j < N → w + 1 < T → P j w → P j (w + 1))
    (window : ∀ j w, j < N → w + 1 = T → P j w → P (j + 1) 0) : P N 0 := by
  have inWindow : ∀ j, j < N → P j 0 → ∀ w, w < T → P j w := fun j hj h0 w hw => by
    induction w with
    | zero => exact h0
    | succ w ih => exact cycle j w hj hw (ih (by omega))
  have starts : ∀ j, j ≤ N → P j 0 := fun j hj => by
    induction j with
    | zero => exact first
    | succ j ih => exact window j (T - 1) hj (by omega) (inWindow j hj (ih (by omega)) _ (by omega))
  exact starts N le_rfl

theorem fsm_frameData_exit (hl : LaunchReady i d) :
    (frameData i d (i.nch + 1 + 24 * d.count.toNat * cfg.tBit)).fsm = .exit := by
  rw [(exitAt_frameData hl).fsm, if_neg (Nat.lt_irrefl _)]

/-! ## The reads of one cycle -/

/-- The channel that a cycle of command i fetches, if it fetches one (R88, R92). -/
def cycleFetch (i : Instr) (d : Data cfg) : Option Chan :=
  match d.fsm with
  | .idle => none
  | .entry => entryChan i.nch d
  | .run => runChan i.nch d
  | .exit => none

theorem memReads_append (c : Chan) (tr tr' : List (Timed cfg)) : memReads c (tr ++ tr') = memReads c tr ++ memReads c tr' :=
  List.filterMap_append

theorem memReads_fetch (c c' : Chan) (t : Nat) (d : Data cfg) :
    memReads c (stamp t [fetchEvent d c']) =
      if c' = c then [(t, chanGet d.cur c, memRead d (chanGet d.cur c))] else [] := by
  by_cases h : c' = c
  · subst h; simp [memReads, stamp, fetchEvent]
  · simp [memReads, stamp, fetchEvent, h]

theorem memReads_out (c : Chan) (t : Nat) (acts : List (PortAct cfg)) : memReads c (stamp t (acts.map .out)) = [] := by
  simp [memReads, stamp]

/-- A cycle reads the byte at the cursor of the channel it fetches, and no other. -/
theorem memReads_cycleEvents (i : Instr) (c : Chan) (t : Nat) (d : Data cfg) :
    memReads c (stamp t (cycleEvents i d)) =
      if cycleFetch i d = some c then [(t, chanGet d.cur c, memRead d (chanGet d.cur c))] else [] := by
  unfold cycleEvents cycleFetch
  cases d.fsm with
  | idle => rfl
  | entry =>
    cases entryChan i.nch d with
    | none => rfl
    | some c' => simp [memReads_fetch]
  | run =>
    simp only [runEvents, stamp_append, memReads_append, memReads_out, List.nil_append]
    cases runChan i.nch d with
    | none => rfl
    | some c' => simp [memReads_fetch]
  | exit => rfl

theorem cycleFetch_mem_chans {c : Chan} (h : cycleFetch i d = some c) : c ∈ i.chans := by
  rw [mem_chans_iff]
  unfold cycleFetch at h
  split at h
  · cases h
  · exact (entryChan_eq_some_iff.mp h).2
  · exact (runChan_eq_some_iff.mp h).2.2
  · cases h

/-- A channel the command has not is never read. -/
theorem memReads_frameTrace_of_notMem {c : Chan} (hc : c ∉ i.chans) (k : Nat) : memReads c (frameTrace i d k) = [] := by
  induction k with
  | zero => rfl
  | succ k ih =>
    rw [frameTrace_succ, memReads_append, ih, cycleTrace, memReads_cycleEvents,
      if_neg fun h => hc (cycleFetch_mem_chans h), List.nil_append]

/-! ## The reads of a frame -/

/-- Read number n of channel c in a frame accepted now: byte n of its buffer, the first in ENTRY and the others each in the
eighth window of the byte before (R46, R47). -/
def readOf (i : Instr) (d : Data cfg) (c : Chan) (n : Nat) : Nat × BitVec cfg.addrW × Byte :=
  (if n = 0 then d.now + 1 + c.val else windowStart i d (8 * (n - 1) + 7) + 1 + c.val,
    byteAddr (chanGet d.ptr c) n, bufferByte d c n)

theorem readSchedule_eq (i : Instr) (d : Data cfg) (c : Chan) :
    readSchedule i d c = (List.range (3 * d.count.toNat + 1)).map (readOf i d c) := by
  simp [readSchedule, readOf, bufferByte, List.range_succ_eq_map, Function.comp_def]

/-- The reads of channel c after the accept cycle and m fetches of ENTRY. -/
theorem memReads_entry (hl : LaunchReady i d) {c : Chan} (hc : c ∈ i.chans) {m : Nat} (hm : m ≤ i.nch) :
    memReads c (frameTrace i d (m + 1)) = (List.range (if c.val < m then 1 else 0)).map (readOf i d c) := by
  induction m with
  | zero =>
    have hfetch : cycleFetch i d = none := by simp [cycleFetch, hl.idle]
    rw [frameTrace_succ, memReads_append, cycleTrace, memReads_cycleEvents, frameData_zero, hfetch]
    rfl
  | succ m ih =>
    have h := entryAt_frameData hl (m := m) (by omega)
    obtain ⟨c', hcm, -, he⟩ := h.entryChan_eq hm
    have hfetch : cycleFetch i (frameData i d (m + 1)) = some c' := by
      simpa [cycleFetch, h.fsm_entry hm] using he
    rw [frameTrace_succ, memReads_append, ih (by omega), cycleTrace, memReads_cycleEvents, hfetch, h.cur c hc, h.now,
      h.memRead_eq]
    by_cases heq : c' = c
    · subst heq
      simp [hcm, readOf, bufferByte]
      omega
    · have hne : c.val ≠ m := fun hv => heq (Fin.ext (hcm.trans hv.symm))
      have hlt : c.val < m ↔ c.val < m + 1 := by omega
      simp [heq, hlt]

/-- A window cycle reads the channel's next byte if it is the channel's fetch, and nothing else (R92). -/
theorem WindowAt.memReads_eq {j w : Nat} (h : WindowAt i d j w e) (hj : j < 24 * d.count.toNat) {c : Chan}
    (hc : c ∈ i.chans) :
    memReads c (stamp e.now (cycleEvents i e)) =
      if j % 8 = 7 ∧ w = c.val + 1 then [readOf i d c (bytesFetched c j w)] else [] := by
  have hfetch : cycleFetch i e = runChan i.nch e := by simp [cycleFetch, h.fsm_run hj]
  rw [memReads_cycleEvents, hfetch]
  simp only [h.runChan_eq hc]
  refine if_ctx_congr Iff.rfl (fun hf => ?_) fun _ => rfl
  obtain ⟨h7, hw⟩ := hf
  have hn : bytesFetched c j w = j / 8 + 1 := by simp [bytesFetched, hw]
  have hj7 : 8 * (j / 8 + 1 - 1) + 7 = j := by omega
  have htime : e.now = windowStart i d j + 1 + c.val := by rw [h.now, windowStart, firstRise]; omega
  rw [h.cur c hc, h.memRead_eq, readOf, bufferByte, hn, if_neg (Nat.succ_ne_zero _), hj7, htime]

/-- The reads of channel c when window cycle w of window j begins are the bytes fetched, in order. -/
def ReadsDone (i : Instr) (d : Data cfg) (c : Chan) (j w : Nat) : Prop :=
  memReads c (frameTrace i d (i.nch + 1 + (j * cfg.tBit + w))) = (List.range (bytesFetched c j w)).map (readOf i d c)

section
variable (hl : LaunchReady i d) {c : Chan} (hc : c ∈ i.chans)
include hl hc

theorem readsDone_first : ReadsDone i d c 0 0 := by
  rw [ReadsDone, Nat.zero_mul, memReads_entry hl hc le_rfl, if_pos ((mem_chans_iff i c).mp hc)]
  rfl

theorem memReads_cycle {j w : Nat} (hj : j < 24 * d.count.toNat) (hw : w < cfg.tBit) (h : ReadsDone i d c j w) :
    memReads c (frameTrace i d (i.nch + 1 + (j * cfg.tBit + w) + 1)) =
      (List.range (bytesFetched c j (w + 1))).map (readOf i d c) := by
  rw [frameTrace_succ, memReads_append, h, cycleTrace, (windowAt_frameData hl hj hw).memReads_eq hj hc, bytesFetched_succ]
  split
  · rw [List.range_succ, List.map_append, List.map_singleton]
  · rw [List.append_nil, Nat.add_zero]

/-- The last cycle of a window completes the window's fetch. -/
theorem readsDone_window {j w : Nat} (hj : j < 24 * d.count.toNat) (hw : w + 1 = cfg.tBit) (h : ReadsDone i d c j w) :
    ReadsDone i d c (j + 1) 0 := by
  obtain ⟨_, _, hfit, _, _⟩ := instanceOk_counts hl.fits
  have hn : c.val < i.nch := (mem_chans_iff i c).mp hc
  have hcycle : i.nch + 1 + ((j + 1) * cfg.tBit + 0) = i.nch + 1 + (j * cfg.tBit + w) + 1 := by
    rw [Nat.succ_mul, ← hw]; rfl
  rw [ReadsDone, hcycle, memReads_cycle hl hc hj (by omega) h, bytesFetched_next_window (w := w + 1) (by omega)]

theorem readsDone_exit : ReadsDone i d c (24 * d.count.toNat) 0 :=
  windows_induction hl.tBit_pos (readsDone_first hl hc) (fun _ _ hj hw h => memReads_cycle hl hc hj (by omega) h)
    fun _ _ hj hw h => readsDone_window hl hc hj hw h

/-- The reads of a channel of the command in a whole frame. -/
theorem memReads_frame : memReads c (frameTrace i d (frameCycles i d)) = readSchedule i d c := by
  have hfetch : cycleFetch i (frameData i d (i.nch + 1 + 24 * d.count.toNat * cfg.tBit)) = none := by
    simp [cycleFetch, fsm_frameData_exit hl]
  have hdiv : 24 * d.count.toNat / 8 = 3 * d.count.toNat := by omega
  have hmod : 24 * d.count.toNat % 8 = 0 := by omega
  have hall : bytesFetched c (24 * d.count.toNat) 0 = 3 * d.count.toNat + 1 := by
    rw [bytesFetched, hdiv, hmod]
    rfl
  have hdone : memReads c (frameTrace i d (i.nch + 1 + 24 * d.count.toNat * cfg.tBit)) =
      (List.range (3 * d.count.toNat + 1)).map (readOf i d c) := by
    rw [← hall]
    exact readsDone_exit hl hc
  rw [frameCycles, frameTrace_succ, memReads_append, hdone, cycleTrace, memReads_cycleEvents, hfetch, readSchedule_eq]
  exact List.append_nil _

end

/-- Settles O50: the bytes of a channel of the command are fetched in the order of the schedule and all fetched at EXIT;
no other channel is ever fetched. -/
theorem frameReads : Obligations.FrameReads := by
  unfold Obligations.FrameReads
  intro i cfg d hl
  refine ⟨_, _, execTimes_frameData hl le_rfl, frameData_trace .., fun c => ?_⟩
  split
  · next hc => exact memReads_frame hl hc
  · next hc => exact memReads_frameTrace_of_notMem hc _

end Sys2Proof.Machine
end

section
/-! PROOF. The over-read byte: the port writes of a frame depend on memory only through the bits that are sent (R48, R100,
U3). -/

namespace Sys2Proof.Machine

open Sys2Proof Sys2Proof.Safety

variable {cfg : Config} {i : Instr} {d e e' : Data cfg}

/-! ## The port writes of one cycle -/

/-- The port writes of a cycle of command i, which only RUN makes (R91). -/
def cycleActs (i : Instr) (d : Data cfg) : List (PortAct cfg) :=
  match d.fsm with
  | .idle => []
  | .entry => []
  | .run => commandActs i d
  | .exit => []

theorem cycleActs_run (hf : d.fsm = .run) : cycleActs i d = commandActs i d := by simp [cycleActs, hf]

theorem cycleActs_entry (hf : d.fsm = .entry) : cycleActs i d = [] := by simp [cycleActs, hf]

theorem cycleActs_exit (hf : d.fsm = .exit) : cycleActs i d = [] := by simp [cycleActs, hf]

theorem nextData_ports (i : Instr) (d : Data cfg) : (nextData i d).ports = applyActs d.ports (cycleActs i d) := by
  cases hf : d.fsm with
  | idle => simp [nextData_idle hf, cycleActs, hf, applyActs_nil]
  | entry =>
    cases hc : entryChan i.nch d with
    | none => simp [nextData, cycleActs, hf, hc, applyActs_nil]
    | some c => simp [nextData_entry hf hc, cycleActs, hf, applyActs_nil]
  | run => simp [nextData_run hf, cycleActs, hf]
  | exit => simp [nextData_exit hf, cycleActs, hf, applyActs_nil]

theorem portWrites_append (tr tr' : List (Timed cfg)) : portWrites (tr ++ tr') = portWrites tr ++ portWrites tr' :=
  List.filterMap_append

theorem portWrites_out (t : Nat) (acts : List (PortAct cfg)) :
    portWrites (stamp t (acts.map .out)) = acts.map fun a => (t, a) := by
  simp [portWrites, stamp]

theorem portWrites_cycleEvents (i : Instr) (t : Nat) (d : Data cfg) :
    portWrites (stamp t (cycleEvents i d)) = (cycleActs i d).map fun a => (t, a) := by
  unfold cycleEvents cycleActs
  cases d.fsm with
  | idle => rfl
  | entry => cases entryChan i.nch d <;> rfl
  | run =>
    simp only [runEvents, stamp_append, portWrites_append, portWrites_out]
    cases runChan i.nch d <;> exact List.append_nil _
  | exit => rfl

theorem pinActs_congr (hshort : 1 ≤ cfg.tShort) (x : Desc) {bit bit' : Bool} (s : Nat) {w : Nat}
    (hb : 0 < w → bit' = bit) : pinActs cfg x bit' s w = pinActs cfg x bit s w := by
  rcases Nat.eq_zero_or_pos w with rfl | hw
  · have hdata : ¬ 0 = cfg.tShort + s := by omega
    simp only [pinActs, if_neg hdata]
  · rw [hb hw]

theorem portActs_congr (hshort : 1 ≤ cfg.tShort) (descs : List Desc) {bits bits' : List Bool} (htcnt : e'.tcnt = e.tcnt)
    (hother : e'.other = e.other) (hb : 0 < e.tcnt → bits' = bits) : portActs descs bits' e' = portActs descs bits e := by
  simp only [portActs, htcnt, hother]
  rcases Nat.eq_zero_or_pos e.tcnt with h0 | hpos
  · have hdata : ¬ 0 = cfg.tShort := by omega
    simp only [h0, if_neg hdata]
  · rw [hb hpos]

/-- The port writes of a cycle depend on OTHER and, after the first cycle of a window, on the latched bits of the
command's channels: no data write falls in the first cycle (R90). -/
theorem commandActs_congr (hshort : 1 ≤ cfg.tShort) (htcnt : e'.tcnt = e.tcnt) (hother : e'.other = e.other)
    (hb : 0 < e.tcnt → ∀ c ∈ i.chans, chanGet e'.b c = chanGet e.b c) : commandActs i e' = commandActs i e := by
  cases hs : i.sharedPort with
  | true =>
    rw [commandActs_shared hs, commandActs_shared hs]
    exact portActs_congr hshort _ htcnt hother fun h0 => List.map_congr_left (hb h0)
  | false =>
    cases i with
    | emit1 =>
      simp only [commandActs, emit1Acts, htcnt]
      exact pinActs_congr hshort _ _ fun h0 => hb h0 0 (by decide)
    | emit2 =>
      simp only [commandActs, emit2Acts, htcnt]
      exact congrArg₂ _ (pinActs_congr hshort _ _ fun h0 => hb h0 0 (by decide))
        (pinActs_congr hshort _ _ fun h0 => hb h0 1 (by decide))
    | emit3 => cases hs
    | emit4 => cases hs

/-! ## Frames on two memories -/

/-- The elements d with memory m. -/
def withMem (d : Data cfg) (m : Memory) : Data cfg := { d with mem := m }

/-- The launch looks at no byte of memory. -/
theorem launchReady_withMem (hl : LaunchReady i d) (m : Memory) : LaunchReady i (withMem d m) := hl

/-- The bit of a window depends on memory only through its byte of the buffer. -/
theorem windowBit_congr {c : Chan} {j : Nat} {m : Memory} (hf : frameBytes (withMem d m) c = frameBytes d c)
    (hj : j < 24 * d.count.toNat) : windowBit (withMem d m) c j = windowBit d c j := by
  have hbyte : bufferByte (withMem d m) c (j / 8) = bufferByte d c (j / 8) :=
    List.map_inj_left.mp hf (j / 8) (List.mem_range.mpr (show j / 8 < 3 * d.count.toNat by omega))
  exact congrArg (bitOf · (j % 8)) hbyte

theorem now_frameData (hl : LaunchReady i d) {k : Nat} (hk : k ≤ frameCycles i d) : (frameData i d k).now = d.now + k := by
  induction k with
  | zero => rfl
  | succ k ih =>
    obtain ⟨e, he, hkeep⟩ := exec_keeps (exec_frameData hl (k := k) (by omega))
    cases he
    rw [hkeep.now, ih (by omega)]
    rfl

section
variable (hl : LaunchReady i d) {m : Memory} (hf : ∀ c ∈ i.chans, frameBytes (withMem d m) c = frameBytes d c) {k : Nat}
include hl hf

/-- Every cycle of the two frames makes the same port writes: in the accept cycle, ENTRY and EXIT none, and in a window
those of the same OTHER and, from its second cycle on, the same bits. -/
theorem cycleActs_frameData_withMem (hk : k < frameCycles i d) :
    cycleActs i (frameData i (withMem d m) k) = cycleActs i (frameData i d k) := by
  have hl' := launchReady_withMem hl m
  cases framePosition hl.tBit_pos hk with
  | accept => rw [frameData_zero, frameData_zero]; rfl
  | entry n hn =>
    have h := (entryAt_frameData hl hn.le).fsm_entry hn
    have h' := (entryAt_frameData hl' hn.le).fsm_entry hn
    rw [cycleActs_entry h, cycleActs_entry h']
  | window j w hj hw =>
    have h := windowAt_frameData hl hj hw
    have h' := windowAt_frameData hl' hj hw
    obtain ⟨hshort, _, _, _, _⟩ := instanceOk_counts hl.fits
    rw [cycleActs_run (h.fsm_run hj), cycleActs_run (h'.fsm_run hj)]
    refine commandActs_congr hshort (h'.tcnt.trans h.tcnt.symm) (h'.other.trans h.other.symm) fun h0 c hc => ?_
    have hw0 : 0 < w := h.tcnt ▸ h0
    rw [h'.latched c hc hw0, h.latched c hc hw0, windowBit_congr (hf c hc) hj]
  | exit =>
    have h' : (frameData i (withMem d m) (i.nch + 1 + 24 * d.count.toNat * cfg.tBit)).fsm = .exit :=
      fsm_frameData_exit hl'
    rw [cycleActs_exit (fsm_frameData_exit hl), cycleActs_exit h']

theorem ports_frameData_withMem (hk : k ≤ frameCycles i d) :
    (frameData i (withMem d m) k).ports = (frameData i d k).ports := by
  induction k with
  | zero => rfl
  | succ k ih =>
    rw [frameData_succ, frameData_succ, nextData_ports, nextData_ports, ih (by omega),
      cycleActs_frameData_withMem hl hf (by omega)]

theorem portWrites_frameTrace_withMem (hk : k ≤ frameCycles i d) :
    portWrites (frameTrace i (withMem d m) k) = portWrites (frameTrace i d k) := by
  have hl' := launchReady_withMem hl m
  induction k with
  | zero => rfl
  | succ k ih =>
    have hnow : (frameData i (withMem d m) k).now = (frameData i d k).now :=
      (now_frameData hl' (Nat.le_of_succ_le hk)).trans (now_frameData hl (Nat.le_of_succ_le hk)).symm
    rw [frameTrace_succ, frameTrace_succ, portWrites_append, portWrites_append, ih (by omega), cycleTrace, cycleTrace,
      portWrites_cycleEvents, portWrites_cycleEvents, hnow, cycleActs_frameData_withMem hl hf (by omega)]

end

/-- Settles O54: the two frames make the same port writes in every cycle. -/
theorem overReadReachesNoPin : Obligations.OverReadReachesNoPin := by
  unfold Obligations.OverReadReachesNoPin
  intro i cfg d m hl hf
  exact ⟨_, _, _, _, execTimes_frameData hl le_rfl, execTimes_frameData (launchReady_withMem hl m) le_rfl,
    frameData_trace .., frameData_trace .., (portWrites_frameTrace_withMem hl hf le_rfl).symm,
    (ports_frameData_withMem hl hf le_rfl).symm⟩

end Sys2Proof.Machine
end

section
/-! PROOF. Pixel memory: the host's store is read back, the block never stores, and a launch whose read set is not plain
memory is refused (R41, R42, R48, R51, R56). -/

namespace Sys2Proof.Machine

open Sys2Proof Sys2Proof.Safety

variable {cfg : Config} {i : Instr} {d : Data cfg}

/-! ## The host's store -/

theorem readRefusal_eq_none {a : Nat} : readRefusal cfg a = none ↔ regionKind a cfg.regions = .plain := by
  unfold readRefusal
  cases regionKind a cfg.regions <;> simp

theorem store_eq (s : State) {a : Nat} (v : Byte) (ha : a < 2 ^ s.cfg.addrW) (hp : regionKind a s.cfg.regions = .plain) :
    store a v s = onward s (tick { s.data with mem := memPut s.cfg.fillByte s.data.mem a v }) := by
  rw [store, if_neg (Nat.not_le.mpr ha), if_neg (not_not.mpr hp)]

/-- Settles O13: the store puts the byte into canonical memory, where reads find it. -/
theorem storedByteIsRead : Obligations.StoredByteIsRead := by
  unfold Obligations.StoredByteIsRead
  intro cfg d a v rest ht hh hwf hr
  refine ⟨{ d with mem := memPut cfg.fillByte d.mem a.toNat v, host := rest, resetIn := d.resetIn.tail, now := d.now + 1 },
    ?_, memByte_memPut_same v hwf, memory_wf_memPut v hwf a.isLt, fun a' ha => ?_, rfl⟩
  · rw [step_host ht hh, hostOp, store_eq _ v a.isLt (readRefusal_eq_none.mp hr)]
    rfl
  · exact memByte_memPut_other d.mem v fun h => ha (BitVec.eq_of_toNat_eq h)

/-! ## What never stores -/

theorem exec_mem {s t : State} (h : exec i s = .next t) : t.data.mem = s.data.mem := by
  obtain ⟨d', rfl, hkeep⟩ := exec_keeps h
  exact hkeep.mem

theorem writeReg_mem {n v : Nat} {s t : State} (h : writeReg n v s = .next t) : t.data.mem = s.data.mem := by
  unfold writeReg at h
  split at h
  · split at h
    · obtain ⟨i, _, he⟩ := writeCmd_next h
      exact exec_mem he
    · cases h
  · cases h
  · split at h <;> cases h
    rfl
  · cases h
  · split at h
    · cases h
    · split at h <;> cases h
      rfl

theorem readReg_mem {n : Nat} {s t : State} (h : readReg n s = .next t) : t.data.mem = s.data.mem := by
  unfold readReg at h
  split at h
  · cases h
    rfl
  · split at h <;> cases h

theorem setPort_mem {p v : Nat} {s t : State} (h : setPort p v s = .next t) : t.data.mem = s.data.mem := by
  unfold setPort at h
  split at h
  · cases h
  · split at h <;> cases h
    rfl

/-- The store is the only operation of the host that writes memory. -/
theorem hostOp_mem {op : HostOp} {s t : State} (h : hostOp op s = .next t) :
    t.data.mem = s.data.mem ∨ ∃ a v, op = .store a v := by
  cases op with
  | idle => cases h; exact .inl rfl
  | writeReg n v => exact .inl (writeReg_mem h)
  | readReg n => exact .inl (readReg_mem h)
  | store a v => exact .inr ⟨a, v, rfl⟩
  | setIE v => cases h; exact .inl rfl
  | setPort p v => exact .inl (setPort_mem h)

/-- Settles O14: a step is a reset, a cycle of the running command or an operation of the host in IDLE, and of these only
the host's store writes memory. -/
theorem blockNeverWritesMemory : Obligations.BlockNeverWritesMemory := by
  unfold Obligations.BlockNeverWritesMemory
  refine ⟨fun i s t h => exec_mem h, fun s t h => ?_⟩
  rcases (step_next h).2 with ⟨_, rfl⟩ | ⟨_, _, he⟩ | ⟨_, hf, hidle⟩
  · exact .inl rfl
  · exact .inl (exec_mem he :)
  · rcases idleCycle_next hidle with ⟨_, rfl⟩ | ⟨op, rest, hh, hop⟩
    · exact .inl rfl
    · rcases hostOp_mem hop with hm | ⟨a, v, rfl⟩
      · exact .inl hm
      · exact .inr ⟨hf, a, v, rest, hh⟩

/-! ## The read set of a launch -/

theorem byteAddr_mem_readSet {c : Chan} {k : Nat} (hc : c ∈ i.chans) (hk : k ≤ 3 * d.count.toNat) :
    byteAddr (chanGet d.ptr c) k ∈ readSet i d :=
  List.mem_flatMap.mpr ⟨c, hc, List.mem_map.mpr ⟨k, List.mem_range.mpr (Nat.lt_succ_of_le hk), rfl⟩⟩

/-- If an address of the read set may not be read, the refusal of the read set is that of one of its addresses. -/
theorem readSetRefusal_of_mem {a : BitVec cfg.addrW} (ha : a ∈ readSet i d) (hr : readRefusal cfg a.toNat ≠ none) :
    ∃ a' ∈ readSet i d, ∃ r, readRefusal cfg a'.toNat = some r ∧ readSetRefusal i d = some r := by
  have hsome : readSetRefusal i d ≠ none := fun hnone => hr (List.findSome?_eq_none_iff.mp hnone a ha)
  obtain ⟨r, hset⟩ := Option.ne_none_iff_exists'.mp hsome
  obtain ⟨a', ha', hr'⟩ := List.exists_of_findSome?_eq_some hset
  exact ⟨a', ha', r, hr', hset⟩

theorem readRefusal_eq_some {a : Nat} {r : Refusal} (h : readRefusal cfg a = some r) :
    (regionKind a cfg.regions = .absent ∧ r = .unreadableBuffer a) ∨
      (regionKind a cfg.regions = .device ∧ r = .sideEffectBuffer a) := by
  unfold readRefusal at h
  cases hk : regionKind a cfg.regions with
  | plain => simp [hk] at h
  | device => simp only [hk, Option.some.injEq] at h; exact .inr ⟨rfl, h.symm⟩
  | absent => simp only [hk, Option.some.injEq] at h; exact .inl ⟨rfl, h.symm⟩

theorem exec_of_readSetRefusal {s : State} {r : Refusal} (hi : instanceOk s.cfg i = true) (hf : s.data.fsm = .idle)
    (hc : s.data.count ≠ 0) (hr : readSetRefusal i s.data = some r) : exec i s = .refused r := by
  have hl : launch i s = .refused r := by rw [launch, if_neg hc, hr]
  rw [exec_eq_sequencer]
  simp [sequencer, hi, hf, hl]

/-- Settles O37: the launch is refused for an address of its read set, and the refusal of an address says what the map has
there. -/
theorem badReadSetRefused : Obligations.BadReadSetRefused := by
  unfold Obligations.BadReadSetRefused
  intro i cfg d c k hi hf hcount hc hk hbad
  obtain ⟨a, ha, r, hr, hset⟩ := readSetRefusal_of_mem (byteAddr_mem_readSet hc hk) hbad
  exact ⟨a, ha, r, hr, exec_of_readSetRefusal (s := ⟨cfg, d⟩) hi hf hcount hset, readRefusal_eq_some hr⟩

end Sys2Proof.Machine
end

section
/-! PROOF. PinWrite and PortWrite, and which of them a command makes in one cycle (R52, R53). -/

namespace Sys2Proof.Machine

open Sys2Proof Sys2Proof.Safety

variable {cfg : Config} {i : Instr} {d : Data cfg}

/-! ## PinWrite (R52) -/

theorem withBit_self {w : Nat} (v : BitVec w) (b : Nat) : withBit v b (v.getLsbD b) = v := by
  refine BitVec.eq_of_getLsbD_eq fun k _ => ?_
  rw [withBit_getLsbD]
  split
  · next h => rw [h.1]
  · rfl

theorem withBit_comm {w : Nat} (v : BitVec w) {b k : Nat} (level level' : Bool) (h : k ≠ b) :
    withBit (withBit v b level) k level' = withBit (withBit v k level') b level := by
  refine BitVec.eq_of_getLsbD_eq fun n _ => ?_
  simp only [withBit_getLsbD]
  by_cases hb : n = b
  · simp [hb, h.symm]
  · simp [hb]

theorem pinWrite_eq_portWrite {w : Nat} (ports : List (BitVec w)) (p b : Nat) (level : Bool) :
    pinWrite ports p b level = portWrite ports p (withBit (portGet ports p) b level) := rfl

/-- Writing the level a pin has changes nothing. -/
theorem pinWrite_self {w : Nat} (ports : List (BitVec w)) (p b : Nat) : pinWrite ports p b (pinLevel ports p b) = ports := by
  by_cases hp : p < ports.length
  · rw [pinWrite, pinLevel, withBit_self, portGet, ← List.getElem_eq_getD (h := hp), List.set_getElem_self]
  · rw [pinWrite, List.set_eq_of_length_le (Nat.not_lt.mp hp)]

/-- PinWrites to two pins commute, on one port or on two. -/
theorem pinWrite_comm {w : Nat} (ports : List (BitVec w)) {p b q k : Nat} (level level' : Bool) (hp : p < ports.length)
    (h : (q, k) ≠ (p, b)) :
    pinWrite (pinWrite ports p b level) q k level' = pinWrite (pinWrite ports q k level') p b level := by
  simp only [pinWrite_eq_portWrite]
  by_cases hq : q = p
  · subst hq
    have hk : k ≠ b := fun hk => h (by rw [hk])
    rw [portGet_portWrite _ _ _ _ hp, portGet_portWrite _ _ _ _ hp, if_pos rfl, if_pos rfl, withBit_comm _ _ _ hk]
    simp [portWrite]
  · rw [portGet_portWrite_of_ne _ _ hq, portGet_portWrite_of_ne _ _ (Ne.symm hq)]
    exact List.set_comm _ _ (Ne.symm hq)

/-! ## The PinWrites of one cycle -/

/-- The pin a PinWrite writes. -/
def actPin : PortAct cfg → Option Desc
  | .pinWrite p b _ => some ⟨p, b⟩
  | .portWrite _ _ => none

/-- The three writes of a channel's window fall in three cycles. -/
theorem pinActs_pins (hshort : 1 ≤ cfg.tShort) (hlong : cfg.tShort < cfg.tLong) (x : Desc) (bit : Bool) (s w : Nat) :
    ((pinActs cfg x bit s w).filterMap actPin).Sublist [x] := by
  unfold pinActs
  by_cases hrise : w = s
  · have hdata : w ≠ cfg.tShort + s := by omega
    have hfall : w ≠ cfg.tLong + s := by omega
    rw [if_pos hrise, if_neg hdata, if_neg hfall]
    exact .refl _
  · by_cases hdata : w = cfg.tShort + s
    · have hfall : w ≠ cfg.tLong + s := by omega
      rw [if_neg hrise, if_pos hdata, if_neg hfall]
      exact .refl _
    · rw [if_neg hrise, if_neg hdata]
      by_cases hfall : w = cfg.tLong + s
      · rw [if_pos hfall]; exact .refl _
      · rw [if_neg hfall]; exact List.nil_sublist _

theorem mem_portActs {descs : List Desc} {bits : List Bool} {a : PortAct cfg} (h : a ∈ portActs descs bits d) :
    ∃ v, a = .portWrite (sharedPortId descs) v ∧
      (v = snapLo d.other ∨ v = snapHi d.other descs ∨ v = snapPat d.other (descs.zip bits)) := by
  simp only [portActs, List.mem_append, List.mem_ite_nil_right, List.mem_singleton] at h
  rcases h with (⟨_, rfl⟩ | ⟨_, rfl⟩) | ⟨_, rfl⟩
  · exact ⟨_, rfl, .inr (.inl rfl)⟩
  · exact ⟨_, rfl, .inr (.inr rfl)⟩
  · exact ⟨_, rfl, .inl rfl⟩

/-- A command writes each of its pins at most once in a cycle by PinWrite. -/
theorem commandActs_pins (hi : instanceOk cfg i = true) (d : Data cfg) :
    ((commandActs i d).filterMap actPin).Sublist (cfg.descs i) := by
  obtain ⟨hshort, hlong, _, _, _⟩ := instanceOk_counts hi
  cases hs : i.sharedPort with
  | true =>
    have hnone : (commandActs i d).filterMap actPin = [] := by
      refine List.filterMap_eq_nil_iff.mpr fun a ha => ?_
      rw [commandActs_shared hs] at ha
      obtain ⟨v, rfl, _⟩ := mem_portActs ha
      rfl
    rw [hnone]
    exact List.nil_sublist _
  | false =>
    cases i with
    | emit1 => exact pinActs_pins hshort hlong ..
    | emit2 =>
      rw [commandActs, emit2Acts, List.filterMap_append]
      exact (pinActs_pins hshort hlong ..).append (pinActs_pins hshort hlong ..)
    | emit3 => cases hs
    | emit4 => cases hs

/-- Settles O15: PinWrite is a write of one bit, and the pins a command writes in a cycle are among its descriptors, which
are distinct. -/
theorem pinWriteOneBit : Obligations.PinWriteOneBit := by
  unfold Obligations.PinWriteOneBit
  refine ⟨fun w ports p b level hp hb => ⟨fun q k => ?_, ?_, fun q k level' h => ?_⟩, fun i cfg d hi =>
    ⟨fun hs a ha => ?_, fun p b l l' h => ?_⟩⟩
  · exact pinLevel_pinWrite _ _ _ _ _ _ hp hb
  · exact pinWrite_self ports p b
  · exact pinWrite_comm ports level level' hp h
  · obtain ⟨x, _, level, rfl⟩ := mem_commandActs_pin hs ha
    exact ⟨_, _, _, rfl⟩
  · have htwice : [(⟨p, b⟩ : Desc), ⟨p, b⟩].Sublist (cfg.descs i) :=
      (h.filterMap actPin).trans (commandActs_pins hi d)
    have hnodup := htwice.nodup (descsLegal_nodup (instanceOk_descs hi))
    simp at hnodup

/-- Settles O16: the port writes of a shared command are those of `portActs`. -/
theorem portWriteWholeRegister : Obligations.PortWriteWholeRegister := by
  unfold Obligations.PortWriteWholeRegister
  refine ⟨fun w ports p v hp q => portGet_portWrite ports p q v hp, fun i cfg d hs a ha => ?_⟩
  rw [commandActs_shared hs] at ha
  exact mem_portActs ha

end Sys2Proof.Machine
end

section
/-! PROOF. The command word, and the commands that are refused (R60, R70, R71, R77, R173). -/

namespace Sys2Proof.Machine

open Sys2Proof Sys2Proof.Safety

variable {cfg : Config}

/-! ## The command word (R60) -/

/-- What is said of each command's word in Sys2Proof/Laws/PerInstr.lean, for any command. -/
theorem encoding (i : Instr) : Laws.Encoding.Statement i := by
  cases i with
  | emit1 => exact Laws.Encoding.emit1
  | emit2 => exact Laws.Encoding.emit2
  | emit3 => exact Laws.Encoding.emit3
  | emit4 => exact Laws.Encoding.emit4

/-- A word is its RSV field above its VARIANT field. -/
theorem rsvField_append_variantField (w : Byte) : rsvField w ++ variantField w = w := by
  refine BitVec.eq_of_getLsbD_eq fun k hk => ?_
  rw [BitVec.getLsbD_append]
  by_cases hk2 : k < 2
  · simp [variantField, hk2]
  · have h6 : k - 2 < 6 := by omega
    have hsum : 2 + (k - 2) = k := by omega
    simp [rsvField, hk2, h6, hsum]

theorem variant_ofVariant (v : BitVec 2) : (Instr.ofVariant v).variant = v := by
  revert v
  decide

/-- A word decodes to a command exactly if it is the command's word. -/
theorem decodeWord_eq_some_iff {w : Byte} {i : Instr} : decodeWord w = some i ↔ w = encodeWord i := by
  constructor
  · intro h
    unfold decodeWord at h
    split at h
    · cases h
    · next hrsv =>
      cases h
      rw [encodeWord, variant_ofVariant, ← not_not.mp hrsv, rsvField_append_variantField]
  · rintro rfl
    obtain ⟨_, _, hword, _⟩ := encoding i
    exact hword

theorem decodeWord_eq_none {w : Byte} (h : w.extractLsb' 2 6 ≠ 0#6) : decodeWord w = none := if_pos h

/-- Settles O1: the words are those of the four commands, and bits 7:2 of the others are not 0. -/
theorem commandWordsDecode : Obligations.CommandWordsDecode := by
  unfold Obligations.CommandWordsDecode
  decide

/-- Settles O2: a word that decodes is a command's, and one that does not is no command's. -/
theorem wholeOpcodeMap : Obligations.WholeOpcodeMap := by
  unfold Obligations.WholeOpcodeMap
  refine ⟨fun w rest => ?_, rfl, fun i => by cases i <;> rfl⟩
  cases hw : decodeWord w with
  | some i =>
    obtain rfl := decodeWord_eq_some_iff.mp hw
    cases i <;> rfl
  | none =>
    have hne : ∀ i, w ≠ encodeWord i := fun i h => by simp [decodeWord_eq_some_iff.mpr h] at hw
    have h1 : w ≠ 0x00#8 := hne .emit1
    have h2 : w ≠ 0x01#8 := hne .emit2
    have h3 : w ≠ 0x02#8 := hne .emit3
    have h4 : w ≠ 0x03#8 := hne .emit4
    rw [decode, hw, if_neg h1, if_neg h2, if_neg h3, if_neg h4]

/-- Settles O3: it is part of what each command's encoding satisfies. -/
theorem decodeOfEncode : Obligations.DecodeOfEncode := by
  unfold Obligations.DecodeOfEncode
  intro i rest
  obtain ⟨_, _, _, hbytes⟩ := encoding i
  exact hbytes rest

/-! ## Refusals (R70, R71, R173) -/

theorem writeCmd_reserved {w : Byte} (h : decodeWord w = none) (s : State) :
    writeCmd w s = .refused (.reservedCommand w) := by
  rw [writeCmd, decode, h]

/-- Settles O35: the host's write reaches CMD, and the word does not decode. -/
theorem reservedWordRefused : Obligations.ReservedWordRefused := by
  unfold Obligations.ReservedWordRefused
  intro cfg d w rest ht hh hw
  rw [step_host ht hh, hostOp, writeReg_cmd, writeCmd_reserved (decodeWord_eq_none hw)]

theorem sequencer_idle {i : Instr} {acts : {cfg : Config} → Data cfg → List (PortAct cfg)} {s : State}
    (hi : instanceOk s.cfg i = true) (hf : s.data.fsm = .idle) : sequencer i acts s = launch i s := by
  simp [sequencer, hi, hf]

/-- Settles O36: a command in IDLE is a launch, which looks at COUNT first. -/
theorem zeroCountRefused : Obligations.ZeroCountRefused := by
  unfold Obligations.ZeroCountRefused
  intro i cfg d hi hf hc
  rw [exec_eq_sequencer, sequencer_idle (s := ⟨cfg, d⟩) hi hf]
  exact if_pos hc

/-- Settles O39: in ENTRY, RUN and EXIT the sequencer moves for the running command alone. -/
theorem otherCommandWhileBusyRefused : Obligations.OtherCommandWhileBusyRefused := by
  unfold Obligations.OtherCommandWhileBusyRefused
  intro i cfg d hi hf ha
  rw [exec_eq_sequencer]
  cases hfsm : d.fsm with
  | idle => exact absurd hfsm hf
  | entry => simp [sequencer, hi, hfsm, ha]
  | run => simp [sequencer, hi, hfsm, ha]
  | exit => simp [sequencer, hi, hfsm, ha]

end Sys2Proof.Machine
end

section
/-! PROOF. The assembler's lines run by the host: the directive IDLE, and the writes of the operands (R74, R75). -/

namespace Sys2Proof.Machine

open Sys2Proof Sys2Proof.Safety

variable {cfg : Config} {i : Instr} {d : Data cfg}

/-! ## Cycles of IDLE -/

/-- The elements d after k cycles of IDLE, with these operations of the host still to come. -/
def idleFor (d : Data cfg) (k : Nat) (host : List HostOp) : Data cfg :=
  { d with host := host, resetIn := d.resetIn.drop k, now := d.now + k }

theorem idleFor_zero {host : List HostOp} (hh : d.host = host) : idleFor d 0 host = d := by
  rw [← hh]
  rfl

theorem hostTurn_idleFor {n k : Nat} (hw : cfg.wellBuilt = true) (hf : d.fsm = .idle) (hn : NoResetFor n d) (hk : k < n)
    (host : List HostOp) : HostTurn (idleFor d k host) :=
  ⟨hw, hf, noResetFor_head hn hk (idleFor d k host)⟩

theorem step_idleFor {k : Nat} {op : HostOp} {host : List HostOp} (h : HostTurn (idleFor d k (op :: host))) :
    step ⟨cfg, idleFor d k (op :: host)⟩ =
      hostOp op ⟨cfg, { idleFor d k host with resetIn := d.resetIn.drop (k + 1) }⟩ := by
  rw [step_host h rfl, ← List.tail_drop]
  rfl

/-! ## The directive IDLE (R74) -/

theorem run_idleLine {n : Nat} {rest : List HostOp} (hw : cfg.wellBuilt = true) (hf : d.fsm = .idle)
    (hn : NoResetFor n d) (hh : d.host = List.replicate n .idle ++ rest) {k : Nat} (hk : k ≤ n) :
    Host.Core.run core k ⟨cfg, d⟩ = .next ⟨cfg, idleFor d k ((List.replicate n .idle).drop k ++ rest)⟩ := by
  induction k with
  | zero =>
    rw [List.drop_zero, idleFor_zero hh]
    rfl
  | succ k ih =>
    have hleft : (List.replicate n HostOp.idle).drop k ++ rest =
        .idle :: ((List.replicate n .idle).drop (k + 1) ++ rest) := by
      have hsub : n - k = n - (k + 1) + 1 := by omega
      rw [List.drop_replicate, hsub, List.replicate_succ, List.drop_replicate]
      rfl
    have ih := ih (by omega)
    rw [hleft] at ih
    exact (run_succ_of_next core ih).trans (step_idleFor (hostTurn_idleFor hw hf hn hk _))

/-- Settles O59: the line is n operations that do nothing, and each takes one cycle. -/
theorem idleDirectiveLetsCyclesPass : Obligations.IdleDirectiveLetsCyclesPass := by
  unfold Obligations.IdleDirectiveLetsCyclesPass
  intro cfg n
  exact ⟨_, rfl, fun d rest hw hf hn hh k hk => run_idleLine hw hf hn hh hk⟩

/-! ## A line that launches a command (R74, R75) -/

theorem commandOf_descs {command : Option Instr} (h : command = none ∨ command = some i) :
    AsmLine.commandOf command (cfg.descs i) = some i := by
  rcases h with rfl | rfl
  · cases i <;> rfl
  · rfl

theorem assemble_emit {command : Option Instr} {ptrs : List Nat} (h : command = none ∨ command = some i)
    (hlen : ptrs.length = i.nch) (count : Nat) :
    assemble cfg (.emit command (cfg.descs i) ptrs count) = .ops (launchOps i ptrs count) := by
  simp only [assemble, commandOf_descs h, hlen, ne_eq, not_true_eq_false, if_false]

/-- The pointers of a line as channel elements; what no pointer is written for is 0. -/
def linePtrs (w : Nat) (ptrs : List Nat) : Chans (BitVec w) :=
  ⟨BitVec.ofNat w (ptrs.getD 0 0), BitVec.ofNat w (ptrs.getD 1 0), BitVec.ofNat w (ptrs.getD 2 0),
    BitVec.ofNat w (ptrs.getD 3 0)⟩

theorem chanGet_linePtrs (w : Nat) (ptrs : List Nat) (c : Chan) :
    chanGet (linePtrs w ptrs) c = BitVec.ofNat w (ptrs.getD c.val 0) := by
  fin_cases c <;> rfl

theorem chanSet_chanBelow {α : Type} (new old : Chans α) (c : Chan) :
    chanSet (chanBelow c.val new old) c (chanGet new c) = chanBelow (c.val + 1) new old := by
  refine chans_ext fun c' => ?_
  by_cases h : c' = c
  · subst h
    rw [chanGet_chanSet_same, chanGet_chanBelow, if_pos (Nat.lt_succ_self _)]
  · have hlt : c'.val < c.val ↔ c'.val < c.val + 1 := by have := Fin.val_ne_of_ne h; omega
    simp only [chanGet_chanSet_other _ _ h, chanGet_chanBelow, hlt]

/-- The elements d with COUNT and the first m pointers of a line written. -/
def withOperands (d : Data cfg) (count : Nat) (ptrs : List Nat) (m : Nat) : Data cfg :=
  { d with count := BitVec.ofNat cfg.countW count, ptr := chanBelow m (linePtrs cfg.addrW ptrs) d.ptr }

@[simp] theorem withOperands_ptr (d : Data cfg) (count : Nat) (ptrs : List Nat) (m : Nat) :
    (withOperands d count ptrs m).ptr = chanBelow m (linePtrs cfg.addrW ptrs) d.ptr := rfl

/-- The pointer after the first m is written to channel m. -/
theorem withOperands_succ (d : Data cfg) (count : Nat) {ptrs : List Nat} (c : Chan) (hc : c.val < ptrs.length) :
    { withOperands d count ptrs c.val with
      ptr := chanSet (withOperands d count ptrs c.val).ptr c (BitVec.ofNat cfg.addrW ptrs[c.val]) } =
      withOperands d count ptrs (c.val + 1) := by
  have hval : BitVec.ofNat cfg.addrW ptrs[c.val] = chanGet (linePtrs cfg.addrW ptrs) c := by
    rw [chanGet_linePtrs, List.getElem_eq_getD (h := hc) 0]
  rw [withOperands_ptr, hval, chanSet_chanBelow]
  rfl

section
variable {n count : Nat} {ptrs : List Nat} {tail : List HostOp} (hw : cfg.wellBuilt = true) (hf : d.fsm = .idle)
  (hn : NoResetFor n d)
include hw hf hn

theorem step_writeCount (hpos : 0 < n) (hcount : count < 2 ^ cfg.countW) (hh : d.host = .writeReg regCount count :: tail) :
    step ⟨cfg, d⟩ = .next ⟨cfg, idleFor (withOperands d count ptrs 0) 1 tail⟩ := by
  have ht : HostTurn d := ⟨hw, hf, noResetFor_head hn hpos d⟩
  rw [step_host ht hh, hostOp, regCount, writeReg_count _ hcount, ← List.drop_one]
  rfl

/-- The write of the next pointer, which goes to the next channel. -/
theorem step_writePtr {k : Nat} (hk : k < n) (c : Chan) (hc : c.val < ptrs.length) (hfit : ptrs[c.val] < 2 ^ cfg.addrW) :
    step ⟨cfg, idleFor (withOperands d count ptrs c.val) k (.writeReg (regPtr c.val) ptrs[c.val] :: tail)⟩ =
      .next ⟨cfg, idleFor (withOperands d count ptrs (c.val + 1)) (k + 1) tail⟩ := by
  have ht := hostTurn_idleFor (d := withOperands d count ptrs c.val) hw hf hn hk
  rw [step_idleFor (ht _), hostOp, ← withOperands_succ d count c hc]
  exact writeReg_ptr _ c hfit

/-- After the write of COUNT and m writes of pointers the other pointers are still to be written. -/
theorem run_launchLine (hlen : ptrs.length ≤ 4) (hn1 : ptrs.length + 1 ≤ n) (hfit : ∀ p ∈ ptrs, p < 2 ^ cfg.addrW)
    (hcount : count < 2 ^ cfg.countW) (hh : d.host = .writeReg regCount count :: (ptrWrites 0 ptrs ++ tail)) {m : Nat}
    (hm : m ≤ ptrs.length) :
    Host.Core.run core (m + 1) ⟨cfg, d⟩ =
      .next ⟨cfg, idleFor (withOperands d count ptrs m) (m + 1) (ptrWrites m (ptrs.drop m) ++ tail)⟩ := by
  induction m with
  | zero =>
    exact (run_succ_of_next core rfl).trans (step_writeCount hw hf hn (by omega) hcount hh)
  | succ m ih =>
    have hlt : m < ptrs.length := hm
    have ih := ih hlt.le
    rw [List.drop_eq_getElem_cons hlt, ptrWrites] at ih
    exact (run_succ_of_next core ih).trans
      (step_writePtr hw hf hn (by omega) ⟨m, by omega⟩ hlt (hfit _ (List.getElem_mem hlt)))

end

/-- Settles O4: the line is the write of COUNT, the writes of the pointers in channel order, and the write of the command
word; each but the last is one cycle. -/
theorem assembledLineLoadsOperands : Obligations.AssembledLineLoadsOperands := by
  unfold Obligations.AssembledLineLoadsOperands
  intro cfg d i command ptrs count rest ops hw hf hn hcmd hlen hfit hcount hops hh
  rw [assemble_emit hcmd hlen] at hops
  obtain rfl := Assembled.ops.inj hops
  have h4 := nch_le_four i
  have hlist : launchOps i ptrs count ++ rest =
      .writeReg regCount count :: (ptrWrites 0 ptrs ++ .writeReg 0 (encodeWord i).toNat :: rest) := by
    simp [launchOps, regCmd]
  have hrun := run_launchLine hw hf hn (by omega) (by omega) hfit hcount (hh.trans hlist) le_rfl
  rw [List.drop_length, hlen] at hrun
  refine ⟨_, hrun, fun c => ?_⟩
  rw [withOperands_ptr, chanGet_chanBelow, chanGet_linePtrs]

end Sys2Proof.Machine
end

section
/-! PROOF. The line code and the receiver: bits and pulses, bytes and bits, pixels, and the latch gap (R63 to R67, R76,
R167). -/

namespace Sys2Proof.Machine

open Sys2Proof Sys2Proof.Safety

variable {cfg : Config}

/-! ## Pulses and bits (R66, R76) -/

theorem wellBuilt_tShort_lt_tLong (hw : cfg.wellBuilt = true) : cfg.tShort < cfg.tLong := by
  obtain ⟨_, hlt, _, _⟩ := wellBuilt_iff.mp hw
  exact hlt

/-- The two high times differ, so a receiver tells the two symbols apart. -/
theorem bitOfPulse_symbol (h : cfg.tShort < cfg.tLong) (t : Nat) (bit : Bool) :
    bitOfPulse cfg (t, t + (symbolShape cfg bit).1) = some bit := by
  cases bit with
  | false => simp [bitOfPulse, symbolShape]
  | true => simp [bitOfPulse, symbolShape, h.ne']

theorem bitsOfPulses_pulseTrain (h : cfg.tShort < cfg.tLong) (t : Nat) (bits : List Bool) :
    bitsOfPulses cfg (pulseTrain cfg t bits) = some bits := by
  induction bits generalizing t with
  | nil => rfl
  | cons bit bits ih => rw [pulseTrain, bitsOfPulses, bitOfPulse_symbol h, ih]

/-! ## Bits and bytes (R64, R76) -/

/-- The byte of the eight bits sent is the byte sent; decided over the 256 bytes. -/
theorem byteOfBits_bitOf (v : Byte) :
    byteOfBits (bitOf v 0) (bitOf v 1) (bitOf v 2) (bitOf v 3) (bitOf v 4) (bitOf v 5) (bitOf v 6) (bitOf v 7) = v := by
  revert v
  decide

theorem bytesOfBits_bitsOfByte_append (v : Byte) (bits : List Bool) :
    bytesOfBits (bitsOfByte v ++ bits) = (bytesOfBits bits).map (v :: ·) := by
  have hbits : bitsOfByte v ++ bits = bitOf v 0 :: bitOf v 1 :: bitOf v 2 :: bitOf v 3 :: bitOf v 4 :: bitOf v 5 ::
      bitOf v 6 :: bitOf v 7 :: bits := rfl
  rw [hbits, bytesOfBits, byteOfBits_bitOf]

theorem bytesOfBits_bitsOfBytes (l : List Byte) : bytesOfBits (bitsOfBytes l) = some l := by
  induction l with
  | nil => rfl
  | cons v l ih =>
    have hcons : bitsOfBytes (v :: l) = bitsOfByte v ++ bitsOfBytes l := List.flatMap_cons
    rw [hcons, bytesOfBits_bitsOfByte_append, ih]
    rfl

theorem receivePulses_pulseTrain (h : cfg.tShort < cfg.tLong) (t : Nat) (l : List Byte) :
    receivePulses cfg (pulseTrain cfg t (bitsOfBytes l)) = some l := by
  rw [receivePulses, bitsOfPulses_pulseTrain h]
  exact bytesOfBits_bitsOfBytes l

/-- Settles O56: a receiver reads back each bit from its pulse, and each byte from its eight bits. -/
theorem lineCodeRoundTrip : Obligations.LineCodeRoundTrip := by
  unfold Obligations.LineCodeRoundTrip
  intro cfg t l hw
  exact receivePulses_pulseTrain (wellBuilt_tShort_lt_tLong hw) t l

/-! ## The bits and pixels of a buffer (R64, R65) -/

/-- Window 8k + n of a channel carries bit n sent of byte k. -/
theorem windowBit_of_byte (d : Data cfg) (c : Chan) (k : Nat) {n : Nat} (hn : n < 8) :
    windowBit d c (k * 8 + n) = bitOf (bufferByte d c k) n := by
  have hdiv : (k * 8 + n) / 8 = k := by omega
  have hmod : (k * 8 + n) % 8 = n := by omega
  rw [windowBit, hdiv, hmod, bufferByte]

/-- Settles O57: component k of pixel m is byte 3m + k of the buffer. -/
theorem pixelComponentWindows : Obligations.PixelComponentWindows := by
  unfold Obligations.PixelComponentWindows
  intro cfg d c m k n _ hn
  have hj : 24 * m + 8 * k + n = (3 * m + k) * 8 + n := by omega
  rw [hj, windowBit_of_byte d c _ hn, bitOf, bufferByte]

/-- The numbers below n × m, in n runs of m. -/
theorem range_mul_eq_flatMap (n m : Nat) :
    List.range (n * m) = (List.range n).flatMap fun k => (List.range m).map (k * m + ·) := by
  induction n with
  | zero => simp
  | succ n ih => rw [Nat.succ_mul, List.range_add, ih, List.range_succ, List.flatMap_append, List.flatMap_singleton]

theorem frameBytes_eq (d : Data cfg) (c : Chan) :
    frameBytes d c = (List.range (3 * d.count.toNat)).map (bufferByte d c) := rfl

/-- The bits of a frame's windows are those of the channel's buffer, byte after byte (R64, R85). -/
theorem windowBits_eq_bitsOfBytes (d : Data cfg) (c : Chan) :
    (List.range (24 * d.count.toNat)).map (windowBit d c) = bitsOfBytes (frameBytes d c) := by
  have hcount : 24 * d.count.toNat = 3 * d.count.toNat * 8 := by omega
  rw [hcount, range_mul_eq_flatMap, List.map_flatMap, frameBytes_eq, bitsOfBytes, List.flatMap_map]
  refine List.flatMap_congr fun k _ => ?_
  rw [List.map_map, bitsOfByte]
  exact List.map_congr_left fun n hn => windowBit_of_byte d c k (List.mem_range.mp hn)

theorem pixelsOfBytes_map_range (n : Nat) (f : Nat → Byte) :
    pixelsOfBytes ((List.range (3 * n)).map f) =
      some ((List.range n).map fun m => (f (3 * m), f (3 * m + 1), f (3 * m + 2))) := by
  induction n generalizing f with
  | zero => rfl
  | succ n ih =>
    have hthree : 3 * (n + 1) = 3 + 3 * n := by omega
    have hfirst : (List.range (3 * (n + 1))).map f = f 0 :: f 1 :: f 2 :: (List.range (3 * n)).map (fun k => f (3 + k)) := by
      rw [hthree, List.range_add, List.map_append, List.map_map]
      rfl
    rw [hfirst, pixelsOfBytes, ih, List.range_succ_eq_map, List.map_cons, List.map_map]
    simp [Function.comp_def, Nat.mul_add, Nat.add_comm, Nat.add_left_comm]

/-! ## The latch gap (R67, R167) -/

theorem framesOfPulses_continue {q r : Nat × Nat} {rest f : List (Nat × Nat)} {fs : List (List (Nat × Nat))}
    (hgap : r.1 - q.2 < cfg.tLatch) (h : framesOfPulses cfg (r :: rest) = f :: fs) :
    framesOfPulses cfg (q :: r :: rest) = (q :: f) :: fs := by
  unfold framesOfPulses
  simp only [h, if_pos hgap]

theorem framesOfPulses_separate {q r : Nat × Nat} {rest f : List (Nat × Nat)} {fs : List (List (Nat × Nat))}
    (hgap : ¬ r.1 - q.2 < cfg.tLatch) (h : framesOfPulses cfg (r :: rest) = f :: fs) :
    framesOfPulses cfg (q :: r :: rest) = [q] :: f :: fs := by
  unfold framesOfPulses
  simp only [h, if_neg hgap]

/-- Between two pulses of a train the pin is low for T_SHORT or T_LONG. -/
theorem low_lt_tLatch (hl : cfg.tLong < cfg.tLatch) (hs : cfg.tShort < cfg.tLatch) (t : Nat) (bit : Bool) :
    t + cfg.tBit - (t + (symbolShape cfg bit).1) < cfg.tLatch := by
  cases bit <;> simp [symbolShape, Config.tBit] <;> omega

section
variable (hl : cfg.tLong < cfg.tLatch) (hs : cfg.tShort < cfg.tLatch)
include hl hs

theorem framesOfPulses_pulseTrain (t : Nat) (bit : Bool) (bits : List Bool) :
    framesOfPulses cfg (pulseTrain cfg t (bit :: bits)) = [pulseTrain cfg t (bit :: bits)] := by
  induction bits generalizing t bit with
  | nil => rfl
  | cons bit' bits ih => exact framesOfPulses_continue (low_lt_tLatch hl hs t bit) (ih (t + cfg.tBit) bit')

/-- What follows a train joins it or stands apart by the low time after the train's last pulse alone. -/
theorem framesOfPulses_pulseTrain_append {r last : Nat × Nat} {rest : List (Nat × Nat)}
    (hrest : framesOfPulses cfg (r :: rest) = [r :: rest]) (t : Nat) (bit : Bool) (bits : List Bool)
    (hlast : (pulseTrain cfg t (bit :: bits)).getLast? = some last) :
    framesOfPulses cfg (pulseTrain cfg t (bit :: bits) ++ r :: rest) =
      if r.1 - last.2 < cfg.tLatch then [pulseTrain cfg t (bit :: bits) ++ r :: rest]
      else [pulseTrain cfg t (bit :: bits), r :: rest] := by
  induction bits generalizing t bit with
  | nil =>
    obtain rfl : (t, t + (symbolShape cfg bit).1) = last := Option.some.inj hlast
    split
    · next hgap => exact framesOfPulses_continue hgap hrest
    · next hgap => exact framesOfPulses_separate hgap hrest
  | cons bit' bits ih =>
    have ih := ih (t + cfg.tBit) bit' hlast
    have hgap := low_lt_tLatch hl hs t bit
    split at ih
    · next hjoin => rw [if_pos hjoin]; exact framesOfPulses_continue hgap ih
    · next hjoin => rw [if_neg hjoin]; exact framesOfPulses_continue hgap ih

end

/-- Settles O58: inside a train no gap reaches T_LATCH, so only the low time between the trains decides. -/
theorem latchGapSeparatesFrames : Obligations.LatchGapSeparatesFrames := by
  unfold Obligations.LatchGapSeparatesFrames
  intro cfg t t' bit bits bit' bits' hl hs last hlast
  exact framesOfPulses_pulseTrain_append hl hs (framesOfPulses_pulseTrain hl hs t' bit' bits') t bit bits hlast

end Sys2Proof.Machine
end

section
/-! PROOF. The writes to a target pin in a frame, and what a receiver on the pin reads (R64, R76, R80, R90). -/

namespace Sys2Proof.Machine

open Sys2Proof Sys2Proof.Safety

variable {cfg : Config} {i : Instr} {d e : Data cfg}

/-! ## The descriptors of a command's channels -/

theorem descs_eq_map_chanDesc (cfg : Config) (i : Instr) : cfg.descs i = i.chans.map (chanDesc cfg i) := by
  cases i <;> rfl

theorem chans_nodup (i : Instr) : i.chans.Nodup := by cases i <;> decide

/-- A legal command's channels have a pin each (R72 (d)). -/
theorem chanDesc_inj (hd : cfg.descsLegal i = true) {c c' : Chan} (hc : c ∈ i.chans) (hc' : c' ∈ i.chans)
    (h : chanDesc cfg i c = chanDesc cfg i c') : c = c' := by
  have hnodup := descsLegal_nodup hd
  rw [descs_eq_map_chanDesc] at hnodup
  exact List.inj_on_of_nodup_map hnodup hc hc' h

/-- Of a list without repetition in which one member alone gives anything, the whole gives what it gives. -/
theorem flatMap_eq_of_unique {α β : Type} {l : List α} {f : α → List β} {a : α} (hl : l.Nodup) (ha : a ∈ l)
    (h : ∀ b ∈ l, b ≠ a → f b = []) : l.flatMap f = f a := by
  obtain ⟨l₁, l₂, rfl⟩ := List.append_of_mem ha
  obtain ⟨hnot₁, hnot₂⟩ : a ∉ l₁ ∧ a ∉ l₂ := by simpa using (List.nodup_middle.mp hl).notMem
  have hfst : l₁.flatMap f = [] := List.flatMap_eq_nil_iff.mpr fun b hb =>
    h b (List.mem_append_left _ hb) fun he => hnot₁ (he ▸ hb)
  have hsnd : l₂.flatMap f = [] := List.flatMap_eq_nil_iff.mpr fun b hb =>
    h b (List.mem_append_right _ (List.mem_cons_of_mem _ hb)) fun he => hnot₂ (he ▸ hb)
  rw [List.flatMap_append, List.flatMap_cons, hfst, hsnd, List.nil_append, List.append_nil]

/-- EMIT1 and EMIT2 make the PinWrites of their channels, in channel order (R90). -/
theorem commandActs_pin (hs : i.sharedPort = false) (d : Data cfg) :
    commandActs i d =
      i.chans.flatMap fun c => pinActs cfg (chanDesc cfg i c) (chanGet d.b c) (writeOffset cfg i c) d.tcnt := by
  cases i with
  | emit1 => exact (List.append_nil _).symm
  | emit2 => exact congrArg (pinActs cfg cfg.desc2.1 d.b.c0 0 d.tcnt ++ ·) (List.append_nil _).symm
  | emit3 => cases hs
  | emit4 => cases hs

/-- PAT's lane of a channel carries the channel's bit, whatever the other channels' bits are (R68, R123). -/
theorem snapPat_target (hs : i.sharedPort = true) (hd : cfg.descsLegal i = true) {c : Chan} (hc : c ∈ i.chans)
    {other : BitVec cfg.portW} (ho : other.getLsbD (chanDesc cfg i c).bit = false) (bits : Chan → Bool) :
    (snapPat other ((cfg.descs i).zip (i.chans.map bits))).getLsbD (chanDesc cfg i c).bit = bits c := by
  have hm := chanDesc_mem (cfg := cfg) hc
  have hb : (chanDesc cfg i c).bit < cfg.portW := (descsLegal_inRange hd _ hm).1
  have lane : ∀ c' ∈ i.chans, (chanDesc cfg i c').bit = (chanDesc cfg i c).bit → c' = c := fun c' hc' h => by
    have hport := (descsLegal_port hs hd _ (chanDesc_mem hc')).trans (descsLegal_port hs hd _ hm).symm
    exact chanDesc_inj hd hc' hc ((desc_eq_iff _ _).mpr ⟨hport, h⟩)
  rw [snapPat_getLsbD, ho, descs_eq_map_chanDesc, List.zip_map', Bool.eq_iff_iff]
  simp only [hb, decide_true, Bool.true_and, Bool.false_or, List.any_map, List.any_eq_true, Function.comp_apply,
    Bool.and_eq_true, beq_iff_eq]
  constructor
  · rintro ⟨c', hc', hbit, h⟩
    rwa [lane c' hc' hbit] at h
  · exact fun h => ⟨c, hc, rfl, h⟩

/-! ## The writes of one cycle to a pin -/

/-- The levels that these port writes drive pin (p, b) to, in order. -/
def actLevels (p b : Nat) (acts : List (PortAct cfg)) : List Bool := acts.filterMap fun a => eventLevel p b (.out a)

/-- The levels that window cycle w drives a target's pin to, with write offset s: high at s, the data bit at T_SHORT + s,
low at T_LONG + s (R90). -/
def scheduleLevels (cfg : Config) (bit : Bool) (s w : Nat) : List Bool :=
  (if w = s then [true] else []) ++ (if w = cfg.tShort + s then [bit] else []) ++
  (if w = cfg.tLong + s then [false] else [])

theorem actLevels_append (p b : Nat) (acts acts' : List (PortAct cfg)) :
    actLevels p b (acts ++ acts') = actLevels p b acts ++ actLevels p b acts' := List.filterMap_append

theorem actLevels_pinActs (x : Desc) (bit : Bool) (s w : Nat) :
    actLevels x.port x.bit (pinActs cfg x bit s w) = scheduleLevels cfg bit s w := by
  have one : ∀ (P : Prop) [Decidable P] (level : Bool),
      actLevels x.port x.bit (if P then [(.pinWrite x.port x.bit level : PortAct cfg)] else []) =
        if P then [level] else [] := by
    intro P _ level
    split <;> simp [actLevels, eventLevel]
  rw [pinActs, actLevels_append, actLevels_append, one, one, one, scheduleLevels]

theorem actLevels_pinActs_of_ne {x y : Desc} (h : y ≠ x) (bit : Bool) (s w : Nat) :
    actLevels x.port x.bit (pinActs cfg y bit s w) = [] := by
  refine List.filterMap_eq_nil_iff.mpr fun a ha => ?_
  obtain ⟨level, rfl⟩ := mem_pinActs ha
  exact if_neg fun hxy => h ((desc_eq_iff _ _).mpr hxy)

theorem actLevels_portActs (descs : List Desc) (bits : List Bool) (d : Data cfg) (b : Nat) :
    actLevels (sharedPortId descs) b (portActs descs bits d) =
      (if d.tcnt = 0 then [(snapHi d.other descs).getLsbD b] else []) ++
      (if d.tcnt = cfg.tShort then [(snapPat d.other (descs.zip bits)).getLsbD b] else []) ++
      (if d.tcnt = cfg.tLong then [(snapLo d.other).getLsbD b] else []) := by
  have one : ∀ (P : Prop) [Decidable P] (v : BitVec cfg.portW),
      actLevels (sharedPortId descs) b (if P then [(.portWrite (sharedPortId descs) v : PortAct cfg)] else []) =
        if P then [v.getLsbD b] else [] := by
    intro P _ v
    split <;> simp [actLevels, eventLevel]
  rw [portActs, actLevels_append, actLevels_append, one, one, one]

/-- Every command drives each of its target pins by the same schedule of levels (R90). -/
theorem actLevels_commandActs (hd : cfg.descsLegal i = true) {c : Chan} (hc : c ∈ i.chans)
    (ho : i.sharedPort = true → d.other.getLsbD (chanDesc cfg i c).bit = false) :
    actLevels (chanDesc cfg i c).port (chanDesc cfg i c).bit (commandActs i d) =
      scheduleLevels cfg (chanGet d.b c) (writeOffset cfg i c) d.tcnt := by
  cases hs : i.sharedPort with
  | false =>
    rw [commandActs_pin hs, actLevels, List.filterMap_flatMap]
    refine (flatMap_eq_of_unique (chans_nodup i) hc fun c' hc' hne => ?_).trans (actLevels_pinActs ..)
    exact actLevels_pinActs_of_ne (fun h => hne (chanDesc_inj hd hc' hc h)) ..
  | true =>
    have hoff : writeOffset cfg i c = 0 := if_neg fun h => by simp [h.1, Instr.sharedPort] at hs
    rw [commandActs_shared hs, descsLegal_port hs hd _ (chanDesc_mem hc), actLevels_portActs, snapHi_getLsbD,
      mask_target hd hc, snapPat_target hs hd hc (ho hs), snapLo, ho hs, hoff, scheduleLevels]
    rfl

/-- No data write falls in the first cycle of a window. -/
theorem scheduleLevels_congr (hshort : 1 ≤ cfg.tShort) {bit bit' : Bool} (s : Nat) {w : Nat} (hb : 0 < w → bit' = bit) :
    scheduleLevels cfg bit' s w = scheduleLevels cfg bit s w := by
  rcases Nat.eq_zero_or_pos w with rfl | hw
  · have hdata : ¬ 0 = cfg.tShort + s := by omega
    simp only [scheduleLevels, if_neg hdata]
  · rw [hb hw]

theorem pinHistory_append (p b : Nat) (tr tr' : List (Timed cfg)) :
    pinHistory p b (tr ++ tr') = pinHistory p b tr ++ pinHistory p b tr' := List.filterMap_append

theorem pinHistory_flatMap (p b : Nat) (l : List Nat) (f : Nat → List (Timed cfg)) :
    pinHistory p b (l.flatMap f) = l.flatMap fun k => pinHistory p b (f k) := List.filterMap_flatMap ..

theorem pinHistory_out (p b t : Nat) (acts : List (PortAct cfg)) :
    pinHistory p b (stamp t (acts.map .out)) = (actLevels p b acts).map (t, ·) := by
  simp [pinHistory, stamp, actLevels, List.filterMap_map, List.map_filterMap, Function.comp_def]

/-- A cycle of a command shows a pin the levels of its port writes: a fetch and an IE write show it none. -/
theorem pinHistory_cycleEvents (p b : Nat) (i : Instr) (t : Nat) (d : Data cfg) :
    pinHistory p b (stamp t (cycleEvents i d)) = (actLevels p b (cycleActs i d)).map (t, ·) := by
  unfold cycleEvents cycleActs
  cases d.fsm with
  | idle => rfl
  | entry => cases entryChan i.nch d <;> rfl
  | run =>
    simp only [runEvents, stamp_append, pinHistory_append, pinHistory_out]
    cases runChan i.nch d <;> exact List.append_nil _
  | exit => rfl

/-- A window cycle of a frame writes the schedule of the window's bit to a target's pin (R64, R89, R90). -/
theorem WindowAt.pinHistory_eq {j w : Nat} (h : WindowAt i d j w e) (hl : LaunchReady i d) (hj : j < 24 * d.count.toNat)
    {c : Chan} (hc : c ∈ i.chans) :
    pinHistory (chanDesc cfg i c).port (chanDesc cfg i c).bit (stamp e.now (cycleEvents i e)) =
      (scheduleLevels cfg (windowBit d c j) (writeOffset cfg i c) w).map (windowStart i d j + w, ·) := by
  have hd := instanceOk_descs hl.fits
  obtain ⟨hshort, _, _, _, _⟩ := instanceOk_counts hl.fits
  have hother : i.sharedPort = true → e.other.getLsbD (chanDesc cfg i c).bit = false := fun hs => by
    rw [h.other_shared hs, frameOther, sampleOther_getLsbD, mask_target hd hc]
    simp
  have hnow : e.now = windowStart i d j + w := by rw [h.now, windowStart, firstRise]; omega
  rw [pinHistory_cycleEvents, cycleActs_run (h.fsm_run hj), actLevels_commandActs hd hc hother, h.tcnt, hnow,
    scheduleLevels_congr hshort _ (h.latched c hc)]

/-! ## The writes of a frame to a pin -/

/-- The three writes of a bit whose window's rise is at t (R90). -/
def symbolWrites (cfg : Config) (t : Nat) (bit : Bool) : List (Nat × Bool) :=
  [(t, true), (t + cfg.tShort, bit), (t + cfg.tLong, false)]

theorem pinSchedule_eq (i : Instr) (d : Data cfg) (c : Chan) :
    pinSchedule i d c = (List.range (24 * d.count.toNat)).flatMap fun j =>
      symbolWrites cfg (firstRise i d + writeOffset cfg i c + j * cfg.tBit) (windowBit d c j) := by
  refine List.flatMap_congr fun j _ => ?_
  simp [symbolWrites, windowStart, Nat.add_right_comm]

/-- The three cycles of a window that write cut it into three runs of cycles, with one of the writes in each. -/
theorem flatMap_scheduleLevels {s : Nat} (hs : s < cfg.tShort) (hlong : cfg.tShort < cfg.tLong) (t : Nat) (bit : Bool) :
    ((List.range cfg.tBit).flatMap fun w => (scheduleLevels cfg bit s w).map (t + w, ·)) = symbolWrites cfg (t + s) bit := by
  have hT : cfg.tBit = cfg.tShort + cfg.tLong := rfl
  have hcut : List.range cfg.tBit = List.range' 0 (cfg.tShort + s) ++
      (List.range' (cfg.tShort + s) (cfg.tLong - cfg.tShort) ++ List.range' (cfg.tLong + s) (cfg.tShort - s)) := by
    have hfall : cfg.tLong + s = cfg.tShort + s + (cfg.tLong - cfg.tShort) := by omega
    have hend : cfg.tBit = cfg.tShort + s + (cfg.tLong - cfg.tShort + (cfg.tShort - s)) := by omega
    have hdata : cfg.tShort + s = 0 + (cfg.tShort + s) := by omega
    rw [hfall, List.range'_append_1, hend, List.range_eq_range', ← List.range'_append_1, ← hdata]
  have run : ∀ a n w, a ≤ w → w < a + n → (∀ w', a ≤ w' → w' < a + n → w' ≠ w →
      w' ≠ s ∧ w' ≠ cfg.tShort + s ∧ w' ≠ cfg.tLong + s) →
      ((List.range' a n).flatMap fun w => (scheduleLevels cfg bit s w).map (t + w, ·)) =
        (scheduleLevels cfg bit s w).map (t + w, ·) := fun a n w ha hn h => by
    refine flatMap_eq_of_unique List.nodup_range' (List.mem_range'_1.mpr ⟨ha, hn⟩) fun w' hw' hne => ?_
    obtain ⟨ha', hn'⟩ := List.mem_range'_1.mp hw'
    obtain ⟨hrise, hdata, hfall⟩ := h w' ha' hn' hne
    simp [scheduleLevels, hrise, hdata, hfall]
  have hpos : 0 < cfg.tShort := by omega
  have hlpos : 0 < cfg.tLong := by omega
  rw [hcut, List.flatMap_append, List.flatMap_append, run 0 _ s (by omega) (by omega) (by omega),
    run _ _ (cfg.tShort + s) (by omega) (by omega) (by omega),
    run _ _ (cfg.tLong + s) (by omega) (by omega) (by omega)]
  simp [scheduleLevels, symbolWrites, hpos.ne', hlpos.ne', hlong.ne, hlong.ne', Nat.add_assoc, Nat.add_comm s]

/-- The trace of a frame is that of the accept cycle and ENTRY, that of each cycle of each window, and that of EXIT. -/
theorem frameTrace_eq (i : Instr) (d : Data cfg) :
    frameTrace i d (frameCycles i d) = frameTrace i d (i.nch + 1) ++
      ((List.range (24 * d.count.toNat)).flatMap fun j => (List.range cfg.tBit).flatMap fun w =>
        cycleTrace i d (i.nch + 1 + (j * cfg.tBit + w))) ++
      cycleTrace i d (i.nch + 1 + 24 * d.count.toNat * cfg.tBit) := by
  rw [frameCycles, frameTrace_succ]
  congr 1
  rw [frameTrace, List.range_add, List.flatMap_append, range_mul_eq_flatMap, List.map_flatMap, List.flatMap_assoc]
  simp only [List.flatMap_map, frameTrace]

section
variable (hl : LaunchReady i d)
include hl

/-- No port is written before the first window (R87, R88). -/
theorem pinHistory_entry (p b : Nat) : pinHistory p b (frameTrace i d (i.nch + 1)) = [] := by
  rw [frameTrace, pinHistory_flatMap]
  refine List.flatMap_eq_nil_iff.mpr fun k hk => ?_
  have hk := List.mem_range.mp hk
  have hacts : cycleActs i (frameData i d k) = [] := by
    cases k with
    | zero => simp [cycleActs, hl.idle]
    | succ m =>
      have hm : m < i.nch := by omega
      exact cycleActs_entry ((entryAt_frameData hl hm.le).fsm_entry hm)
  rw [cycleTrace, pinHistory_cycleEvents, hacts]
  rfl

/-- The writes of a frame to a target's pin are those of the schedule, window after window. -/
theorem pinHistory_frame {c : Chan} (hc : c ∈ i.chans) :
    pinHistory (chanDesc cfg i c).port (chanDesc cfg i c).bit (frameTrace i d (frameCycles i d)) = pinSchedule i d c := by
  obtain ⟨_, hlong, _, _, _⟩ := instanceOk_counts hl.fits
  have hoff := writeOffset_lt_tShort hl.fits c
  have hexit : pinHistory (chanDesc cfg i c).port (chanDesc cfg i c).bit
      (cycleTrace i d (i.nch + 1 + 24 * d.count.toNat * cfg.tBit)) = [] := by
    rw [cycleTrace, pinHistory_cycleEvents, cycleActs_exit (fsm_frameData_exit hl)]
    rfl
  rw [frameTrace_eq, pinHistory_append, pinHistory_append, pinHistory_entry hl, hexit, List.nil_append, List.append_nil,
    pinHistory_flatMap, pinSchedule_eq]
  refine List.flatMap_congr fun j hj => ?_
  have hj := List.mem_range.mp hj
  have hstart : firstRise i d + writeOffset cfg i c + j * cfg.tBit = windowStart i d j + writeOffset cfg i c :=
    Nat.add_right_comm ..
  rw [pinHistory_flatMap, hstart, ← flatMap_scheduleLevels hoff hlong]
  exact List.flatMap_congr fun w hw => (windowAt_frameData hl hj (List.mem_range.mp hw)).pinHistory_eq hl hj hc

end

/-! ## What a receiver reads (R76) -/

/-- The three writes of a bit are one pulse: the data write of a 0 is its fall, and that of a 1 changes nothing. -/
theorem pulsesFrom_symbolWrites (t : Nat) (bit : Bool) (rest : List (Nat × Bool)) :
    pulsesFrom none (symbolWrites cfg t bit ++ rest) = (t, t + (symbolShape cfg bit).1) :: pulsesFrom none rest := by
  cases bit <;> rfl

theorem pulsesFrom_flatMap_symbolWrites (t n : Nat) (bit : Nat → Bool) :
    pulsesFrom none ((List.range n).flatMap fun j => symbolWrites cfg (t + j * cfg.tBit) (bit j)) =
      pulseTrain cfg t ((List.range n).map bit) := by
  induction n generalizing t bit with
  | zero => rfl
  | succ n ih =>
    have hnext : ∀ j, t + (j + 1) * cfg.tBit = t + cfg.tBit + j * cfg.tBit := fun j => by
      rw [Nat.succ_mul, Nat.add_comm (j * cfg.tBit), Nat.add_assoc]
    rw [List.range_succ_eq_map, List.flatMap_cons, List.flatMap_map, pulsesFrom_symbolWrites, List.map_cons, List.map_map,
      pulseTrain, Nat.zero_mul, Nat.add_zero]
    simp only [Nat.succ_eq_add_one, hnext]
    rw [ih]
    rfl

/-- The pulses on a target's pin in a frame are the line code of the channel's buffer (R63, R66). -/
theorem pulsesOn_frame (hl : LaunchReady i d) {c : Chan} (hc : c ∈ i.chans) :
    pulsesOn (chanDesc cfg i c).port (chanDesc cfg i c).bit (frameTrace i d (frameCycles i d)) =
      pulseTrain cfg (firstRise i d + writeOffset cfg i c) (bitsOfBytes (frameBytes d c)) := by
  rw [pulsesOn, pinHistory_frame hl hc, pinSchedule_eq, pulsesFrom_flatMap_symbolWrites, windowBits_eq_bitsOfBytes]

/-- Settles O52: the frame's pulses are the line code of the buffer, which the receiver inverts. -/
theorem frameIsReceived : Obligations.FrameIsReceived := by
  unfold Obligations.FrameIsReceived
  intro i cfg d hl
  obtain ⟨_, hlong, _, _, _⟩ := instanceOk_counts hl.fits
  refine ⟨_, _, execTimes_frameData hl le_rfl, frameData_trace .., fun c hc _ => ⟨?_, ?_⟩⟩
  · rw [receive, pulsesOn_frame hl hc, receivePulses_pulseTrain hlong]
  · exact pixelsOfBytes_map_range d.count.toNat (bufferByte d c)

end Sys2Proof.Machine
end

section
/-! PROOF. Whole frames: no cycle of a frame stops, the writes to a target pin are those of the schedule, and the last of them
leaves the pin low, whether the platform has its port or not (R80 to R82, R90, R96 to R98). -/

namespace Sys2Proof.Machine

open Sys2Proof Sys2Proof.Safety

variable {cfg : Config} {i : Instr} {d : Data cfg}

/-- Settles O43: the elements after each cycle are `frameData`, whose cycles between accept and the end are in progress. -/
theorem frameCompletes : Obligations.FrameCompletes := by
  unfold Obligations.FrameCompletes
  intro i cfg d hl
  refine ⟨frameData i d, rfl, fun k hk => exec_frameData hl hk,
    fun k hk => ⟨execTimes_frameData hl hk, now_frameData hl hk⟩, fun k h0 hk => ?_, ?_⟩
  · obtain ⟨hin, hf⟩ := inFrame_frameData hl h0 hk
    exact ⟨by rw [busy_eq, decide_eq_true hf], hin.active⟩
  · rw [frameData_end hl, busy_eq, exitCycle_fsm]
    rfl

/-- Settles O47: the trace of the frame shows each target's pin the schedule. -/
theorem framePinWrites : Obligations.FramePinWrites := by
  unfold Obligations.FramePinWrites
  intro i cfg d hl
  exact ⟨_, _, execTimes_frameData hl le_rfl, frameData_trace .., fun c hc => pinHistory_frame hl hc⟩

/-! ## The level of a pin after its writes -/

/-- The level of a pin after these writes to it, with the level it had before: the last one's. -/
def levelAfter (before : Bool) (levels : List Bool) : Bool := levels.foldl (fun _ level => level) before

theorem levelAfter_append (before : Bool) (levels levels' : List Bool) :
    levelAfter before (levels ++ levels') = levelAfter (levelAfter before levels) levels' := List.foldl_append

/-- A port write drives a pin of a port that is there to the level an observer sees it drive (R52, R53). -/
theorem pinLevel_applyAct {ports : List (BitVec cfg.portW)} {p b : Nat} (hp : p < ports.length) (hb : b < cfg.portW)
    (a : PortAct cfg) :
    pinLevel (applyAct ports a) p b = (eventLevel p b (.out a)).getD (pinLevel ports p b) := by
  cases a with
  | pinWrite q k level =>
    rw [applyAct, eventLevel]
    split
    · next h => rw [h.1, h.2, pinLevel_pinWrite _ _ _ _ _ _ hp hb, if_pos ⟨rfl, rfl⟩]; rfl
    · next h => exact pinLevel_pinWrite_of_ne _ _ fun h' => h ⟨h'.1.symm, h'.2.symm⟩
  | portWrite q v =>
    rw [applyAct, eventLevel]
    split
    · next h => rw [h, pinLevel_portWrite _ _ _ _ _ hp, if_pos rfl]; rfl
    · next h => rw [pinLevel, portGet_portWrite_of_ne _ _ (Ne.symm h)]; rfl

theorem pinLevel_applyActs {ports : List (BitVec cfg.portW)} {p b : Nat} (hp : p < ports.length) (hb : b < cfg.portW)
    (acts : List (PortAct cfg)) :
    pinLevel (applyActs ports acts) p b = levelAfter (pinLevel ports p b) (actLevels p b acts) := by
  induction acts generalizing ports with
  | nil => rfl
  | cons a acts ih =>
    rw [applyActs_cons, ih (by rwa [applyAct_length]), pinLevel_applyAct hp hb]
    simp only [actLevels, List.filterMap_cons]
    cases eventLevel p b (.out a) <;> rfl

theorem ports_length_frameData (i : Instr) (d : Data cfg) (k : Nat) : (frameData i d k).ports.length = d.ports.length := by
  induction k with
  | zero => rfl
  | succ k ih => rw [frameData_succ, nextData_ports, applyActs_length, ih]

/-- The level of a pin in a frame is that of the last write to it in the trace (R26, R86). -/
theorem pinLevel_frameData {p b : Nat} (hp : p < d.ports.length) (hb : b < cfg.portW) (k : Nat) :
    pinLevel (frameData i d k).ports p b =
      levelAfter (pinLevel d.ports p b) ((pinHistory p b (frameTrace i d k)).map Prod.snd) := by
  induction k with
  | zero => rfl
  | succ k ih =>
    have hlevels (t : Nat) (levels : List Bool) : (levels.map (t, ·)).map Prod.snd = levels := by simp
    rw [frameData_succ, nextData_ports, pinLevel_applyActs (by rwa [ports_length_frameData]) hb, ih, frameTrace_succ,
      pinHistory_append, cycleTrace, pinHistory_cycleEvents, List.map_append, hlevels, levelAfter_append]

/-- A pin of a port the platform does not have reads low (log entry 17). -/
theorem pinLevel_of_length_le {w : Nat} {ports : List (BitVec w)} {p : Nat} (h : ports.length ≤ p) (b : Nat) :
    pinLevel ports p b = false := by
  rw [pinLevel, portGet, List.getD_eq_default _ _ h]
  exact BitVec.getLsbD_zero

/-! ## The pins on return (R98) -/

/-- The schedule's last write is the fall of the last window. -/
theorem levelAfter_pinSchedule (hl : LaunchReady i d) (c : Chan) (before : Bool) :
    levelAfter before ((pinSchedule i d c).map Prod.snd) = false := by
  have hcount := hl.count_pos
  obtain ⟨n, hn⟩ : ∃ n, 24 * d.count.toNat = n + 1 := ⟨24 * d.count.toNat - 1, by omega⟩
  rw [pinSchedule, hn, List.range_succ, List.flatMap_append, List.map_append, levelAfter_append]
  rfl

/-- Every target is low at the end of a frame, also on a port the platform does not have. -/
theorem targetLevel_frameData_frameCycles (hl : LaunchReady i d) {c : Chan} (hc : c ∈ i.chans) :
    targetLevel i (frameData i d (frameCycles i d)) c = false := by
  have hb := (descsLegal_inRange (instanceOk_descs hl.fits) _ (chanDesc_mem hc)).1
  rcases Nat.lt_or_ge (chanDesc cfg i c).port d.ports.length with hp | hp
  · rw [targetLevel, pinLevel_frameData hp hb, pinHistory_frame hl hc, levelAfter_pinSchedule hl]
  · exact pinLevel_of_length_le (by rwa [ports_length_frameData]) _

/-- Settles O45: the last write to a target's pin is its fall. -/
theorem pinsLowOnReturn : Obligations.PinsLowOnReturn := by
  unfold Obligations.PinsLowOnReturn
  intro i cfg d hl
  have hidle : (frameData i d (frameCycles i d)).fsm = .idle := by rw [frameData_end hl, exitCycle_fsm]
  exact ⟨_, execTimes_frameData hl le_rfl, hidle, fun c hc => targetLevel_frameData_frameCycles hl hc⟩

end Sys2Proof.Machine
end

section
/-! PROOF. The timing of a frame does not depend on data: the position tuple and the cursors run on their own, and give the
shape of every event (R24, R83, R96). -/

namespace Sys2Proof.Machine

open Sys2Proof Sys2Proof.Safety

variable {cfg : Config} {i : Instr} {d e e' : Data cfg}

/-! ## The elements that time a frame -/

/-- The elements without the data sent: memory, SH, B, OTHER, the ports, and the trace. -/
def timingOf (d : Data cfg) : Data cfg :=
  { d with
    sh := ⟨0, 0, 0, 0⟩
    b := ⟨false, false, false, false⟩
    other := 0
    ports := []
    mem := []
    trace := [] }

theorem now_eq_of_timingOf (h : timingOf e' = timingOf e) : e'.now = e.now := by
  have hnow : (timingOf e').now = (timingOf e).now := by rw [h]
  exact hnow

/-- A cycle's new timing elements are a function of the old ones. -/
theorem timingOf_nextData (i : Instr) (d : Data cfg) : timingOf (nextData i d) = timingOf (nextData i (timingOf d)) := by
  have same {f : Fsm} (hf : d.fsm = f) : (timingOf d).fsm = f := hf
  cases hf : d.fsm with
  | idle => rw [nextData_idle hf, nextData_idle (same hf)]; rfl
  | entry =>
    have hchan : entryChan i.nch (timingOf d) = entryChan i.nch d := rfl
    cases hc : entryChan i.nch d with
    | none => simp only [nextData, hf, same hf, hchan, hc]; rfl
    | some c => rw [nextData_entry hf hc, nextData_entry (same hf) (hchan.trans hc)]; rfl
  | run => rw [nextData_run hf, nextData_run (same hf)]; rfl
  | exit => rw [nextData_exit hf, nextData_exit (same hf)]; rfl

theorem timingOf_nextData_congr (h : timingOf e' = timingOf e) : timingOf (nextData i e') = timingOf (nextData i e) := by
  rw [timingOf_nextData, h, ← timingOf_nextData]

/-! ## The shape of a cycle's events -/

/-- What an observer of the timing sees of these port writes. -/
def actShapes (acts : List (PortAct cfg)) : List (Event cfg) := (acts.map .out).map eventShape

theorem actShapes_append (acts acts' : List (PortAct cfg)) : actShapes (acts ++ acts') = actShapes acts ++ actShapes acts' := by
  simp [actShapes]

theorem actShapes_ite (P : Prop) [Decidable P] {a a' : PortAct cfg} (h : eventShape (.out a) = eventShape (.out a')) :
    actShapes (if P then [a] else []) = actShapes (if P then [a'] else []) := by
  split
  · simp [actShapes, h]
  · rfl

/-- A channel's writes of a window have their cycles and places whatever the bit is (R83, R90). -/
theorem actShapes_pinActs (x : Desc) (bit bit' : Bool) (s w : Nat) :
    actShapes (pinActs cfg x bit s w) = actShapes (pinActs cfg x bit' s w) := by
  simp only [pinActs, actShapes_append]
  congr 2
  exact actShapes_ite _ rfl

/-- The shared port's writes of a window have their cycles whatever the snapshots are (R83, R121). -/
theorem actShapes_portActs (descs : List Desc) (bits bits' : List Bool) (htcnt : e'.tcnt = e.tcnt) :
    actShapes (portActs descs bits' e') = actShapes (portActs descs bits e) := by
  simp only [portActs, actShapes_append, htcnt]
  exact congrArg₂ _ (congrArg₂ _ (actShapes_ite _ rfl) (actShapes_ite _ rfl)) (actShapes_ite _ rfl)

theorem actShapes_commandActs (i : Instr) (htcnt : e'.tcnt = e.tcnt) :
    actShapes (commandActs i e') = actShapes (commandActs i e) := by
  cases i with
  | emit1 =>
    simp only [commandActs, emit1Acts, htcnt]
    exact actShapes_pinActs ..
  | emit2 =>
    simp only [commandActs, emit2Acts, htcnt, actShapes_append]
    exact congrArg₂ _ (actShapes_pinActs ..) (actShapes_pinActs ..)
  | emit3 => exact actShapes_portActs _ _ _ htcnt
  | emit4 => exact actShapes_portActs _ _ _ htcnt

theorem shape_runEvents (n : Nat) (acts : List (PortAct cfg)) (d : Data cfg) :
    (runEvents n acts d).map eventShape =
      actShapes acts ++ ((runChan n d).map fun c => .memRead c (chanGet d.cur c) 0).toList := by
  rw [runEvents, List.map_append, actShapes]
  cases runChan n d <;> rfl

/-- The shapes of a cycle's events are a function of the timing elements. -/
theorem shape_cycleEvents (i : Instr) (d : Data cfg) :
    (cycleEvents i d).map eventShape = (cycleEvents i (timingOf d)).map eventShape := by
  have same {f : Fsm} (hf : d.fsm = f) : (timingOf d).fsm = f := hf
  cases hf : d.fsm with
  | idle => simp only [cycleEvents, hf, same hf]
  | entry =>
    have hchan : entryChan i.nch (timingOf d) = entryChan i.nch d := rfl
    simp only [cycleEvents, hf, same hf, hchan]
    cases entryChan i.nch d <;> rfl
  | run =>
    have hchan : runChan i.nch (timingOf d) = runChan i.nch d := rfl
    have hacts : actShapes (commandActs i d) = actShapes (commandActs i (timingOf d)) := actShapes_commandActs i rfl
    simp only [cycleEvents, hf, same hf, shape_runEvents, hchan, hacts]
    rfl
  | exit => simp only [cycleEvents, hf, same hf]; rfl

theorem traceShape_append (tr tr' : List (Timed cfg)) : traceShape (tr ++ tr') = traceShape tr ++ traceShape tr' :=
  List.map_append

theorem traceShape_stamp (t : Nat) (es : List (Event cfg)) : traceShape (stamp t es) = (es.map eventShape).map (t, ·) := by
  simp [traceShape, stamp]

theorem traceShape_cycle_congr (h : timingOf e' = timingOf e) :
    traceShape (stamp e'.now (cycleEvents i e')) = traceShape (stamp e.now (cycleEvents i e)) := by
  rw [traceShape_stamp, traceShape_stamp, shape_cycleEvents, h, ← shape_cycleEvents, now_eq_of_timingOf h]

/-! ## Frames on two memories -/

theorem timingOf_frameData_withMem (i : Instr) (d : Data cfg) (m : Memory) (k : Nat) :
    timingOf (frameData i (withMem d m) k) = timingOf (frameData i d k) := by
  induction k with
  | zero => rfl
  | succ k ih => rw [frameData_succ, frameData_succ, timingOf_nextData_congr ih]

theorem traceShape_frameTrace_withMem (i : Instr) (d : Data cfg) (m : Memory) (k : Nat) :
    traceShape (frameTrace i (withMem d m) k) = traceShape (frameTrace i d k) := by
  induction k with
  | zero => rfl
  | succ k ih =>
    rw [frameTrace_succ, frameTrace_succ, traceShape_append, traceShape_append, ih, cycleTrace, cycleTrace,
      traceShape_cycle_congr (timingOf_frameData_withMem i d m k)]

/-- Settles O53: the two frames agree in the timing elements after every cycle, and so in the shapes of the events. -/
theorem timingIndependentOfData : Obligations.TimingIndependentOfData := by
  unfold Obligations.TimingIndependentOfData
  intro i cfg d m hl
  have hend := timingOf_frameData_withMem i d m (frameCycles i d)
  exact ⟨_, _, _, _, execTimes_frameData hl le_rfl, execTimes_frameData (launchReady_withMem hl m) le_rfl,
    frameData_trace .., frameData_trace .., (traceShape_frameTrace_withMem i d m _).symm, (now_eq_of_timingOf hend).symm⟩

end Sys2Proof.Machine
end

section
/-! PROOF. One cycle of a command in each phase, element by element: accept, a fetch of ENTRY, a cycle of RUN with its port
writes, and EXIT (R87, R88, R90, R91, R95). -/

namespace Sys2Proof.Machine

open Sys2Proof Sys2Proof.Safety

variable {cfg : Config} {i : Instr} {d : Data cfg}

/-! ## Accept (R87) -/

theorem byteCount_eq_ofNat (count : BitVec cfg.countW) :
    byteCount (cfg := cfg) count = BitVec.ofNat (cfg.countW + 2) (3 * count.toNat) := by
  rw [← byteCount_toNat, BitVec.ofNat_toNat, BitVec.setWidth_eq]

/-- The accept cycle of any command on a ready state. -/
theorem exec_launchReady (hl : LaunchReady i d) :
    exec i ⟨cfg, d⟩ = .next ⟨cfg, { d with
      ieSaved := d.ie, ie := false, active := i, ecnt := 0, bitix := 0, fsm := .entry
      cur := chanBelow i.nch d.ptr d.cur
      other := acceptOther i d
      bytesLeft := BitVec.ofNat (cfg.countW + 2) (3 * d.count.toNat)
      now := d.now + 1, trace := d.trace ++ [⟨d.now, .ieWrite false⟩] }⟩ := by
  rw [← byteCount_eq_ofNat]
  exact exec_accept hl.fits hl.idle hl.count_ne hl.readable

/-- Settles O21: channel 0 alone is below NCH, and OTHER is not sampled. -/
theorem emit1Accepts : Obligations.Emit1Accepts := by
  unfold Obligations.Emit1Accepts
  intro cfg d hl
  exact exec_launchReady hl

/-- Settles O22: channels 0 and 1 are below NCH, and OTHER is not sampled. -/
theorem emit2Accepts : Obligations.Emit2Accepts := by
  unfold Obligations.Emit2Accepts
  intro cfg d hl
  exact exec_launchReady hl

theorem acceptOther_emit3 (d : Data cfg) :
    acceptOther .emit3 d = portGet d.ports cfg.desc3.1.port &&&
      ~~~(BitVec.twoPow cfg.portW cfg.desc3.1.bit ||| BitVec.twoPow cfg.portW cfg.desc3.2.1.bit |||
        BitVec.twoPow cfg.portW cfg.desc3.2.2.bit) := by
  simp [acceptOther, Instr.sharedPort, sampleOther, sharedPortId, mask, Config.descs]

theorem acceptOther_emit4 (d : Data cfg) :
    acceptOther .emit4 d = portGet d.ports cfg.desc4.1.port &&&
      ~~~(BitVec.twoPow cfg.portW cfg.desc4.1.bit ||| BitVec.twoPow cfg.portW cfg.desc4.2.1.bit |||
        BitVec.twoPow cfg.portW cfg.desc4.2.2.1.bit ||| BitVec.twoPow cfg.portW cfg.desc4.2.2.2.bit) := by
  simp [acceptOther, Instr.sharedPort, sampleOther, sharedPortId, mask, Config.descs]

/-- Settles O23: channels 0 to 2 are below NCH, and OTHER is the sample of the shared port. -/
theorem emit3Accepts : Obligations.Emit3Accepts := by
  unfold Obligations.Emit3Accepts
  intro cfg d hl
  rw [← acceptOther_emit3]
  exact exec_launchReady hl

/-- Settles O24: every channel is below NCH, and OTHER is the sample of the shared port. -/
theorem emit4Accepts : Obligations.Emit4Accepts := by
  unfold Obligations.Emit4Accepts
  intro cfg d hl
  rw [← acceptOther_emit4]
  exact exec_launchReady hl

/-! ## ENTRY (R88) -/

/-- Settles O25: the channel fetched is ECNT. -/
theorem entryCycleFetches : Obligations.EntryCycleFetches := by
  unfold Obligations.EntryCycleFetches
  intro i cfg d c hi hf ha hc hn hr
  have hchan : entryChan i.nch d = some c := entryChan_eq_some_iff.mpr ⟨hc, hn⟩
  rw [exec_entry hi hf ha hchan hr, ← hc]
  rfl

/-! ## RUN (R91) -/

theorem runChan_of_mem {c : Chan} (hc : c ∈ i.chans) :
    runChan i.nch d = some c ↔ d.bitix = 7 ∧ d.tcnt = 1 + c.val := by
  rw [runChan_eq_some_iff, Nat.add_comm]
  simp [(mem_chans_iff i c).mp hc]

theorem runRefusal_eq_none
    (hr : ∀ c ∈ i.chans, d.bitix = 7 → d.tcnt = 1 + c.val → readRefusal cfg (chanGet d.cur c).toNat = none) :
    runRefusal i.nch d = none := by
  unfold runRefusal
  split
  · next c hrun =>
    have hc : c ∈ i.chans := (mem_chans_iff i c).mpr (runChan_eq_some_iff.mp hrun).2.2
    obtain ⟨hx, hw⟩ := (runChan_of_mem hc).mp hrun
    exact hr c hc hx hw
  · rfl

/-- Settles O26: the cycle is `runNext`, with the last cycle of a window and the channel fetched read off the position
tuple. -/
theorem runCycleSchedule : Obligations.RunCycleSchedule := by
  unfold Obligations.RunCycleSchedule
  intro i cfg d hi hf ha ht hb hr
  have hend : d.tcnt + 1 = cfg.tBit ↔ d.tcnt = cfg.tBit - 1 := by omega
  have hlast : lastCycle d = true ↔ d.tcnt = cfg.tBit - 1 := lastCycle_iff.trans hend
  have hends : byteEnds d = true ↔ d.tcnt = cfg.tBit - 1 ∧ d.bitix = 7 := by
    rw [byteEnds, Bool.and_eq_true, hlast, beq_iff_eq]
  refine ⟨_, exec_run hi hf ha ht hb (runRefusal_eq_none hr), rfl, ?_, ?_, ?_, fun c hc => ⟨?_, ?_, ?_⟩, rfl, rfl⟩
  · simp only [runNext_bitix, runBitix, hlast]
  · simp only [runNext_bytesLeft, runBytesLeft, hends]
  · simp only [runNext_fsm, runFsm, Bool.and_eq_true, hends, beq_iff_eq, sub_eq_zero, and_assoc]
  · rw [runNext_b]
    split
    · rw [chanGet_latchBits, if_pos ((mem_chans_iff i c).mp hc)]
      rfl
    · rfl
  · simp only [runNext_sh, chanGet_runSh, runChan_of_mem hc, hend, (mem_chans_iff i c).mp hc, and_true]
    rfl
  · simp only [runNext_cur, chanGet_runCur, runChan_of_mem hc]

/-! ## The writes of a cycle of RUN (R90) -/

/-- What three writes of one kind, each under its condition, consist of. -/
theorem mem_scheduled_iff {α β : Type} {write : β → α} {P Q R : Prop} [Decidable P] [Decidable Q] [Decidable R] {x y z : β}
    {a : α} :
    a ∈ (if P then [write x] else []) ++ (if Q then [write y] else []) ++ (if R then [write z] else []) ↔
      ∃ v, a = write v ∧ ((P ∧ v = x) ∨ (Q ∧ v = y) ∨ (R ∧ v = z)) := by
  simp only [List.mem_append, List.mem_ite_nil_right, List.mem_singleton]
  constructor
  · rintro ((⟨h, ha⟩ | ⟨h, ha⟩) | ⟨h, ha⟩)
    · exact ⟨x, ha, .inl ⟨h, rfl⟩⟩
    · exact ⟨y, ha, .inr (.inl ⟨h, rfl⟩)⟩
    · exact ⟨z, ha, .inr (.inr ⟨h, rfl⟩)⟩
  · rintro ⟨v, ha, ⟨h, rfl⟩ | ⟨h, rfl⟩ | ⟨h, rfl⟩⟩
    · exact .inl (.inl ⟨h, ha⟩)
    · exact .inl (.inr ⟨h, ha⟩)
    · exact .inr ⟨h, ha⟩

theorem mem_pinActs_iff {x : Desc} {bit : Bool} {s w : Nat} {a : PortAct cfg} :
    a ∈ pinActs cfg x bit s w ↔ ∃ level, a = .pinWrite x.port x.bit level ∧
      ((w = s ∧ level = true) ∨ (w = cfg.tShort + s ∧ level = bit) ∨ (w = cfg.tLong + s ∧ level = false)) :=
  mem_scheduled_iff

theorem mem_portActs_iff {descs : List Desc} {bits : List Bool} {a : PortAct cfg} :
    a ∈ portActs descs bits d ↔ ∃ v, a = .portWrite (sharedPortId descs) v ∧
      ((d.tcnt = 0 ∧ v = snapHi d.other descs) ∨ (d.tcnt = cfg.tShort ∧ v = snapPat d.other (descs.zip bits)) ∨
        (d.tcnt = cfg.tLong ∧ v = snapLo d.other)) :=
  mem_scheduled_iff

/-- Settles O27: the writes of EMIT1 and EMIT2 are their channels' `pinActs`, those of EMIT3 and EMIT4 `portActs`. -/
theorem writesOfOneCycle : Obligations.WritesOfOneCycle := by
  unfold Obligations.WritesOfOneCycle
  intro cfg d a
  refine ⟨fun i hs => ?_, fun i hs => ?_⟩
  · simp only [commandActs_pin hs, List.mem_flatMap, mem_pinActs_iff]
  · rw [commandActs_shared hs, mem_portActs_iff]

/-! ## EXIT (R95) -/

/-- Settles O28: the EXIT cycle is `exitCycle`. -/
theorem exitRestoresInterrupts : Obligations.ExitRestoresInterrupts := by
  unfold Obligations.ExitRestoresInterrupts
  intro i cfg d hi hf ha
  exact exec_exit hi hf ha

/-! ## The step of a frame in progress (R97) -/

/-- Settles O33: it is `step_busy`. -/
theorem busyStepRunsActiveCommand : Obligations.BusyStepRunsActiveCommand := by
  unfold Obligations.BusyStepRunsActiveCommand
  intro cfg d hf hr
  exact step_busy hf hr

/-- In a state of the invariant with readable memory the running command's next cycle answers a next state. -/
theorem exec_active_of_inv (h : Inv ⟨cfg, d⟩) (hf : d.fsm ≠ .idle)
    (hr : ∀ a : BitVec cfg.addrW, readRefusal cfg a.toNat = none) : ∃ t, exec d.active ⟨cfg, d⟩ = .next t := by
  obtain ⟨-, -, -, hentry, hrun, hexit⟩ := h
  cases hc : d.fsm with
  | idle => exact absurd hc hf
  | entry =>
    obtain ⟨hi, -, hlt, -⟩ := hentry hc
    have hlt4 : d.ecnt.toNat < 4 := Nat.lt_of_lt_of_le hlt (nch_le_four _)
    have hchan : entryChan d.active.nch d = some ⟨d.ecnt.toNat, hlt4⟩ := entryChan_eq_some_iff.mpr ⟨rfl, hlt⟩
    exact ⟨_, exec_entry hi hc rfl hchan (hr _)⟩
  | run =>
    obtain ⟨hi, -, ht, hb, -⟩ := hrun hc
    exact ⟨_, exec_run hi hc rfl ht hb (runRefusal_eq_none fun _ _ _ _ => hr _)⟩
  | exit =>
    obtain ⟨hi, -⟩ := hexit hc
    exact ⟨_, exec_exit hi hc rfl⟩

/-- Settles O34: the step is the running command's next cycle, and the invariant holds whatever the reset input will be. -/
theorem frameNeverBlocks : Obligations.FrameNeverBlocks := by
  unfold Obligations.FrameNeverBlocks
  intro cfg d h hf hr hread
  rw [step_busy hf hr]
  exact exec_active_of_inv (d := sampleReset d) h hf hread

end Sys2Proof.Machine
end

section
/-! PROOF. The port writes of EMIT1 and EMIT2: a cycle writes target pins alone, and a frame makes as many port writes as its
targets' pins are shown (R52, R101, R112). -/

namespace Sys2Proof.Machine

open Sys2Proof Sys2Proof.Safety

variable {cfg : Config} {i : Instr} {d : Data cfg}

/-- Only a cycle of RUN writes ports (R91). -/
theorem cycleActs_of_ne_run (hf : d.fsm ≠ .run) : cycleActs i d = [] := by
  cases hc : d.fsm with
  | idle => simp [cycleActs, hc]
  | entry => exact cycleActs_entry hc
  | run => exact absurd hc hf
  | exit => exact cycleActs_exit hc

/-! ## Pins that are no targets -/

/-- Settles O30: only a cycle of RUN changes the ports, and its PinWrites go to targets. -/
theorem pinCommandsTouchOnlyTargets : Obligations.PinCommandsTouchOnlyTargets := by
  unfold Obligations.PinCommandsTouchOnlyTargets
  intro i cfg d d' hs h p b hn
  cases exec_next_nextData h
  rw [nextData_ports]
  by_cases hf : d.fsm = .run
  · rw [cycleActs_run hf, pinLevel_commandActs_pin hs hn]
  · rw [cycleActs_of_ne_run hf, applyActs_nil]

/-! ## Which pins a frame writes -/

/-- A port write of EMIT1 or EMIT2 is a PinWrite to the pin of one of its channels. -/
theorem mem_cycleActs_pin (hs : i.sharedPort = false) {a : PortAct cfg} (h : a ∈ cycleActs i d) :
    ∃ c ∈ i.chans, ∃ level, a = .pinWrite (chanDesc cfg i c).port (chanDesc cfg i c).bit level := by
  have hf : d.fsm = .run := by
    by_contra hf
    simp [cycleActs_of_ne_run hf] at h
  rw [cycleActs_run hf] at h
  obtain ⟨x, hx, level, rfl⟩ := mem_commandActs_pin hs h
  rw [descs_eq_map_chanDesc] at hx
  obtain ⟨c, hc, rfl⟩ := List.mem_map.mp hx
  exact ⟨c, hc, level, rfl⟩

theorem portWrites_flatMap (l : List Nat) (f : Nat → List (Timed cfg)) :
    portWrites (l.flatMap f) = l.flatMap fun k => portWrites (f k) := List.filterMap_flatMap ..

/-- A port write in a frame's trace is one of the writes of one of its cycles. -/
theorem mem_portWrites_frameTrace {n : Nat} {e : Nat × PortAct cfg} (h : e ∈ portWrites (frameTrace i d n)) :
    ∃ k, e.2 ∈ cycleActs i (frameData i d k) := by
  rw [frameTrace, portWrites_flatMap, List.mem_flatMap] at h
  obtain ⟨k, _, hk⟩ := h
  rw [cycleTrace, portWrites_cycleEvents] at hk
  obtain ⟨a, ha, rfl⟩ := List.mem_map.mp hk
  exact ⟨k, ha⟩

/-! ## How many port writes a frame makes -/

theorem length_pinActs (x : Desc) (bit : Bool) (s w : Nat) :
    (pinActs cfg x bit s w).length = (scheduleLevels cfg bit s w).length := by
  simp only [pinActs, scheduleLevels, List.length_append, apply_ite List.length, List.length_cons, List.length_nil]

/-- A cycle makes one port write for each level that a channel's pin is driven to: the pins are distinct (R72 (d)). -/
theorem length_cycleActs (hs : i.sharedPort = false) (hd : cfg.descsLegal i = true) (d : Data cfg) :
    (cycleActs i d).length =
      (i.chans.map fun c => (actLevels (chanDesc cfg i c).port (chanDesc cfg i c).bit (cycleActs i d)).length).sum := by
  by_cases hf : d.fsm = .run
  · have hchan : ∀ c ∈ i.chans,
        (pinActs cfg (chanDesc cfg i c) (chanGet d.b c) (writeOffset cfg i c) d.tcnt).length =
          (actLevels (chanDesc cfg i c).port (chanDesc cfg i c).bit (commandActs i d)).length := fun c hc => by
      rw [actLevels_commandActs hd hc fun h => absurd h (by simp [hs]), length_pinActs]
    rw [cycleActs_run hf, ← List.map_congr_left hchan, commandActs_pin hs, List.length_flatMap]
  · simp [cycleActs_of_ne_run hf, actLevels]

/-- A frame makes as many port writes as the pins of its channels are shown. -/
theorem length_portWrites_frameTrace (hs : i.sharedPort = false) (hd : cfg.descsLegal i = true) (d : Data cfg) (n : Nat) :
    (portWrites (frameTrace i d n)).length =
      (i.chans.map fun c =>
        (pinHistory (chanDesc cfg i c).port (chanDesc cfg i c).bit (frameTrace i d n)).length).sum := by
  induction n with
  | zero => simp [portWrites, pinHistory]
  | succ n ih =>
    simp only [frameTrace_succ, portWrites_append, pinHistory_append, cycleTrace, portWrites_cycleEvents,
      pinHistory_cycleEvents, List.length_append, List.length_map, List.sum_map_add, ih, length_cycleActs hs hd]

theorem length_pinSchedule (i : Instr) (d : Data cfg) (c : Chan) :
    (pinSchedule i d c).length = 3 * (24 * d.count.toNat) := by
  simp [pinSchedule, List.length_flatMap, Nat.mul_comm]

theorem length_chans (i : Instr) : i.chans.length = i.nch := by cases i <;> rfl

/-- Settles O49: each of the command's pins is shown the three writes of every window, and each port write is shown on
one of them. -/
theorem framePinWriteCount : Obligations.FramePinWriteCount := by
  unfold Obligations.FramePinWriteCount
  intro i cfg d hs hl
  refine ⟨_, _, execTimes_frameData hl le_rfl, frameData_trace .., ?_, fun e he => ?_⟩
  · have hpin : ∀ c ∈ i.chans, (pinHistory (chanDesc cfg i c).port (chanDesc cfg i c).bit
        (frameTrace i d (frameCycles i d))).length = 3 * (24 * d.count.toNat) := fun c hc => by
      rw [pinHistory_frame hl hc, length_pinSchedule]
    rw [length_portWrites_frameTrace hs (instanceOk_descs hl.fits), List.map_congr_left hpin, List.map_const',
      List.sum_replicate_nat, length_chans]
    ring
  · obtain ⟨k, hk⟩ := mem_portWrites_frameTrace he
    exact mem_cycleActs_pin hs hk

end Sys2Proof.Machine
end

section
/-! PROOF. The shared port of EMIT3 and EMIT4: PAT's lanes, what a cycle leaves of the ports, and the port writes of a frame
(R25, R68, R121 to R123, R133). -/

namespace Sys2Proof.Machine

open Sys2Proof Sys2Proof.Safety

variable {cfg : Config} {i : Instr} {d e : Data cfg}

/-! ## The lanes of PAT (R123) -/

/-- Settles O17: MASK's bits are clear in a sample, so a target's lane of PAT is its channel's bit alone. -/
theorem patLanes : Obligations.PatLanes := by
  unfold Obligations.PatLanes
  intro i cfg port bits hs hd
  refine ⟨fun c hc => snapPat_target hs hd hc ?_ bits, fun k hk => ⟨snapPat_outside_mask _ _ _ hk, ?_⟩⟩
  · rw [sampleOther_getLsbD, mask_target hd hc, Bool.not_true, Bool.and_false]
  · rw [sampleOther_getLsbD, hk, Bool.not_false, Bool.and_true]

/-! ## What a cycle leaves of the ports (R121) -/

/-- PortWrites to one port leave every other port as it is, also where the platform does not have the port written. -/
theorem portGet_applyActs_of_ne {p q : Nat} {acts : List (PortAct cfg)} (h : ∀ a ∈ acts, ∃ v, a = .portWrite p v)
    (hq : q ≠ p) (ports : List (BitVec cfg.portW)) : portGet (applyActs ports acts) q = portGet ports q := by
  induction acts generalizing ports with
  | nil => rfl
  | cons a acts ih =>
    obtain ⟨v, rfl⟩ := h a List.mem_cons_self
    rw [applyActs_cons, ih fun a' ha' => h a' (List.mem_cons_of_mem _ ha')]
    exact portGet_portWrite_of_ne ports v hq

/-- A port write of EMIT3 or EMIT4 is a PortWrite to the shared port. -/
theorem mem_cycleActs_shared (hs : i.sharedPort = true) {a : PortAct cfg} (h : a ∈ cycleActs i d) :
    ∃ v, a = .portWrite (sharedPortId (cfg.descs i)) v := by
  by_cases hf : d.fsm = .run
  · rw [cycleActs_run hf, commandActs_shared hs] at h
    obtain ⟨v, ha, -⟩ := mem_portActs h
    exact ⟨v, ha⟩
  · rw [cycleActs_of_ne_run hf] at h
    cases h

/-- A window cycle that is neither rise, data write nor fall writes no port (R90). -/
theorem cycleActs_shared_eq_nil (hs : i.sharedPort = true) (hrise : d.tcnt ≠ 0) (hdata : d.tcnt ≠ cfg.tShort)
    (hfall : d.tcnt ≠ cfg.tLong) : cycleActs i d = [] := by
  by_cases hf : d.fsm = .run
  · rw [cycleActs_run hf, commandActs_shared hs, portActs, if_neg hrise, if_neg hdata, if_neg hfall]
    rfl
  · exact cycleActs_of_ne_run hf

/-- Settles O31: the ports after a cycle are those before it with the cycle's PortWrites made. -/
theorem sharedCommandsTouchOnePort : Obligations.SharedCommandsTouchOnePort := by
  unfold Obligations.SharedCommandsTouchOnePort
  intro i cfg d d' hs h
  cases exec_next_nextData h
  rw [nextData_ports]
  refine ⟨fun p hp => portGet_applyActs_of_ne (fun _ => mem_cycleActs_shared hs) hp _, fun hrise hdata hfall => ?_⟩
  rw [cycleActs_shared_eq_nil hs hrise hdata hfall, applyActs_nil]

/-! ## The writes of a window (R90, R121) -/

/-- Three writes at rising places among the first n are made once each, in the order of the places. -/
theorem flatMap_scheduled {α : Type} {p q r : Nat} (hpq : p < q) (hqr : q < r) (x y z : α) (n : Nat) :
    ((List.range n).flatMap fun w =>
      (if w = p then [x] else []) ++ (if w = q then [y] else []) ++ (if w = r then [z] else [])) =
      (if p < n then [x] else []) ++ (if q < n then [y] else []) ++ (if r < n then [z] else []) := by
  induction n with
  | zero => simp
  | succ n ih =>
    rw [List.range_succ, List.flatMap_append, ih, List.flatMap_singleton]
    -- place n is one of the three or none, and the writes already made are those before it
    by_cases hn : n = p ∨ n = q ∨ n = r
    · rcases hn with rfl | rfl | rfl <;> grind
    · grind

/-- A write in window cycle w carries the time of the place it is scheduled for. -/
theorem map_scheduled {α : Type} (t w p : Nat) (x : α) :
    (if w = p then [x] else []).map (t + w, ·) = if w = p then [(t + p, x)] else [] := by
  split
  · next h => rw [h]; rfl
  · rfl

/-- A write of the value v to the shared port in window cycle w of window j of a frame accepted now. -/
def sharedWrite (i : Instr) (d : Data cfg) (j w : Nat) (v : BitVec cfg.portW) : Nat × PortAct cfg :=
  (windowStart i d j + w, .portWrite (sharedPortId (cfg.descs i)) v)

/-- The writes of the shared port in window j: HI, PAT, LO (R121). -/
def windowWrites (i : Instr) (d : Data cfg) (j : Nat) : List (Nat × PortAct cfg) :=
  [sharedWrite i d j 0 (snapHi (frameOther i d) (cfg.descs i)), sharedWrite i d j cfg.tShort (framePat i d j),
    sharedWrite i d j cfg.tLong (snapLo (frameOther i d))]

theorem sharedSchedule_eq (i : Instr) (d : Data cfg) :
    sharedSchedule i d = (List.range (24 * d.count.toNat)).flatMap (windowWrites i d) := rfl

/-- A window cycle of a frame makes the write of the shared port that the schedule has for it: its data write carries the
window's bits, latched in the window's first cycle (R64, R68, R89). -/
theorem WindowAt.portWrites_shared {j w : Nat} (h : WindowAt i d j w e) (hl : LaunchReady i d)
    (hj : j < 24 * d.count.toNat) (hs : i.sharedPort = true) :
    portWrites (stamp e.now (cycleEvents i e)) =
      (if w = 0 then [sharedWrite i d j 0 (snapHi (frameOther i d) (cfg.descs i))] else []) ++
      (if w = cfg.tShort then [sharedWrite i d j cfg.tShort (framePat i d j)] else []) ++
      (if w = cfg.tLong then [sharedWrite i d j cfg.tLong (snapLo (frameOther i d))] else []) := by
  obtain ⟨hshort, _, _, _, _⟩ := instanceOk_counts hl.fits
  have hnow : e.now = windowStart i d j + w := by rw [h.now, windowStart, firstRise]; omega
  have hbits : commandActs i e = portActs (cfg.descs i) (i.chans.map fun c => windowBit d c j) e := by
    rw [commandActs_shared hs]
    exact portActs_congr hshort _ rfl rfl fun h0 => List.map_congr_left fun c hc => h.latched c hc (h.tcnt ▸ h0)
  rw [portWrites_cycleEvents, cycleActs_run (h.fsm_run hj), hbits, portActs, h.tcnt, h.other_shared hs, hnow,
    List.map_append, List.map_append, map_scheduled, map_scheduled, map_scheduled]
  rfl

/-! ## The port writes of a frame (R121, R122) -/

section
variable (hl : LaunchReady i d)
include hl

/-- No port is written before the first window (R87, R88). -/
theorem portWrites_entry : portWrites (frameTrace i d (i.nch + 1)) = [] := by
  rw [frameTrace, portWrites_flatMap]
  refine List.flatMap_eq_nil_iff.mpr fun k hk => ?_
  have hk := List.mem_range.mp hk
  have hf : (frameData i d k).fsm ≠ .run := by
    cases k with
    | zero => simp [hl.idle]
    | succ m =>
      have hm : m < i.nch := by omega
      simp [(entryAt_frameData hl hm.le).fsm_entry hm]
  rw [cycleTrace, portWrites_cycleEvents, cycleActs_of_ne_run hf]
  rfl

/-- No port is written in the EXIT cycle (R95). -/
theorem portWrites_exit : portWrites (cycleTrace i d (i.nch + 1 + 24 * d.count.toNat * cfg.tBit)) = [] := by
  rw [cycleTrace, portWrites_cycleEvents, cycleActs_exit (fsm_frameData_exit hl)]
  rfl

/-- The port writes of a window of EMIT3 or EMIT4 are HI, PAT and LO. -/
theorem portWrites_window (hs : i.sharedPort = true) {j : Nat} (hj : j < 24 * d.count.toNat) :
    portWrites ((List.range cfg.tBit).flatMap fun w => cycleTrace i d (i.nch + 1 + (j * cfg.tBit + w))) =
      windowWrites i d j := by
  obtain ⟨hshort, hlong, _, _, _⟩ := instanceOk_counts hl.fits
  have hT : cfg.tBit = cfg.tShort + cfg.tLong := rfl
  rw [portWrites_flatMap]
  refine (List.flatMap_congr fun w hw =>
    (windowAt_frameData hl hj (List.mem_range.mp hw)).portWrites_shared hl hj hs).trans ?_
  rw [flatMap_scheduled hshort hlong, if_pos (by omega), if_pos (by omega), if_pos (by omega)]
  rfl

/-- The port writes of a frame of EMIT3 or EMIT4 are those of the schedule, window after window. -/
theorem portWrites_frame (hs : i.sharedPort = true) :
    portWrites (frameTrace i d (frameCycles i d)) = sharedSchedule i d := by
  rw [frameTrace_eq, portWrites_append, portWrites_append, portWrites_entry hl, portWrites_exit hl, List.nil_append,
    List.append_nil, portWrites_flatMap, sharedSchedule_eq]
  exact List.flatMap_congr fun j hj => portWrites_window hl hs (List.mem_range.mp hj)

end

/-- Settles O48: the trace of the frame holds the port writes of the schedule. -/
theorem frameSharedPortWrites : Obligations.FrameSharedPortWrites := by
  unfold Obligations.FrameSharedPortWrites
  intro i cfg d hs hl
  exact ⟨_, _, execTimes_frameData hl le_rfl, frameData_trace .., portWrites_frame hl hs⟩

end Sys2Proof.Machine
end

section
/-! PROOF. The invariant is kept by every cycle of a command, every operation of the host and reset, and so by every step
(R20 to R25, R93, R94, R98, R143). -/

namespace Sys2Proof.Machine

open Sys2Proof Sys2Proof.Safety

variable {cfg : Config} {i : Instr} {d : Data cfg}

/-! ## IDLE -/

/-- In IDLE the invariant is about what the host and the platform own. -/
theorem inv_of_idle (hw : cfg.wellBuilt = true) (hm : Memory.wf cfg d.mem = true) (hp : PortsExist d)
    (hf : d.fsm = .idle) : Inv ⟨cfg, d⟩ := by
  have hnot {f : Fsm} (hne : f ≠ .idle) : d.fsm ≠ f := fun h => hne (h.symm.trans hf)
  exact ⟨hw, hm, hp, fun h => absurd h (hnot nofun), fun h => absurd h (hnot nofun), fun h => absurd h (hnot nofun)⟩

/-- An operation of the host that is no launch keeps the form of memory, the number of ports, and IDLE. -/
theorem inv_hostCycle {s t : State} (h : Inv s) (hf : s.data.fsm = .idle) (hc : HostCycle s t) : Inv t := by
  obtain ⟨hw, hm, hp, -⟩ := h
  cases hc with
  | nothing => exact inv_of_idle hw hm hp hf
  | count v => exact inv_of_idle hw hm hp hf
  | ptr c v => exact inv_of_idle hw hm hp hf
  | read n v hv => exact inv_of_idle hw hm hp hf
  | store a v ha => exact inv_of_idle hw (memory_wf_memPut v hm ha) hp hf
  | ie v => exact inv_of_idle hw hm hp hf
  | port p v hlt => exact inv_of_idle hw hm ((portWrite_length ..).trans hp) hf

theorem inv_resetCycle (h : Inv ⟨cfg, d⟩) : Inv ⟨cfg, resetCycle d⟩ := by
  obtain ⟨hw, hm, hp, -⟩ := h
  exact inv_of_idle hw hm hp rfl

/-! ## ENTRY -/

theorem entryOk_acceptCycle (hi : instanceOk cfg i = true) (hc : d.count ≠ 0) : EntryOk (acceptCycle i d) := by
  refine ⟨hi, rfl, nch_pos i, rfl, byteCount_toNat d.count, hc, fun hs => ?_⟩
  have hs : i.sharedPort = true := hs
  rw [acceptCycle_other, acceptOther, if_pos hs]
  exact sampleOther_and_mask ..

theorem entryNext_fsm_eq_entry_iff {n : Nat} {c : Chan} : (entryNext n d c).fsm = .entry ↔ d.ecnt.toNat + 1 ≠ n := by
  simp

theorem entryNext_fsm_eq_run_iff {n : Nat} {c : Chan} : (entryNext n d c).fsm = .run ↔ d.ecnt.toNat + 1 = n := by
  simp

theorem entryNext_fsm_ne_exit {n : Nat} {c : Chan} : (entryNext n d c).fsm ≠ .exit := by
  rw [entryNext_fsm]
  split <;> nofun

theorem entryOk_entryNext (h : EntryOk d) (c : Chan) (hmore : d.ecnt.toNat + 1 ≠ d.active.nch) :
    EntryOk (entryNext d.active.nch d c) := by
  obtain ⟨hi, hie, hlt, hrest⟩ := h
  have h4 := nch_le_four d.active
  have hecnt : (d.ecnt + 1).toNat = d.ecnt.toNat + 1 := by bv_omega
  exact ⟨hi, hie, by rw [entryNext_ecnt, hecnt, entryNext_active]; omega, hrest⟩

/-- After the last fetch the first window begins, with every byte of the buffers still to send. -/
theorem runOk_entryNext (h : EntryOk d) (c : Chan) (hlast : d.ecnt.toNat + 1 = d.active.nch) :
    RunOk (entryNext d.active.nch d c) := by
  obtain ⟨hi, hie, -, -, hbytes, hcount, hother⟩ := h
  have htcnt : (entryNext d.active.nch d c).tcnt = 0 := by rw [entryNext_tcnt, if_pos hlast]
  obtain ⟨-, -, hfit, -, -⟩ := instanceOk_counts hi
  refine ⟨hi, hie, by rw [htcnt]; omega, fun h0 => hcount ?_, hbytes.le, hother, fun c' _ hlt => ?_⟩
  · have hnone : 3 * d.count.toNat = 0 := hbytes.symm.trans (congrArg BitVec.toNat h0)
    have hzero : d.count.toNat = 0 := by omega
    exact BitVec.eq_of_toNat_eq hzero
  · rw [htcnt] at hlt
    exact absurd hlt (Nat.not_lt_zero _)

/-! ## RUN -/

/-- A target pin is low after each cycle of a window from its fall on (R90, R94). -/
theorem targetLevel_runNext_afterFall (h : RunOk d) (hp : PortsExist d) {c : Chan} (hc : c ∈ d.active.chans)
    (hfall : cfg.tLong + writeOffset cfg d.active c ≤ d.tcnt) :
    targetLevel d.active (runNext d.active.nch (commandActs d.active d) d) c = false := by
  obtain ⟨hi, -, -, -, -, hother, hlow⟩ := h
  obtain ⟨-, hlong, -, -, -⟩ := instanceOk_counts hi
  rw [targetLevel, runNext_ports, targetLevel_commandActs hi hp hother hc]
  rcases hfall.eq_or_lt with heq | hlt
  · rw [if_pos heq.symm]
  · rw [if_neg hlt.ne', if_neg (by omega), if_neg (by omega)]
    exact hlow c hc hlt

/-- BYTES_LEFT falls or stays. -/
theorem runBytesLeft_le (hb : d.bytesLeft ≠ 0) : (runBytesLeft d).toNat ≤ d.bytesLeft.toNat := by
  unfold runBytesLeft
  split
  · rw [toNat_sub_one hb]
    exact Nat.sub_le ..
  · exact le_rfl

/-- EXIT follows the last cycle of a window, with no byte left to send (R93). -/
theorem runFsm_eq_exit_iff : runFsm d = .exit ↔ byteEnds d = true ∧ d.bytesLeft - 1 = 0 := by
  simp [runFsm]

theorem runFsm_ne_entry : runFsm d ≠ .entry := by
  unfold runFsm
  split <;> nofun

theorem runBytesLeft_eq_zero_iff (hb : d.bytesLeft ≠ 0) : runBytesLeft d = 0 ↔ runFsm d = .exit := by
  rw [runFsm_eq_exit_iff, runBytesLeft]
  split
  · next hends => simp [hends]
  · next hends => exact iff_of_false hb fun h => hends h.1

theorem runOk_runNext (h : RunOk d) (hp : PortsExist d) (hf : runFsm d ≠ .exit) :
    RunOk (runNext d.active.nch (commandActs d.active d) d) := by
  have hafter := fun c hc => targetLevel_runNext_afterFall h hp (c := c) hc
  obtain ⟨hi, hie, ht, hb, hle, hother, -⟩ := h
  refine ⟨hi, hie, Nat.mod_lt _ (by omega), fun h0 => hf ((runBytesLeft_eq_zero_iff hb).mp h0),
    (runBytesLeft_le hb).trans hle, hother, fun c hc hlt => hafter c hc ?_⟩
  have hmod : (d.tcnt + 1) % cfg.tBit ≤ d.tcnt + 1 := Nat.mod_le ..
  rw [runNext_tcnt, runNext_active] at hlt
  omega

/-- The last window ends after the fall of every target's pin, since SKEW2 is below T_SHORT (R6, R94). -/
theorem exitOk_runNext (h : RunOk d) (hp : PortsExist d) (hf : runFsm d = .exit) :
    ExitOk (runNext d.active.nch (commandActs d.active d) d) := by
  have hafter := fun c hc => targetLevel_runNext_afterFall h hp (c := c) hc
  obtain ⟨hi, hie, -, hb, -, hother, -⟩ := h
  obtain ⟨hends, -⟩ := runFsm_eq_exit_iff.mp hf
  have hend : d.tcnt + 1 = cfg.tBit := lastCycle_iff.mp (Bool.and_eq_true_iff.mp hends).1
  refine ⟨hi, hie, (runBytesLeft_eq_zero_iff hb).mpr hf, hother, fun c hc => hafter c hc ?_⟩
  have hoff := writeOffset_lt_tShort hi c
  have hT : cfg.tBit = cfg.tShort + cfg.tLong := rfl
  omega

/-! ## Every cycle -/

theorem inv_commandCycle {s t : State} (h : Inv s) (hi : instanceOk s.cfg i = true) (hc : CommandCycle i s t) : Inv t := by
  obtain ⟨hw, hm, hp, hentry, hrun, -⟩ := h
  cases hc with
  | accept hf hcount hr => exact ⟨hw, hm, hp, fun _ => entryOk_acceptCycle hi hcount, nofun, nofun⟩
  | entry c hf ha hchan hr =>
    subst ha
    have hok := hentry hf
    exact ⟨hw, hm, hp, fun h => entryOk_entryNext hok c (entryNext_fsm_eq_entry_iff.mp h),
      fun h => runOk_entryNext hok c (entryNext_fsm_eq_run_iff.mp h), fun h => absurd h entryNext_fsm_ne_exit⟩
  | run hf ha ht hb hr =>
    subst ha
    have hok := hrun hf
    exact ⟨hw, hm, (applyActs_length ..).trans hp, fun h => absurd h runFsm_ne_entry,
      fun h => runOk_runNext hok hp (h.trans_ne nofun), fun h => exitOk_runNext hok hp h⟩
  | exit hf ha => exact inv_of_idle hw hm hp rfl

theorem inv_exec {s t : State} (h : Inv s) (he : exec i s = .next t) : Inv t := by
  obtain ⟨hi, hc⟩ := exec_next he
  exact inv_commandCycle h hi hc

theorem inv_idleCycle {s t : State} (h : Inv s) (hf : s.data.fsm = .idle) (hidle : idleCycle s = .next t) : Inv t := by
  rcases idleCycle_next hidle with ⟨-, rfl⟩ | ⟨op, rest, -, hop⟩
  · exact inv_hostCycle h hf .nothing
  · have h' : Inv ⟨s.cfg, { s.data with host := rest }⟩ := h
    rcases hostOp_next hop with hc | ⟨_, i, -, -, he⟩
    · exact inv_hostCycle h' hf hc
    · exact inv_exec h' he

/-- Settles O41: a step is a reset, a cycle of the running command or a cycle of the host, and each keeps the invariant,
which does not speak of the reset input. -/
theorem stepKeepsInvariant : Obligations.StepKeepsInvariant := by
  unfold Obligations.StepKeepsInvariant
  intro s t h hstep
  have h' : Inv ⟨s.cfg, sampleReset s.data⟩ := h
  rcases (step_next hstep).2 with ⟨-, rfl⟩ | ⟨-, -, he⟩ | ⟨-, hf, hidle⟩
  · exact inv_resetCycle h'
  · exact inv_exec h' he
  · exact inv_idleCycle h' hf hidle

end Sys2Proof.Machine
end

section
/-! PROOF. The interrupt enable in a frame: masked from the cycle after accept to EXIT, and written in those two cycles alone
(R87, R95, R142 to R144). -/

namespace Sys2Proof.Machine

open Sys2Proof Sys2Proof.Safety

variable {cfg : Config} {i : Instr} {d : Data cfg}

/-! ## How long a frame masks interrupts (R143) -/

/-- One pixel at P16 is 24 windows of 20 cycles (R7). -/
theorem frameCycles_p16 (i : Instr) {d : Data Config.p16} (hc : d.count = 1) : frameCycles i d - 1 = i.nch + 481 := by
  have hwindows : 24 * d.count.toNat * Config.p16.tBit = 480 := by rw [hc]; rfl
  rw [frameCycles, hwindows]
  omega

/-- Settles O46: in every cycle between accept and the end the frame is in progress, and `InFrame` has IE = 0. -/
theorem frameMasksInterrupts : Obligations.FrameMasksInterrupts := by
  unfold Obligations.FrameMasksInterrupts
  refine ⟨fun i cfg d k hl h0 hk => ?_, fun i cfg d => rfl, fun i d hc => ⟨frameCycles_p16 i hc, ?_, ?_⟩⟩
  · have hlt : k < frameCycles i d := by omega
    exact ⟨_, execTimes_frameData hl hlt.le, (inFrame_frameData hl h0 hlt).1.ie⟩
  · rintro rfl
    exact frameCycles_p16 .emit1 hc
  · rintro rfl
    exact frameCycles_p16 .emit4 hc

/-! ## The IE writes of a cycle -/

theorem ieWrites_append (tr tr' : List (Timed cfg)) : ieWrites (tr ++ tr') = ieWrites tr ++ ieWrites tr' :=
  List.filterMap_append

theorem ieWrites_runEvents (t n : Nat) (acts : List (PortAct cfg)) (d : Data cfg) :
    ieWrites (stamp t (runEvents n acts d)) = [] := by
  have hacts : ieWrites (stamp t (acts.map (.out : PortAct cfg → Event cfg))) = [] := by simp [ieWrites, stamp]
  rw [runEvents, stamp_append, ieWrites_append, hacts]
  cases runChan n d <;> rfl

/-- The values that a cycle of a command writes to IE: 0 in accept and the saved value in EXIT (R142, R144). -/
def cycleIeWrites (d : Data cfg) : List Bool :=
  match d.fsm with
  | .idle => [false]
  | .entry => []
  | .run => []
  | .exit => [d.ieSaved]

theorem ieWrites_cycleEvents (i : Instr) (t : Nat) (d : Data cfg) :
    ieWrites (stamp t (cycleEvents i d)) = (cycleIeWrites d).map (t, ·) := by
  unfold cycleEvents cycleIeWrites
  cases d.fsm with
  | idle => rfl
  | entry => cases entryChan i.nch d <;> rfl
  | run => exact ieWrites_runEvents ..
  | exit => rfl

/-! ## The IE writes of a frame -/

section
variable (hl : LaunchReady i d)
include hl

/-- Between accept and EXIT no cycle of a frame writes IE. -/
theorem cycleIeWrites_frameData {k : Nat} (h0 : 0 < k) (hk : k < i.nch + 1 + 24 * d.count.toNat * cfg.tBit) :
    cycleIeWrites (frameData i d k) = [] := by
  cases framePosition (i := i) hl.tBit_pos (hk.trans (Nat.lt_succ_self _)) with
  | accept => exact absurd h0 (Nat.lt_irrefl 0)
  | entry m hm => simp [cycleIeWrites, (entryAt_frameData hl hm.le).fsm_entry hm]
  | window j w hj hw => simp [cycleIeWrites, (windowAt_frameData hl hj hw).fsm_run hj]
  | exit => exact absurd hk (Nat.lt_irrefl _)

/-- Until the EXIT cycle the trace of a frame holds the IE write of accept alone. -/
theorem ieWrites_frameTrace {k : Nat} (h0 : 1 ≤ k) (hk : k ≤ i.nch + 1 + 24 * d.count.toNat * cfg.tBit) :
    ieWrites (frameTrace i d k) = [(d.now, false)] := by
  induction k, h0 using Nat.le_induction with
  | base =>
    have haccept : cycleIeWrites d = [false] := by simp [cycleIeWrites, hl.idle]
    rw [frameTrace_succ, frameTrace_zero, List.nil_append, cycleTrace, frameData_zero, ieWrites_cycleEvents, haccept]
    rfl
  | succ k h0 ih =>
    rw [frameTrace_succ, ieWrites_append, ih (by omega), cycleTrace, ieWrites_cycleEvents,
      cycleIeWrites_frameData hl h0 hk]
    rfl

/-- The EXIT cycle writes the value that IE had before the frame (R144). -/
theorem ieWrites_frame :
    ieWrites (frameTrace i d (frameCycles i d)) = [(d.now, false), (d.now + frameCycles i d - 1, d.ie)] := by
  have h := exitAt_frameData hl
  have hexit : cycleIeWrites (frameData i d (i.nch + 1 + 24 * d.count.toNat * cfg.tBit)) = [d.ie] := by
    simp [cycleIeWrites, fsm_frameData_exit hl, h.ieSaved]
  have hnow : (frameData i d (i.nch + 1 + 24 * d.count.toNat * cfg.tBit)).now = d.now + frameCycles i d - 1 :=
    now_frameData hl (Nat.le_succ _)
  rw [← hnow, frameCycles, frameTrace_succ, ieWrites_append, ieWrites_frameTrace hl (by omega) le_rfl, cycleTrace,
    ieWrites_cycleEvents, hexit]
  rfl

end

/-- Settles O51: accept and EXIT write IE, and EXIT writes what accept saved. -/
theorem frameInterruptWrites : Obligations.FrameInterruptWrites := by
  unfold Obligations.FrameInterruptWrites
  intro i cfg d hl
  obtain ⟨-, hie, hsaved, -⟩ := frameDone_end hl
  exact ⟨_, _, execTimes_frameData hl le_rfl, frameData_trace .., ieWrites_frame hl, hsaved, hie⟩

end Sys2Proof.Machine
end

section
/-! PROOF. The block in IDLE with nothing to do (R156). -/

namespace Sys2Proof.Machine

open Sys2Proof Sys2Proof.Safety

variable {cfg : Config} {d : Data cfg}

/-- In a cycle of IDLE with no operation of the host left only the clock moves. -/
theorem step_waiting (ht : HostTurn d) (hh : d.host = []) : step ⟨cfg, d⟩ = .next ⟨cfg, tick (sampleReset d)⟩ := by
  obtain ⟨hw, hf, hr⟩ := ht
  rw [step_active hw hr]
  simp [activeCycle, idleCycle, hf, hh, onward]

/-- Settles O7: a cycle of IDLE without an operation, and one with an operation that makes no access, are each one tick. -/
theorem idleKeepsEverything : Obligations.IdleKeepsEverything := by
  unfold Obligations.IdleKeepsEverything
  intro cfg d ht hh
  rcases hh with hnone | hidle
  · have hnil := List.head?_eq_none_iff.mp hnone
    have htail : d.host.tail = d.host := by rw [hnil]; rfl
    rw [step_waiting ht hnil, htail]
    rfl
  · obtain ⟨rest, hcons⟩ := List.head?_eq_some_iff.mp hidle
    rw [step_host ht hcons, hcons]
    rfl

end Sys2Proof.Machine
end

section
/-! PROOF. Reset leaves IDLE and abandons a frame in progress (R160, R162, R163). -/

namespace Sys2Proof.Machine

open Sys2Proof Sys2Proof.Safety

variable {cfg : Config} {d : Data cfg}

/-- Settles O5: the reset state and every reset cycle are in IDLE, where BUSY and STATUS are 0. -/
theorem resetLeavesIdle : Obligations.ResetLeavesIdle := by
  unfold Obligations.ResetLeavesIdle
  exact ⟨rfl, status_idle rfl, fun cfg d =>
    ⟨resetCycle_fsm d, by simp [busy_eq], status_idle (resetCycle_fsm d)⟩⟩

/-- In every phase of a frame delivery of interrupts is off (R143). -/
theorem ie_eq_false_of_inv (h : Inv ⟨cfg, d⟩) (hf : d.fsm ≠ .idle) : d.ie = false := by
  obtain ⟨-, -, -, hentry, hrun, hexit⟩ := h
  cases hphase : d.fsm with
  | idle => exact absurd hphase hf
  | entry =>
    obtain ⟨-, hie, -⟩ := hentry hphase
    exact hie
  | run =>
    obtain ⟨-, hie, -⟩ := hrun hphase
    exact hie
  | exit =>
    obtain ⟨-, hie, -⟩ := hexit hphase
    exact hie

/-- Settles O6: the step is the reset cycle, which keeps IE, and a frame in progress has IE at 0. -/
theorem resetAbandonsFrame : Obligations.ResetAbandonsFrame := by
  unfold Obligations.ResetAbandonsFrame
  intro cfg d rest hw hreset
  have hstep : step ⟨cfg, d⟩ = .next ⟨cfg, resetCycle (sampleReset d)⟩ :=
    step_reset hw (resetApplied_iff.mpr ⟨rest, hreset⟩)
  have hrest : (resetCycle (sampleReset d)).resetIn = rest := by simp [hreset]
  exact ⟨_, hstep, rfl, rfl, rfl, rfl, rfl, rfl, hrest, ie_eq_false_of_inv⟩

end Sys2Proof.Machine
end

section
/-! PROOF. A duration is its cycles divided by CLK_HZ (R7, R172, R180). -/

namespace Sys2Proof.Machine

open Sys2Proof

variable {cfg : Config}

/-- A duration times the clock's rate is the cycles in units of 10^-9 (R172). -/
theorem cyclesToNs_mul_clkHz (n : Nat) (h : cfg.clkHz ≠ 0) : cyclesToNs cfg n * cfg.clkHz = n * 1000000000 := by
  have hclk : (cfg.clkHz : Rat) ≠ 0 := Nat.cast_ne_zero.mpr h
  rw [cyclesToNs, div_mul_cancel₀ _ hclk]
  push_cast
  rfl

/-- At 16 MHz a cycle is 62.5 ns (R7). -/
theorem cyclesToNs_p16 (n : Nat) : cyclesToNs Config.p16 n = n * (125 / 2) := by
  have hclk : (Config.p16.clkHz : Rat) = 16000000 := by norm_num [Config.p16]
  have h := cyclesToNs_mul_clkHz (cfg := Config.p16) n (by decide)
  rw [hclk] at h
  linarith

/-- Settles O60: the quotient is exact, and at P16 each named duration is its cycles times 62.5 ns. -/
theorem durationIsCyclesOverClock : Obligations.DurationIsCyclesOverClock := by
  unfold Obligations.DurationIsCyclesOverClock
  have hshort : Config.p16.tShort = 4 := rfl
  have hlong : Config.p16.tLong = 16 := rfl
  have hbit : Config.p16.tBit = 20 := rfl
  refine ⟨fun cfg n h => cyclesToNs_mul_clkHz n h, ?_⟩
  rw [hshort, hlong, hbit]
  norm_num [cyclesToNs_p16]

end Sys2Proof.Machine
end
